-- ==== Sys2Proof/Word.lean ====
section
/-! DEFINITION. The word types of the block (00_scope.md R6) and the three operand sizes (R7). -/

namespace Sys2Proof

/-- One byte of memory (R6). -/
abbrev Byte := BitVec 8

/-- An opcode word or an extension word (R6). -/
abbrev Half := BitVec 16

/-- A register, an address, the program counter or a long word (R6). -/
abbrev Word := BitVec 32

/-- A register field of an opcode word: 0 to 7 (R12). -/
abbrev RegNum := BitVec 3

/-- Operand sizes: byte, word, long word (R6, R15). -/
inductive Size where
  | b | w | l
  deriving DecidableEq, Repr, Inhabited

end Sys2Proof
end

