-- ==== Sys2Proof/Syntax.lean ====
section
/-! DEFINITION. The instructions as the decoder reads them from the opcode word: one constructor per row of
spec/opcode_table.json. Extension words are no part of an instruction: a resolver fetches them when the
instruction runs (41_addressing_modes.md R161), so an operand here names its mode and register only. -/

namespace Sys2Proof

/-- The sixteen conditions, by the names of 40_datapath.md R150. -/
inductive Cond where
  | t | f | hi | ls | cc | cs | ne | eq | vc | vs | pl | mi | ge | lt | gt | le
  deriving DecidableEq, Repr

/-- The nine addressing modes that name memory (30_encoding.md R89). -/
inductive MemMode where
  /-- `(An)` -/
  | ind (n : RegNum)
  /-- `(An)+` -/
  | postInc (n : RegNum)
  /-- `-(An)` -/
  | preDec (n : RegNum)
  /-- `d16(An)` -/
  | disp (n : RegNum)
  /-- `d8(An,Xk)` -/
  | index (n : RegNum)
  /-- `xxx.W` -/
  | absW
  /-- `xxx.L` -/
  | absL
  /-- `d16(PC)` -/
  | pcDisp
  /-- `d8(PC,Xk)` -/
  | pcIndex
  deriving DecidableEq, Repr

/-- The twelve addressing modes (30_encoding.md R89): a register, memory in nine forms, or immediate. -/
inductive Ea where
  /-- `Dn` -/
  | dn (n : RegNum)
  /-- `An` -/
  | an (n : RegNum)
  | mem (m : MemMode)
  /-- `#xxx` -/
  | imm
  deriving DecidableEq, Repr

/-- Where a register shift takes its count (30_encoding.md R98): the field `op[11:9]` itself, or the data
register it names. -/
inductive ShiftCount where
  | imm (q : BitVec 3)
  | reg (n : RegNum)
  deriving DecidableEq, Repr

/-- The instructions, one constructor per row of spec/opcode_table.json, in its order. `dst` and `src` are
effective addresses, `dn` a data register field, `an` an address register field. -/
inductive Instr where
  | moveB (src dst : Ea)
  | moveL (src dst : Ea)
  | moveW (src dst : Ea)
  | moveaL (src : Ea) (an : RegNum)
  | moveaW (src : Ea) (an : RegNum)
  | moveq (dn : RegNum) (data : BitVec 8)
  | moveFromSr (dst : Ea)
  | moveToSr (src : Ea)
  | addBEaDn (src : Ea) (dn : RegNum)
  | addWEaDn (src : Ea) (dn : RegNum)
  | addLEaDn (src : Ea) (dn : RegNum)
  | addBDnEa (dn : RegNum) (dst : Ea)
  | addWDnEa (dn : RegNum) (dst : Ea)
  | addLDnEa (dn : RegNum) (dst : Ea)
  | subBEaDn (src : Ea) (dn : RegNum)
  | subWEaDn (src : Ea) (dn : RegNum)
  | subLEaDn (src : Ea) (dn : RegNum)
  | subBDnEa (dn : RegNum) (dst : Ea)
  | subWDnEa (dn : RegNum) (dst : Ea)
  | subLDnEa (dn : RegNum) (dst : Ea)
  | cmpB (src : Ea) (dn : RegNum)
  | cmpW (src : Ea) (dn : RegNum)
  | cmpL (src : Ea) (dn : RegNum)
  | addqB (q : BitVec 3) (dst : Ea)
  | addqW (q : BitVec 3) (dst : Ea)
  | addqL (q : BitVec 3) (dst : Ea)
  | scc (cond : Cond) (dst : Ea)
  | dbcc (cond : Cond) (dn : RegNum)
  | bra (disp8 : BitVec 8)
  | bsr (disp8 : BitVec 8)
  | bcc (cond : Cond) (disp8 : BitVec 8)
  | jmp (dst : Ea)
  | jsr (dst : Ea)
  | rts
  | rte
  | asrB (count : ShiftCount) (dn : RegNum)
  | asrW (count : ShiftCount) (dn : RegNum)
  | asrL (count : ShiftCount) (dn : RegNum)
  | lsrB (count : ShiftCount) (dn : RegNum)
  | lsrW (count : ShiftCount) (dn : RegNum)
  | lsrL (count : ShiftCount) (dn : RegNum)
  | lslB (count : ShiftCount) (dn : RegNum)
  | lslW (count : ShiftCount) (dn : RegNum)
  | lslL (count : ShiftCount) (dn : RegNum)
  | rorB (count : ShiftCount) (dn : RegNum)
  | rorW (count : ShiftCount) (dn : RegNum)
  | rorL (count : ShiftCount) (dn : RegNum)
  | rolB (count : ShiftCount) (dn : RegNum)
  | rolW (count : ShiftCount) (dn : RegNum)
  | rolL (count : ShiftCount) (dn : RegNum)
  | asrMem (dst : Ea)
  | lsrMem (dst : Ea)
  | lslMem (dst : Ea)
  | rorMem (dst : Ea)
  | rolMem (dst : Ea)
  | bsetDyn (dn : RegNum) (dst : Ea)
  | bclrDyn (dn : RegNum) (dst : Ea)
  | bsetStatic (dst : Ea)
  | bclrStatic (dst : Ea)
  | trap (vector : BitVec 4)
  deriving DecidableEq, Repr

end Sys2Proof
end

