-- ==== Sys2Proof/Machine/Category.lean ====
section
/-! DEFINITION. The effective-address categories of 30_encoding.md R90. -/

namespace Sys2Proof.Machine

/-- `memory`: all modes but Dn and An (R90). -/
def isMemory : Ea → Bool
  | .dn _ => false
  | .an _ => false
  | .mem _ => true
  | .imm => true

/-- `data`: all modes but An (R90). -/
def isData : Ea → Bool
  | .an _ => false
  | _ => true

/-- `alterable`: Dn, An and the memory modes that are neither PC-relative nor immediate (R90). -/
def isAlterable : Ea → Bool
  | .dn _ => true
  | .an _ => true
  | .mem .pcDisp => false
  | .mem .pcIndex => false
  | .mem _ => true
  | .imm => false

/-- `data_alterable`: `alterable` but An (R90). -/
def isDataAlterable (e : Ea) : Bool := isAlterable e && isData e

/-- `memory_alterable`: `alterable` but Dn and An (R90). -/
def isMemoryAlterable (e : Ea) : Bool := isAlterable e && isMemory e

/-- `control`: (An), d16(An), d8(An,Xn), xxx.W, xxx.L, d16(PC), d8(PC,Xn) (R90). -/
def isControl : Ea → Bool
  | .mem (.ind _) => true
  | .mem (.disp _) => true
  | .mem (.index _) => true
  | .mem .absW => true
  | .mem .absL => true
  | .mem .pcDisp => true
  | .mem .pcIndex => true
  | _ => false

end Sys2Proof.Machine
end

