-- ==== Sys2Proof/WellFormed.lean ====
section
/-! DEFINITION. Well-formed instructions: the constraints of spec/opcode_table.json (`src_ea`, `dst_ea`, `ea`,
`cond`), which say what the base table admits (30_encoding.md R85, R104). A term that is not well-formed has
no opcode word of its own. -/

namespace Sys2Proof

open Sys2Proof.Machine

/-- The constraint column of the instruction's row (30_encoding.md R85, R104). -/
def Instr.wf : Instr → Bool
  | .moveB src dst => isData src && isDataAlterable dst
  | .moveL _ dst => isDataAlterable dst
  | .moveW _ dst => isDataAlterable dst
  | .moveaL _ _ => true
  | .moveaW _ _ => true
  | .moveq _ _ => true
  | .moveFromSr dst => isDataAlterable dst
  | .moveToSr src => isData src
  | .addBEaDn src _ => isData src
  | .addWEaDn _ _ => true
  | .addLEaDn _ _ => true
  | .addBDnEa _ dst => isMemoryAlterable dst
  | .addWDnEa _ dst => isMemoryAlterable dst
  | .addLDnEa _ dst => isMemoryAlterable dst
  | .subBEaDn src _ => isData src
  | .subWEaDn _ _ => true
  | .subLEaDn _ _ => true
  | .subBDnEa _ dst => isMemoryAlterable dst
  | .subWDnEa _ dst => isMemoryAlterable dst
  | .subLDnEa _ dst => isMemoryAlterable dst
  | .cmpB src _ => isData src
  | .cmpW _ _ => true
  | .cmpL _ _ => true
  | .addqB _ dst => isDataAlterable dst
  | .addqW _ dst => isAlterable dst
  | .addqL _ dst => isAlterable dst
  | .scc _ dst => isDataAlterable dst
  | .dbcc _ _ => true
  | .bra _ => true
  | .bsr _ => true
  | .bcc cond _ => cond != .t && cond != .f
  | .jmp dst => isControl dst
  | .jsr dst => isControl dst
  | .rts => true
  | .rte => true
  | .asrB _ _ => true
  | .asrW _ _ => true
  | .asrL _ _ => true
  | .lsrB _ _ => true
  | .lsrW _ _ => true
  | .lsrL _ _ => true
  | .lslB _ _ => true
  | .lslW _ _ => true
  | .lslL _ _ => true
  | .rorB _ _ => true
  | .rorW _ _ => true
  | .rorL _ _ => true
  | .rolB _ _ => true
  | .rolW _ _ => true
  | .rolL _ _ => true
  | .asrMem dst => isMemoryAlterable dst
  | .lsrMem dst => isMemoryAlterable dst
  | .lslMem dst => isMemoryAlterable dst
  | .rorMem dst => isMemoryAlterable dst
  | .rolMem dst => isMemoryAlterable dst
  | .bsetDyn _ dst => isDataAlterable dst
  | .bclrDyn _ dst => isDataAlterable dst
  | .bsetStatic dst => isDataAlterable dst
  | .bclrStatic dst => isDataAlterable dst
  | .trap _ => true

end Sys2Proof
end

