-- ==== Sys2Proof/Decode.lean ====
section
/-! DEFINITION. The decoder of the opcode word, and after it the encoder, both from the formats of 30_encoding.md
R81 and the opcode map of R104. The decoder is total: a word outside the base table and the TRAP slot is
rejected as illegal. -/

namespace Sys2Proof

/-! ### Fields -/

/-- `op[lo+len-1 : lo]` (00_scope.md R10). -/
def field (op : Half) (lo len : Nat) : BitVec len := op.extractLsb' lo len

/-- The mode of an effective-address field, bits 5:3 (30_encoding.md R89). -/
def eaMode : Ea → BitVec 3
  | .dn _ => 0#3
  | .an _ => 1#3
  | .mem (.ind _) => 2#3
  | .mem (.postInc _) => 3#3
  | .mem (.preDec _) => 4#3
  | .mem (.disp _) => 5#3
  | .mem (.index _) => 6#3
  | .mem .absW => 7#3
  | .mem .absL => 7#3
  | .mem .pcDisp => 7#3
  | .mem .pcIndex => 7#3
  | .imm => 7#3

/-- The register of an effective-address field, bits 2:0 (30_encoding.md R89). -/
def eaReg : Ea → BitVec 3
  | .dn n => n
  | .an n => n
  | .mem (.ind n) => n
  | .mem (.postInc n) => n
  | .mem (.preDec n) => n
  | .mem (.disp n) => n
  | .mem (.index n) => n
  | .mem .absW => 0#3
  | .mem .absL => 1#3
  | .mem .pcDisp => 2#3
  | .mem .pcIndex => 3#3
  | .imm => 4#3

/-- The addressing mode of a mode and a register field; mode 111 with register 101 to 111 names none
(30_encoding.md R89, 41_addressing_modes.md R178). -/
def decodeEa (mode reg : BitVec 3) : Option Ea :=
  match mode.toNat with
  | 0 => some (.dn reg)
  | 1 => some (.an reg)
  | 2 => some (.mem (.ind reg))
  | 3 => some (.mem (.postInc reg))
  | 4 => some (.mem (.preDec reg))
  | 5 => some (.mem (.disp reg))
  | 6 => some (.mem (.index reg))
  | _ =>
    match reg.toNat with
    | 0 => some (.mem .absW)
    | 1 => some (.mem .absL)
    | 2 => some (.mem .pcDisp)
    | 3 => some (.mem .pcIndex)
    | 4 => some .imm
    | _ => none

/-- The four-bit code of a condition (40_datapath.md R150). -/
def condCode : Cond → BitVec 4
  | .t => 0#4
  | .f => 1#4
  | .hi => 2#4
  | .ls => 3#4
  | .cc => 4#4
  | .cs => 5#4
  | .ne => 6#4
  | .eq => 7#4
  | .vc => 8#4
  | .vs => 9#4
  | .pl => 10#4
  | .mi => 11#4
  | .ge => 12#4
  | .lt => 13#4
  | .gt => 14#4
  | .le => 15#4

/-- The condition of a four-bit code (40_datapath.md R150). -/
def decodeCond (c : BitVec 4) : Cond :=
  match c.toNat with
  | 0 => .t
  | 1 => .f
  | 2 => .hi
  | 3 => .ls
  | 4 => .cc
  | 5 => .cs
  | 6 => .ne
  | 7 => .eq
  | 8 => .vc
  | 9 => .vs
  | 10 => .pl
  | 11 => .mi
  | 12 => .ge
  | 13 => .lt
  | 14 => .gt
  | _ => .le

/-! ### The decoder -/

/-- The effective address in bits 5:0. -/
def opEa (op : Half) : Option Ea := decodeEa (field op 3 3) (field op 0 3)

/-- The destination of MOVE: mode in bits 8:6, register in bits 11:9 (30_encoding.md R89). -/
def opDstEa (op : Half) : Option Ea := decodeEa (field op 6 3) (field op 9 3)

/-- Line 0000: BSET and BCLR, dynamic (F-REG-OPMODE-EA) and static (F-EA). -/
def decodeLine0 (op : Half) : Option Instr :=
  let dn := field op 9 3
  match (field op 6 3).toNat with
  | 7 => (opEa op).map fun e => .bsetDyn dn e
  | 6 => (opEa op).map fun e => .bclrDyn dn e
  | 3 => if dn = 4#3 then (opEa op).map fun e => .bsetStatic e else none
  | 2 => if dn = 4#3 then (opEa op).map fun e => .bclrStatic e else none
  | _ => none

/-- Line 0001: MOVE.B (F-MOVE). -/
def decodeLine1 (op : Half) : Option Instr :=
  (opEa op).bind fun src => (opDstEa op).map fun dst => .moveB src dst

/-- Line 0010: MOVE.L, and MOVEA.L where the destination mode is 001 (F-MOVE). -/
def decodeLine2 (op : Half) : Option Instr :=
  (opEa op).bind fun src =>
    if field op 6 3 = 1#3 then some (.moveaL src (field op 9 3))
    else (opDstEa op).map fun dst => .moveL src dst

/-- Line 0011: MOVE.W, and MOVEA.W where the destination mode is 001 (F-MOVE). -/
def decodeLine3 (op : Half) : Option Instr :=
  (opEa op).bind fun src =>
    if field op 6 3 = 1#3 then some (.moveaW src (field op 9 3))
    else (opDstEa op).map fun dst => .moveW src dst

/-- Line 0100: MOVE from SR 0x40C0, MOVE to SR 0x46C0, JSR 0x4E80, JMP 0x4EC0 (F-EA), RTE 0x4E73, RTS 0x4E75
(F-FIXED) and the TRAP slot 0x4E40 to 0x4E4F (F-TRAP). -/
def decodeLine4 (op : Half) : Option Instr :=
  match (field op 6 6).toNat with
  | 0x03 => (opEa op).map fun e => .moveFromSr e
  | 0x1B => (opEa op).map fun e => .moveToSr e
  | 0x3A => (opEa op).map fun e => .jsr e
  | 0x3B => (opEa op).map fun e => .jmp e
  | 0x39 =>
    if field op 4 2 = 0#2 then some (.trap (field op 0 4))
    else if field op 0 6 = 0x33#6 then some .rte
    else if field op 0 6 = 0x35#6 then some .rts
    else none
  | _ => none

/-- Line 0101: Scc (F-SCC) and DBcc (F-DBCC) where bits 7:6 are 11, else ADDQ (F-QUICK) where bit 8 is 0. -/
def decodeLine5 (op : Half) : Option Instr :=
  let q := field op 9 3
  match (field op 6 3).toNat with
  | 0 => (opEa op).map fun e => .addqB q e
  | 1 => (opEa op).map fun e => .addqW q e
  | 2 => (opEa op).map fun e => .addqL q e
  | 3 | 7 =>
    if field op 3 3 = 1#3 then some (.dbcc (decodeCond (field op 8 4)) (field op 0 3))
    else (opEa op).map fun e => .scc (decodeCond (field op 8 4)) e
  | _ => none

/-- Line 0110: BRA, BSR, Bcc (F-BRANCH). -/
def decodeLine6 (op : Half) : Option Instr :=
  let disp8 := field op 0 8
  match (field op 8 4).toNat with
  | 0 => some (.bra disp8)
  | 1 => some (.bsr disp8)
  | _ => some (.bcc (decodeCond (field op 8 4)) disp8)

/-- Line 0111: MOVEQ, bit 8 = 0 (F-MOVEQ). -/
def decodeLine7 (op : Half) : Option Instr :=
  if field op 8 1 = 0#1 then some (.moveq (field op 9 3) (field op 0 8)) else none

/-- Line 1001: SUB by its opmode (F-REG-OPMODE-EA). -/
def decodeLine9 (op : Half) : Option Instr :=
  let dn := field op 9 3
  match (field op 6 3).toNat with
  | 0 => (opEa op).map fun e => .subBEaDn e dn
  | 1 => (opEa op).map fun e => .subWEaDn e dn
  | 2 => (opEa op).map fun e => .subLEaDn e dn
  | 4 => (opEa op).map fun e => .subBDnEa dn e
  | 5 => (opEa op).map fun e => .subWDnEa dn e
  | 6 => (opEa op).map fun e => .subLDnEa dn e
  | _ => none

/-- Line 1011: CMP by its opmode (F-REG-OPMODE-EA). -/
def decodeLineB (op : Half) : Option Instr :=
  let dn := field op 9 3
  match (field op 6 3).toNat with
  | 0 => (opEa op).map fun e => .cmpB e dn
  | 1 => (opEa op).map fun e => .cmpW e dn
  | 2 => (opEa op).map fun e => .cmpL e dn
  | _ => none

/-- Line 1101: ADD by its opmode (F-REG-OPMODE-EA). -/
def decodeLineD (op : Half) : Option Instr :=
  let dn := field op 9 3
  match (field op 6 3).toNat with
  | 0 => (opEa op).map fun e => .addBEaDn e dn
  | 1 => (opEa op).map fun e => .addWEaDn e dn
  | 2 => (opEa op).map fun e => .addLEaDn e dn
  | 4 => (opEa op).map fun e => .addBDnEa dn e
  | 5 => (opEa op).map fun e => .addWDnEa dn e
  | 6 => (opEa op).map fun e => .addLDnEa dn e
  | _ => none

/-- The count operand of a register shift: bit 5 chooses (30_encoding.md R98). -/
def opCount (op : Half) : ShiftCount :=
  if field op 5 1 = 0#1 then .imm (field op 9 3) else .reg (field op 9 3)

/-- F-SHIFT-REG: by type (bits 4:3), direction (bit 8) and size (bits 7:6). Type 10 and the left arithmetic
shift are not admitted (30_encoding.md R105). -/
def decodeShiftReg (op : Half) : Option Instr :=
  let c := opCount op
  let dn := field op 0 3
  match (field op 3 2).toNat, (field op 8 1).toNat, (field op 6 2).toNat with
  | 0, 0, 0 => some (.asrB c dn)
  | 0, 0, 1 => some (.asrW c dn)
  | 0, 0, 2 => some (.asrL c dn)
  | 1, 0, 0 => some (.lsrB c dn)
  | 1, 0, 1 => some (.lsrW c dn)
  | 1, 0, 2 => some (.lsrL c dn)
  | 1, 1, 0 => some (.lslB c dn)
  | 1, 1, 1 => some (.lslW c dn)
  | 1, 1, 2 => some (.lslL c dn)
  | 3, 0, 0 => some (.rorB c dn)
  | 3, 0, 1 => some (.rorW c dn)
  | 3, 0, 2 => some (.rorL c dn)
  | 3, 1, 0 => some (.rolB c dn)
  | 3, 1, 1 => some (.rolW c dn)
  | 3, 1, 2 => some (.rolL c dn)
  | _, _, _ => none

/-- F-SHIFT-MEM: by bits 11:8, a 0, the type and the direction. -/
def decodeShiftMem (op : Half) : Option Instr :=
  match (field op 8 4).toNat with
  | 0 => (opEa op).map fun e => .asrMem e
  | 2 => (opEa op).map fun e => .lsrMem e
  | 3 => (opEa op).map fun e => .lslMem e
  | 6 => (opEa op).map fun e => .rorMem e
  | 7 => (opEa op).map fun e => .rolMem e
  | _ => none

/-- Line 1110: memory shifts where bits 7:6 are 11, else register shifts. -/
def decodeLineE (op : Half) : Option Instr :=
  if field op 6 2 = 3#2 then decodeShiftMem op else decodeShiftReg op

/-- The format of the opcode line, bits 15:12 (30_encoding.md R104), before the constraints. -/
def decodeFormat (op : Half) : Option Instr :=
  match (field op 12 4).toNat with
  | 0 => decodeLine0 op
  | 1 => decodeLine1 op
  | 2 => decodeLine2 op
  | 3 => decodeLine3 op
  | 4 => decodeLine4 op
  | 5 => decodeLine5 op
  | 6 => decodeLine6 op
  | 7 => decodeLine7 op
  | 9 => decodeLine9 op
  | 11 => decodeLineB op
  | 13 => decodeLineD op
  | 14 => decodeLineE op
  | _ => none

/-- The row an opcode word matches, with its fields: its format and its row's constraints (30_encoding.md R85).
`none` for every word that no row matches (R105). -/
def decodeOp (op : Half) : Option Instr := (decodeFormat op).filter Instr.wf

/-- Why the decoder rejects a byte sequence. -/
inductive DecodeReject where
  /-- Fewer than the two bytes of an opcode word. -/
  | truncated
  /-- No row of the opcode table matches the word (30_encoding.md R105). -/
  | illegal (op : Half)
  deriving DecidableEq, Repr

/-- An opcode word or extension word from its two bytes, the first the more significant (20_memory.md R53). -/
def halfOfBytes (hi lo : Byte) : Half := BitVec.ofNat 16 (hi.toNat * 256 + lo.toNat)

/-- The decoder on bytes: the instruction of the leading opcode word and the bytes after it, where its extension
words stand (30_encoding.md R80). -/
def decode : List Byte → Except DecodeReject (Instr × List Byte)
  | hi :: lo :: rest =>
    match decodeOp (halfOfBytes hi lo) with
    | some i => .ok (i, rest)
    | none => .error (.illegal (halfOfBytes hi lo))
  | _ => .error .truncated

/-- The bytes of the words of `w`, bit 0 the least significant bit of the first word, each word with its more
significant byte first: `k` words. -/
def bytesOfWords : Nat → Nat → List Byte
  | 0, _ => []
  | k + 1, w =>
    BitVec.ofNat 8 (w % 65536 / 256) :: BitVec.ofNat 8 (w % 256) :: bytesOfWords k (w / 65536)

/-- The longest instruction is five words (30_encoding.md R80). -/
def maxWords : Nat := 5

/-- `w` with the bits from `nbits` up cleared, as the words of the longest instruction. -/
def bytesOfTableWord (nbits w : Nat) : List Byte := bytesOfWords maxWords (w % 2 ^ nbits)

/-- The instruction the decoder reads from the bits `w` of an opcode-table row, the table's bit 0 the least
significant bit of the first word. -/
def decodeTableWord (nbits w : Nat) : Option Instr :=
  match decode (bytesOfTableWord nbits w) with
  | .ok (i, _) => some i
  | .error _ => none

/-! ### The encoder -/

/-- A word of five fields: bits 15:12, 11:9, 8:6, 5:3, 2:0 (F-MOVE, F-REG-OPMODE-EA, and F-EA, F-QUICK whose
fixed bits are written so). -/
def word43333 (line : BitVec 4) (r9 m6 m3 r0 : BitVec 3) : Half :=
  BitVec.ofNat 16 (line.toNat * 4096 + r9.toNat * 512 + m6.toNat * 64 + m3.toNat * 8 + r0.toNat)

/-- A word of bits 15:12, 11:8, 7:0 (F-BRANCH). -/
def word448 (line cond : BitVec 4) (disp8 : BitVec 8) : Half :=
  BitVec.ofNat 16 (line.toNat * 4096 + cond.toNat * 256 + disp8.toNat)

/-- A word of bits 15:12, 11:9, 8, 7:0 (F-MOVEQ). -/
def word4318 (line : BitVec 4) (r9 : BitVec 3) (b8 : BitVec 1) (data : BitVec 8) : Half :=
  BitVec.ofNat 16 (line.toNat * 4096 + r9.toNat * 512 + b8.toNat * 256 + data.toNat)

/-- A word of bits 15:12, 11:8, 7:6, 5:3, 2:0 (F-SCC, F-DBCC, F-SHIFT-MEM). -/
def word44233 (line cond : BitVec 4) (s6 : BitVec 2) (m3 r0 : BitVec 3) : Half :=
  BitVec.ofNat 16 (line.toNat * 4096 + cond.toNat * 256 + s6.toNat * 64 + m3.toNat * 8 + r0.toNat)

/-- A word of bits 15:12, 11:9, 8, 7:6, 5, 4:3, 2:0 (F-SHIFT-REG). -/
def word4312123 (line : BitVec 4) (r9 : BitVec 3) (dir : BitVec 1) (size : BitVec 2) (ir : BitVec 1)
    (type : BitVec 2) (r0 : BitVec 3) : Half :=
  BitVec.ofNat 16 (line.toNat * 4096 + r9.toNat * 512 + dir.toNat * 256 + size.toNat * 64 + ir.toNat * 32 +
    type.toNat * 8 + r0.toNat)

/-- A word of bits 15:4 and 3:0 (F-TRAP). -/
def wordC4 (hi : BitVec 12) (vector : BitVec 4) : Half := BitVec.ofNat 16 (hi.toNat * 16 + vector.toNat)

/-- F-MOVE: the destination's register stands above its mode (30_encoding.md R81). -/
def encodeMove (size : BitVec 4) (src dst : Ea) : Half :=
  word43333 size (eaReg dst) (eaMode dst) (eaMode src) (eaReg src)

/-- F-REG-OPMODE-EA, F-QUICK and F-EA: a register or fixed field, an opmode, an effective address. -/
def encodeEa (line : BitVec 4) (r9 opmode : BitVec 3) (e : Ea) : Half :=
  word43333 line r9 opmode (eaMode e) (eaReg e)

/-- The immediate bit of a count operand: 0 count, 1 register (30_encoding.md R81). -/
def countIr : ShiftCount → BitVec 1
  | .imm _ => 0#1
  | .reg _ => 1#1

/-- Bits 11:9 of a count operand (30_encoding.md R81). -/
def countField : ShiftCount → BitVec 3
  | .imm q => q
  | .reg n => n

/-- F-SHIFT-REG (30_encoding.md R81). -/
def encodeShiftReg (dir : BitVec 1) (size type : BitVec 2) (c : ShiftCount) (dn : RegNum) : Half :=
  word4312123 0xE#4 (countField c) dir size (countIr c) type dn

/-- F-SHIFT-MEM, `kind` being bits 11:8 (30_encoding.md R81). -/
def encodeShiftMem (kind : BitVec 4) (e : Ea) : Half := word44233 0xE#4 kind 3#2 (eaMode e) (eaReg e)

/-- The opcode word of an instruction (30_encoding.md R81, R104). -/
def encode : Instr → Half
  | .moveB src dst => encodeMove 1#4 src dst
  | .moveL src dst => encodeMove 2#4 src dst
  | .moveW src dst => encodeMove 3#4 src dst
  | .moveaL src an => encodeMove 2#4 src (.an an)
  | .moveaW src an => encodeMove 3#4 src (.an an)
  | .moveq dn data => word4318 7#4 dn 0#1 data
  | .moveFromSr dst => encodeEa 4#4 0#3 3#3 dst
  | .moveToSr src => encodeEa 4#4 3#3 3#3 src
  | .addBEaDn src dn => encodeEa 0xD#4 dn 0#3 src
  | .addWEaDn src dn => encodeEa 0xD#4 dn 1#3 src
  | .addLEaDn src dn => encodeEa 0xD#4 dn 2#3 src
  | .addBDnEa dn dst => encodeEa 0xD#4 dn 4#3 dst
  | .addWDnEa dn dst => encodeEa 0xD#4 dn 5#3 dst
  | .addLDnEa dn dst => encodeEa 0xD#4 dn 6#3 dst
  | .subBEaDn src dn => encodeEa 9#4 dn 0#3 src
  | .subWEaDn src dn => encodeEa 9#4 dn 1#3 src
  | .subLEaDn src dn => encodeEa 9#4 dn 2#3 src
  | .subBDnEa dn dst => encodeEa 9#4 dn 4#3 dst
  | .subWDnEa dn dst => encodeEa 9#4 dn 5#3 dst
  | .subLDnEa dn dst => encodeEa 9#4 dn 6#3 dst
  | .cmpB src dn => encodeEa 0xB#4 dn 0#3 src
  | .cmpW src dn => encodeEa 0xB#4 dn 1#3 src
  | .cmpL src dn => encodeEa 0xB#4 dn 2#3 src
  | .addqB q dst => encodeEa 5#4 q 0#3 dst
  | .addqW q dst => encodeEa 5#4 q 1#3 dst
  | .addqL q dst => encodeEa 5#4 q 2#3 dst
  | .scc cond dst => word44233 5#4 (condCode cond) 3#2 (eaMode dst) (eaReg dst)
  | .dbcc cond dn => word44233 5#4 (condCode cond) 3#2 1#3 dn
  | .bra disp8 => word448 6#4 0#4 disp8
  | .bsr disp8 => word448 6#4 1#4 disp8
  | .bcc cond disp8 => word448 6#4 (condCode cond) disp8
  | .jmp dst => encodeEa 4#4 7#3 3#3 dst
  | .jsr dst => encodeEa 4#4 7#3 2#3 dst
  | .rts => 0x4E75#16
  | .rte => 0x4E73#16
  | .asrB c dn => encodeShiftReg 0#1 0#2 0#2 c dn
  | .asrW c dn => encodeShiftReg 0#1 1#2 0#2 c dn
  | .asrL c dn => encodeShiftReg 0#1 2#2 0#2 c dn
  | .lsrB c dn => encodeShiftReg 0#1 0#2 1#2 c dn
  | .lsrW c dn => encodeShiftReg 0#1 1#2 1#2 c dn
  | .lsrL c dn => encodeShiftReg 0#1 2#2 1#2 c dn
  | .lslB c dn => encodeShiftReg 1#1 0#2 1#2 c dn
  | .lslW c dn => encodeShiftReg 1#1 1#2 1#2 c dn
  | .lslL c dn => encodeShiftReg 1#1 2#2 1#2 c dn
  | .rorB c dn => encodeShiftReg 0#1 0#2 3#2 c dn
  | .rorW c dn => encodeShiftReg 0#1 1#2 3#2 c dn
  | .rorL c dn => encodeShiftReg 0#1 2#2 3#2 c dn
  | .rolB c dn => encodeShiftReg 1#1 0#2 3#2 c dn
  | .rolW c dn => encodeShiftReg 1#1 1#2 3#2 c dn
  | .rolL c dn => encodeShiftReg 1#1 2#2 3#2 c dn
  | .asrMem dst => encodeShiftMem 0#4 dst
  | .lsrMem dst => encodeShiftMem 2#4 dst
  | .lslMem dst => encodeShiftMem 3#4 dst
  | .rorMem dst => encodeShiftMem 6#4 dst
  | .rolMem dst => encodeShiftMem 7#4 dst
  | .bsetDyn dn dst => encodeEa 0#4 dn 7#3 dst
  | .bclrDyn dn dst => encodeEa 0#4 dn 6#3 dst
  | .bsetStatic dst => encodeEa 0#4 4#3 3#3 dst
  | .bclrStatic dst => encodeEa 0#4 4#3 2#3 dst
  | .trap vector => wordC4 0x4E4#12 vector

/-! ### Lengths -/

/-- The bytes of extension words an operand of this mode takes (30_encoding.md R91). -/
def eaExtensionSize (e : Ea) (sz : Size) : Nat :=
  match e with
  | .dn _ => 0
  | .an _ => 0
  | .mem (.ind _) => 0
  | .mem (.postInc _) => 0
  | .mem (.preDec _) => 0
  | .mem (.disp _) => 2
  | .mem (.index _) => 2
  | .mem .absW => 2
  | .mem .absL => 4
  | .mem .pcDisp => 2
  | .mem .pcIndex => 2
  | .imm =>
    match sz with
    | .b => 2
    | .w => 2
    | .l => 4

/-- The own extension bytes of a branch: a displacement word exactly where the 8-bit field is 0 (30_encoding.md R96). -/
def branchExtensionSize (disp8 : BitVec 8) : Nat := if disp8 = 0#8 then 2 else 0

/-- The operand size of BSET and BCLR: L on a data register, else B (45_bit_manipulation.md R230). -/
def bitSize : Ea → Size
  | .dn _ => .l
  | _ => .b

/-- The length of an instruction in bytes, a function of its opcode word alone (30_encoding.md R80). A TRAP slot
word has no operand of its own. -/
def instrLength : Instr → Nat
  | .moveB src dst => 2 + eaExtensionSize src .b + eaExtensionSize dst .b
  | .moveL src dst => 2 + eaExtensionSize src .l + eaExtensionSize dst .l
  | .moveW src dst => 2 + eaExtensionSize src .w + eaExtensionSize dst .w
  | .moveaL src _ => 2 + eaExtensionSize src .l
  | .moveaW src _ => 2 + eaExtensionSize src .w
  | .moveq _ _ => 2
  | .moveFromSr dst => 2 + eaExtensionSize dst .w
  | .moveToSr src => 2 + eaExtensionSize src .w
  | .addBEaDn src _ => 2 + eaExtensionSize src .b
  | .addWEaDn src _ => 2 + eaExtensionSize src .w
  | .addLEaDn src _ => 2 + eaExtensionSize src .l
  | .addBDnEa _ dst => 2 + eaExtensionSize dst .b
  | .addWDnEa _ dst => 2 + eaExtensionSize dst .w
  | .addLDnEa _ dst => 2 + eaExtensionSize dst .l
  | .subBEaDn src _ => 2 + eaExtensionSize src .b
  | .subWEaDn src _ => 2 + eaExtensionSize src .w
  | .subLEaDn src _ => 2 + eaExtensionSize src .l
  | .subBDnEa _ dst => 2 + eaExtensionSize dst .b
  | .subWDnEa _ dst => 2 + eaExtensionSize dst .w
  | .subLDnEa _ dst => 2 + eaExtensionSize dst .l
  | .cmpB src _ => 2 + eaExtensionSize src .b
  | .cmpW src _ => 2 + eaExtensionSize src .w
  | .cmpL src _ => 2 + eaExtensionSize src .l
  | .addqB _ dst => 2 + eaExtensionSize dst .b
  | .addqW _ dst => 2 + eaExtensionSize dst .w
  | .addqL _ dst => 2 + eaExtensionSize dst .l
  | .scc _ dst => 2 + eaExtensionSize dst .b
  | .dbcc _ _ => 4
  | .bra disp8 => 2 + branchExtensionSize disp8
  | .bsr disp8 => 2 + branchExtensionSize disp8
  | .bcc _ disp8 => 2 + branchExtensionSize disp8
  | .jmp dst => 2 + eaExtensionSize dst .l
  | .jsr dst => 2 + eaExtensionSize dst .l
  | .rts => 2
  | .rte => 2
  | .asrB _ _ => 2
  | .asrW _ _ => 2
  | .asrL _ _ => 2
  | .lsrB _ _ => 2
  | .lsrW _ _ => 2
  | .lsrL _ _ => 2
  | .lslB _ _ => 2
  | .lslW _ _ => 2
  | .lslL _ _ => 2
  | .rorB _ _ => 2
  | .rorW _ _ => 2
  | .rorL _ _ => 2
  | .rolB _ _ => 2
  | .rolW _ _ => 2
  | .rolL _ _ => 2
  | .asrMem dst => 2 + eaExtensionSize dst .w
  | .lsrMem dst => 2 + eaExtensionSize dst .w
  | .lslMem dst => 2 + eaExtensionSize dst .w
  | .rorMem dst => 2 + eaExtensionSize dst .w
  | .rolMem dst => 2 + eaExtensionSize dst .w
  | .bsetDyn _ dst => 2 + eaExtensionSize dst (bitSize dst)
  | .bclrDyn _ dst => 2 + eaExtensionSize dst (bitSize dst)
  | .bsetStatic dst => 4 + eaExtensionSize dst (bitSize dst)
  | .bclrStatic dst => 4 + eaExtensionSize dst (bitSize dst)
  | .trap _ => 2

end Sys2Proof
end

