-- ==== Sys2Proof/Machine/Numeric.lean ====
section
/-! DEFINITION. The size policies and the ALU micro-ops of 40_datapath.md (R120 to R129): total functions on words. -/

namespace Sys2Proof.Machine

/-! ### Size policies -/

/-- `value_bit(sz)` (R120). -/
def bits : Size → Nat
  | .b => 8
  | .w => 16
  | .l => 32

/-- `value_mask(sz)` (R120). -/
def mask : Size → Word
  | .b => 0xFF#32
  | .w => 0xFFFF#32
  | .l => 0xFFFFFFFF#32

/-- `aligned_value_size(sz)`: byte aligns to 2 (R120). -/
def alignedSize : Size → Nat
  | .b => 2
  | .w => 2
  | .l => 4

/-- `bytes(sz)`, an operand's size in bytes (41_addressing_modes.md, section 2). -/
def bytes : Size → Nat
  | .b => 1
  | .w => 2
  | .l => 4

/-- `sext_8(v)`: the low byte, sign-extended (00_scope.md R11). -/
def sext8 (v : Word) : Word := (v.setWidth 8).signExtend 32

/-- `sext_16(v)`: the low word, sign-extended (00_scope.md R11). -/
def sext16 (v : Word) : Word := (v.setWidth 16).signExtend 32

/-- `sext_bits(sz)(v)` (00_scope.md R11). -/
def sext (sz : Size) (v : Word) : Word :=
  match sz with
  | .b => sext8 v
  | .w => sext16 v
  | .l => v

/-- `svalue(sz, u)`: the integer of the low `bits(sz)` bits in two's complement (R121); its input is masked. -/
def svalue (sz : Size) (u : Word) : Int := (sext sz u).toInt

/-- `uvalue(sz, v)` of an integer: its low `bits(sz)` bits (R122). -/
def uvalue (sz : Size) (v : Int) : Word := BitVec.ofInt 32 v &&& mask sz

/-- `get(sz, word)` on a register word (R124). -/
def getSized (sz : Size) (word : Word) : Word := word &&& mask sz

/-- `put(sz, word, v)` on a register word: the bits above the size are kept (R123). -/
def putSized (sz : Size) (word v : Word) : Word := (word &&& ~~~ mask sz) ||| (v &&& mask sz)

/-- `msb(sz, v)` (00_scope.md R11). -/
def msb (sz : Size) (v : Word) : Bool := v.getLsbD (bits sz - 1)

/-! ### ALU micro-ops -/

/-- `add(sz, d, s)` (R125). -/
def add (sz : Size) (d s : Word) : Word := (d + s) &&& mask sz

/-- `sub(sz, d, s)`: destination minus source (R126). -/
def sub (sz : Size) (d s : Word) : Word := (d - s) &&& mask sz

/-- `lsl(sz, v, c)` (R127). -/
def lsl (sz : Size) (v : Word) (c : Nat) : Word := if bits sz ≤ c then 0 else (v <<< c) &&& mask sz

/-- `lsr(sz, v, c)` (R127). -/
def lsr (sz : Size) (v : Word) (c : Nat) : Word := if bits sz ≤ c then 0 else v >>> c

/-- `asr(sz, v, c)` (R127). -/
def asr (sz : Size) (v : Word) (c : Nat) : Word := (sext sz v).sshiftRight (min c (bits sz - 1)) &&& mask sz

/-- `rol(sz, v, c)` (R128). -/
def rol (sz : Size) (v : Word) (c : Nat) : Word :=
  let k := c % bits sz
  if k = 0 then v else ((v <<< k) ||| (v >>> (bits sz - k))) &&& mask sz

/-- `ror(sz, v, c)` (R128). -/
def ror (sz : Size) (v : Word) (c : Nat) : Word :=
  let k := c % bits sz
  if k = 0 then v else ((v >>> k) ||| (v <<< (bits sz - k))) &&& mask sz

/-- `bset(v, k)` (R129). -/
def bset (v : Word) (k : Nat) : Word := v ||| (1#32 <<< k)

/-- `bclr(v, k)` (R129). -/
def bclr (v : Word) (k : Nat) : Word := v &&& ~~~ (1#32 <<< k)

end Sys2Proof.Machine
end

