-- ==== Sys2Proof/Machine/Types.lean ====
section
/-! DEFINITION. The small data types the state is made of: function codes, condition-code records,
requests to the address space, its regions, and what the host and its collaborators may do. -/

namespace Sys2Proof.Machine

/-- The four function codes a request carries (20_memory.md R51). -/
inductive FunctionCode where
  | userData | userProgram | supervisorData | supervisorProgram
  deriving DecidableEq, Repr, Inhabited

/-- `access_kind` of a BusError (20_memory.md R61): an instruction fetch is a `read`. -/
inductive AccessKind where
  | read | write
  deriving DecidableEq, Repr, Inhabited

/-- The evaluator strategies (40_datapath.md R130). -/
inductive Strategy where
  | generic | add | sub | shiftAsr | shiftLsr | shiftLsl | literal
  deriving DecidableEq, Repr, Inhabited

/-- A condition-code record `(strategy, size, op0, op1, op2)` (10_state.md R27). -/
structure CcRecord where
  strategy : Strategy
  size : Size
  op0 : Word
  op1 : Word
  op2 : Word
  deriving DecidableEq, Repr, Inhabited

/-- The five flags, materialized (40_datapath.md R144). -/
structure Flags where
  x : Bool
  n : Bool
  z : Bool
  v : Bool
  c : Bool
  deriving DecidableEq, Repr

/-- A request to the address space: `get_byte/word/long` and `put_byte/word/long` by the size
(20_memory.md R50), with its function code. -/
inductive Request where
  | get (fc : FunctionCode) (addr : Word) (size : Size)
  | put (fc : FunctionCode) (addr : Word) (size : Size) (value : Word)
  deriving DecidableEq, Repr

/-- A range `base ≤ p < base + size` of decoded addresses that the address space treats apart from
plain memory: a read with a code of `denyRead`, or a write with one of `denyWrite`, raises BusError
(20_memory.md R61: write-protected, data-only); where `oracle` holds, a read is answered by the
outside world and not by what was written (R60, R65). -/
structure Region where
  base : Nat
  size : Nat
  denyRead : List FunctionCode
  denyWrite : List FunctionCode
  oracle : Bool
  deriving DecidableEq, Repr

/-- How a step can end other than by `Continue` (60_exceptions.md R270 to R274), with the information
the spec records. -/
inductive Stop where
  | illegalInstruction (op : Half) (pc : Word)
  | privilegeViolation (op : Half) (pc : Word)
  | busError (address : Word) (fc : FunctionCode) (kind : AccessKind)
  | exit (status : Int)
  deriving DecidableEq, Repr, Inhabited

/-- One installation `set_instruction(base, mask, handler, aux)` of a collaborator's handler, named by
its number (30_encoding.md R82; the aux word is 64 bits wide, 10_state.md R31). -/
structure Installation where
  base : Half
  mask : Half
  handler : Nat
  aux : BitVec 64
  deriving DecidableEq, Repr

/-- One access to the context by the host between steps (60_exceptions.md R290) or by a collaborator's
handler within its step (47_system_control.md R262). A request that raises BusError here is one the
caller caught: it has no effect (R61, R283). -/
inductive HostAction where
  | setD (n : RegNum) (v : Word)
  | setA (n : RegNum) (v : Word)
  | setPc (v : Word)
  | setSupervisorState (b : Bool)
  | setSr (v : Half)
  | setCc (r : CcRecord)
  | setXsrc (r : CcRecord)
  | setUspShadow (v : Word)
  | setSspShadow (v : Word)
  | setIrqPending (b : Bool)
  | get (fc : FunctionCode) (addr : Word) (size : Size)
  | put (fc : FunctionCode) (addr : Word) (size : Size) (value : Word)
  | fetch (off : Nat) (size : Size)
  deriving DecidableEq, Repr

/-- What the host or a handler reads of a context: its registers, both stack pointers, the mode, the flags and the
interrupt-pending flag (47_system_control.md R262, 60_exceptions.md R290). The flags stand for their records (10_state.md
R34), the two stack pointers for the live register and the shadow slot that is not stale (R23). -/
structure ContextView where
  d : Vector Word 8
  a : Vector Word 8
  usp : Word
  ssp : Word
  pc : Word
  sup : Bool
  flags : Flags
  irqPending : Bool
  deriving DecidableEq, Repr

/-- What a collaborator's handler does in one call: it returns `Continue` (none) or one of the four other outcomes; or it
reads the context and goes on by what it saw; or it makes an access and goes on by the answer: the value of a read, none
where the request raised BusError (47_system_control.md R262). -/
inductive CollabProgram where
  | ret (outcome : Option Stop)
  | look (next : ContextView → CollabProgram)
  | act (a : HostAction) (next : Option Word → CollabProgram)
  deriving Inhabited

/-- The record of one call of a handler, as plain data: its accesses in order, and how it returned. Whatever the handler
read to choose them, one call makes one such record (47_system_control.md R262). -/
structure CollabResponse where
  actions : List HostAction
  outcome : Option Stop
  deriving DecidableEq, Repr, Inhabited

/-- The kinds of fault that `EXIT_STATUS` maps to a number (60_exceptions.md R278, R280). -/
inductive FaultKind where
  | illegalInstruction | privilegeViolation | busError
  deriving DecidableEq, Repr

end Sys2Proof.Machine
end

