-- ==== Sys2Proof/Config.lean ====
section
/-! DEFINITION. What the spec leaves to an implementation or leaves unspecified: constants with no body,
so that no proof can rest on a value of theirs. -/

namespace Sys2Proof.Config

open Sys2Proof.Machine

/-- The five-bit draws of `set_cc_unspecified` (40_datapath.md R137), one fresh draw for each count of
`State.draws`. A free value: log entry 11. -/
opaque freeFlags : Nat → BitVec 5

/-- The answer of the outside world to a read of an oracle window (20_memory.md R65), one for each count
of `State.draws`. A free value: log entry 10. -/
opaque freeRead : Nat → Word

/-- What a collaborator's handler does in a call the host has not scripted: the parameter COLLAB (00_scope.md R8,
47_system_control.md R262), by handler number, opcode word, aux word and draw. The program reads the context and the
answers to its requests as it goes. A free value: log entry 15. -/
opaque collab : Nat → Half → BitVec 64 → Nat → CollabProgram

/-- The parameter EXIT_STATUS (60_exceptions.md R280): the exit status `run` returns for each kind of
fault. A constant of the implementation: log entry 23. -/
opaque exitStatus : FaultKind → Int

/-- The parameter PCREL_FC (00_scope.md R8): whether the operand reads of the PC-relative modes carry the
program function code; decided `program` (92_eei_decisions.md D5). -/
def pcrelProgram : Bool := true

end Sys2Proof.Config
end

