-- ==== Sys2Proof/Machine/State.lean ====
section
/-! DEFINITION. The state of one context with its dispatch table and its address space (10_state.md R20, R31), the
state at reset, and the reasons a step can stop. -/

namespace Sys2Proof.Machine

/-- One context (10_state.md R20), the dispatch table's installations (R31) and the address space (20_memory.md R50).
`data_fc`, `program_fc` (R28) and the status word (40_datapath.md R145) are derived, not stored. -/
structure State where
  /-- D[0] to D[7] (R21). -/
  d : Vector Word 8
  /-- A[0] to A[7]; A[7] is the live stack pointer (R22, R23). -/
  a : Vector Word 8
  /-- `usp_shadow`: the user stack pointer while S = 1, else stale (R23). -/
  uspShadow : Word
  /-- `ssp_shadow`: the supervisor stack pointer while S = 0, else stale (R23). -/
  sspShadow : Word
  /-- The address of the opcode word during a step (R25). -/
  pc : Word
  /-- S: true supervisor, false user (R26). -/
  sup : Bool
  /-- The record N, Z, V and C are computed from (R27). -/
  cc : CcRecord
  /-- The record X is computed from (R27). -/
  xsrc : CcRecord
  /-- `irq_pending`: no rule reads it (R29). -/
  irqPending : Bool
  /-- The collaborators' installations over the base table, newest first (R31, 30_encoding.md R82). -/
  installed : List Installation
  /-- The bytes of memory, in the canonical form of `memoryWf`. -/
  mem : List Host.Cell
  /-- The ranges of the address space that are not plain memory (20_memory.md R61, R65). -/
  regions : List Region
  /-- SPACE_DECODE_BITS: how many low address bits the address space decodes (20_memory.md R55). -/
  decodeBits : Nat
  /-- The model's own: the records of the calls of collaborators' handlers to come that the host has scripted, oldest
  first (47_system_control.md R262). -/
  collabIn : List CollabResponse
  /-- The model's own: how many free values have been drawn (40_datapath.md R137). -/
  draws : Nat
  /-- The model's own: the requests issued to the address space in this step, oldest first (20_memory.md R63). -/
  bus : List Request
  deriving DecidableEq, Repr

/-- Why a step ends without a next state (60_exceptions.md R270). Each carries `left`, the context the step leaves
behind (R276, R279), which a host that drives `step` may go on from (R283). -/
inductive Fault where
  /-- Raised by the Illegal handler, for an opcode word with no row and no installed handler (R271). Safe: the spec
  names this outcome. -/
  | illegalInstruction (op : Half) (pc : Word) (left : State)
  /-- Raised by MOVE to SR and RTE when S = 0 (R272). Safe: the spec names this outcome. -/
  | privilegeViolation (op : Half) (pc : Word) (left : State)
  /-- Raised by any request the address space rejects (R273); `op` is the opcode word of the step where its fetch
  succeeded, `pc` the address the step began at (R279). Safe: the spec names this outcome. -/
  | busError (address : Word) (fc : FunctionCode) (kind : AccessKind) (op : Option Half) (pc : Word) (left : State)
  /-- Returned by a collaborator's handler: `Exit(status)`, the normal end of a run and no error (R274). Safe: the
  spec names this outcome. -/
  | exit (status : Int) (left : State)
  deriving DecidableEq, Repr

/-- Why an instruction is refused. -/
inductive Refusal where
  /-- Raised by an arm of `exec` for an instruction with no meaning yet; no arm does so now. Safe. -/
  | notModelled (mnemonic : String)
  deriving DecidableEq, Repr

/-- The record of five clear flags (40_datapath.md R142). -/
def clearRecord : CcRecord := { strategy := .literal, size := .l, op0 := 0, op1 := 0, op2 := 0 }

/-- The context right after creation: no rule gives a value (10_state.md R36), so every field is the choice of
LAUNCH and SPACE that 95_test_vectors.md section 0 uses (DESIGN CHOICE, unsafe: log entries 1 to 8). -/
def State.reset : State where
  d := Vector.replicate 8 0
  a := Vector.replicate 8 0
  uspShadow := 0
  sspShadow := 0
  pc := 0x1000
  sup := true
  cc := clearRecord
  xsrc := clearRecord
  irqPending := false
  installed := []
  mem := []
  regions := []
  decodeBits := 32
  collabIn := []
  draws := 0
  bus := []

end Sys2Proof.Machine
end

