-- ==== Sys2Proof/Machine/Ops.lean ====
section
/-! DEFINITION. The named operations over registers, memory and the address-space port, what a meaning is
(`Exec`), how a fault is taken and how a step's result is read from a meaning. -/

namespace Sys2Proof.Machine

/-! ### Memory as a canonical list of bytes -/

/-- What an address that is not listed reads as (DESIGN CHOICE, unsafe: log entry 7). -/
def memoryDefault : Byte := 0#8

/-- The byte at a decoded address. -/
def memoryRead : List Host.Cell → Nat → Byte
  | [], _ => memoryDefault
  | (k, b) :: m, p => if k = p then b else memoryRead m p

/-- Writes one byte and keeps the canonical form: a byte equal to what an unlisted address reads as is not listed. -/
def memoryWrite : List Host.Cell → Nat → Byte → List Host.Cell
  | [], p, v => if v = memoryDefault then [] else [(p, v)]
  | (k, b) :: m, p, v =>
    if p < k then (if v = memoryDefault then (k, b) :: m else (p, v) :: (k, b) :: m)
    else if p = k then (if v = memoryDefault then m else (k, v) :: m)
    else (k, b) :: memoryWrite m p v

/-- Addresses strictly rising from `lo`, below 2^32, and no byte equal to what an unlisted address reads as. -/
def memoryWfFrom : Nat → List Host.Cell → Bool
  | _, [] => true
  | lo, (k, b) :: m => decide (lo ≤ k) && decide (k < 2 ^ 32) && b != memoryDefault && memoryWfFrom (k + 1) m

/-- The canonical form of memory. -/
def memoryWf (m : List Host.Cell) : Bool := memoryWfFrom 0 m

/-! ### Registers -/

/-- `D[n]` (10_state.md R21). -/
def State.dreg (s : State) (n : RegNum) : Word := s.d[n.toNat]'(by have := n.isLt; omega)

/-- `A[n]` (10_state.md R22). -/
def State.areg (s : State) (n : RegNum) : Word := s.a[n.toNat]'(by have := n.isLt; omega)

/-- `D[n] <- v` (10_state.md R21). -/
def State.writeD (n : RegNum) (v : Word) (s : State) : State :=
  { s with d := s.d.set n.toNat v (by have := n.isLt; omega) }

/-- `A[n] <- v`: all 32 bits (10_state.md R22). -/
def State.writeA (n : RegNum) (v : Word) (s : State) : State :=
  { s with a := s.a.set n.toNat v (by have := n.isLt; omega) }

/-- The active stack pointer is A[7] (10_state.md R22). -/
def spReg : RegNum := 7#3

/-- `R[k]`: `D[k]` for k < 8, `A[k-8]` for k ≥ 8 (00_scope.md R12). -/
def State.rreg (s : State) (k : BitVec 4) : Word :=
  if k.getLsbD 3 then s.areg (k.setWidth 3) else s.dreg (k.setWidth 3)

/-- `pc <- v` (10_state.md R25). -/
def State.withPc (v : Word) (s : State) : State := { s with pc := v }

/-- Replaces the record `cc` (10_state.md R27). -/
def State.withCc (r : CcRecord) (s : State) : State := { s with cc := r }

/-- Replaces the record `xsrc` (10_state.md R27). -/
def State.withXsrc (r : CcRecord) (s : State) : State := { s with xsrc := r }

/-- Replaces `usp_shadow` (10_state.md R23). -/
def State.withUspShadow (v : Word) (s : State) : State := { s with uspShadow := v }

/-- Replaces `ssp_shadow` (10_state.md R23). -/
def State.withSspShadow (v : Word) (s : State) : State := { s with sspShadow := v }

/-- Replaces S alone; `setSupervisorState` is what writes S with its stack pointers. -/
def State.withSup (b : Bool) (s : State) : State := { s with sup := b }

/-- Replaces `irq_pending` (10_state.md R29). -/
def State.withIrqPending (b : Bool) (s : State) : State := { s with irqPending := b }

/-- Replaces the memory's list. -/
def State.withMem (m : List Host.Cell) (s : State) : State := { s with mem := m }

/-- Replaces the count of free values drawn. -/
def State.withDraws (k : Nat) (s : State) : State := { s with draws := k }

/-- Replaces the record of requests. -/
def State.withBus (b : List Request) (s : State) : State := { s with bus := b }

/-- Replaces the collaborators' answers to come. -/
def State.withCollabIn (c : List CollabResponse) (s : State) : State := { s with collabIn := c }

/-- Replaces the installations. -/
def State.withInstalled (i : List Installation) (s : State) : State := { s with installed := i }

/-! ### Mode, stack pointers and function codes -/

/-- `set_supervisor_state(b)` (10_state.md R24): a change of S puts the live stack pointer into its shadow slot and
the other one into A[7]. -/
def State.setSupervisorState (b : Bool) (s : State) : State :=
  if b = s.sup then s
  else if s.sup then ((s.withSspShadow (s.areg spReg)).writeA spReg s.uspShadow).withSup b
  else ((s.withUspShadow (s.areg spReg)).writeA spReg s.sspShadow).withSup b

/-- `USP()` (10_state.md R23). -/
def State.usp (s : State) : Word := if s.sup then s.uspShadow else s.areg spReg

/-- `SSP()` (10_state.md R23). -/
def State.ssp (s : State) : Word := if s.sup then s.areg spReg else s.sspShadow

/-- `data_fc` (10_state.md R28). -/
def State.dataFc (s : State) : FunctionCode := if s.sup then .supervisorData else .userData

/-- `program_fc` (10_state.md R28). -/
def State.programFc (s : State) : FunctionCode := if s.sup then .supervisorProgram else .userProgram

/-- `PCREL_FC`, the code of PC-relative operand reads (20_memory.md R52). -/
def State.pcrelFc (s : State) : FunctionCode := if Config.pcrelProgram then s.programFc else s.dataFc

/-- The mc68000's FC2..FC0 of a function code, for diagnostics only (20_memory.md R51). -/
def fcPins : FunctionCode → Nat
  | .userData => 1
  | .userProgram => 2
  | .supervisorData => 5
  | .supervisorProgram => 6

/-! ### The address space -/

/-- The address the address space decodes: the low `decodeBits` of the 32 bits passed (20_memory.md R55). -/
def State.decodeAddr (s : State) (a : Word) : Nat := a.toNat % 2 ^ s.decodeBits

/-- The address of byte `k` of a request, modulo 2^32 (20_memory.md R53, R54). -/
def byteAddr (a : Word) (k : Nat) : Word := a + BitVec.ofNat 32 k

/-- The decoded addresses of the bytes of a request. -/
def State.touched (s : State) (a : Word) (sz : Size) : List Nat :=
  (List.range (bytes sz)).map fun k => s.decodeAddr (byteAddr a k)

/-- Whether a region covers a decoded address. -/
def covers (r : Region) (p : Nat) : Bool := decide (r.base ≤ p) && decide (p < r.base + r.size)

/-- Whether a region rejects a request of this function code and kind (20_memory.md R61). -/
def denies (r : Region) (fc : FunctionCode) : AccessKind → Bool
  | .read => r.denyRead.contains fc
  | .write => r.denyWrite.contains fc

/-- Whether the address space accepts a request: no byte of it lies in a region that rejects it (20_memory.md R61;
log entry 9). -/
def State.granted (s : State) (fc : FunctionCode) (kind : AccessKind) (a : Word) (sz : Size) : Bool :=
  (s.touched a sz).all fun p => s.regions.all fun r => !(covers r p && denies r fc kind)

/-- Whether a read is answered by the outside world: some byte of it lies in an oracle window (20_memory.md R65;
log entry 10). -/
def State.isOracle (s : State) (a : Word) (sz : Size) : Bool :=
  (s.touched a sz).any fun p => s.regions.any fun r => covers r p && r.oracle

/-- The byte of memory at an address. -/
def State.peek (s : State) (a : Word) : Byte := memoryRead s.mem (s.decodeAddr a)

/-- The value of bytes in memory order, the first the most significant (20_memory.md R53). -/
def beValue : List Byte → Nat
  | [] => 0
  | b :: bs => b.toNat * 256 ^ bs.length + beValue bs

/-- The operand-sized value at an address, big-endian and zero-extended (20_memory.md R53). -/
def State.load (s : State) (a : Word) (sz : Size) : Word :=
  BitVec.ofNat 32 (beValue ((List.range (bytes sz)).map fun k => s.peek (byteAddr a k)))

/-- Byte `k` of an operand-sized value in memory order: 0 is the most significant (20_memory.md R53). -/
def beByte (sz : Size) (v : Word) (k : Nat) : Byte := v.extractLsb' (8 * (bytes sz - 1 - k)) 8

/-- Writes one byte of memory. -/
def State.poke (s : State) (a : Word) (v : Byte) : State := s.withMem (memoryWrite s.mem (s.decodeAddr a) v)

/-- Writes the bytes `k`, `k + 1`, … of a value, `n` of them. -/
def State.storeFrom (a : Word) (sz : Size) (v : Word) : Nat → Nat → State → State
  | 0, _, s => s
  | n + 1, k, s => State.storeFrom a sz v n (k + 1) (s.poke (byteAddr a k) (beByte sz v k))

/-- Writes the low `bits(sz)` bits of a value at an address, big-endian (20_memory.md R50, R53). -/
def State.store (s : State) (a : Word) (sz : Size) (v : Word) : State := State.storeFrom a sz v (bytes sz) 0 s

/-- Records a request issued to the address space (20_memory.md R63). -/
def State.logRequest (r : Request) (s : State) : State := s.withBus (s.bus ++ [r])

/-! ### Meanings -/

/-- A meaning: it goes on with a value and a state, or ends the step with an outcome other than `Continue` and the
state left at that point, so that the writes made before stay (00_scope.md R14). -/
abbrev Exec := EStateM Stop State

/-- A value computed from the state. -/
def reads {α : Type} (f : State → α) : Exec α := fun s => .ok (f s) s

/-- A change of the state that cannot fail. -/
def modifies (f : State → State) : Exec Unit := fun s => .ok () (f s)

/-- `raise E(info)` (00_scope.md R14): the one way a fault is taken. No fault is vectored: nothing is pushed, no
vector is read, S, A[7] and pc stay (60_exceptions.md R275). -/
def raise {α : Type} (e : Stop) : Exec α := fun s => .error e s

/-- The fault a step ends with: the outcome, the opcode word where its fetch succeeded, the pc the step began at and the
context left behind (60_exceptions.md R270, R276, R279). -/
def faultOf (op : Option Half) (pc : Word) (left : State) : Stop → Fault
  | .illegalInstruction o p => .illegalInstruction o p left
  | .privilegeViolation o p => .privilegeViolation o p left
  | .busError a fc kind => .busError a fc kind op pc left
  | .exit status => .exit status left

/-- The outcome of a step that began at `pc`, from the result of a meaning (60_exceptions.md R270). -/
def outcomeOf (op : Option Half) (pc : Word) : EStateM.Result Stop State Unit → Host.Outcome State Fault Refusal
  | .ok _ t => .next t
  | .error e t => .fault (faultOf op pc t e)

/-- A base handler: executes its rule on the instruction's opcode word (30_encoding.md R86). A term that is not
well-formed stands for a word outside its row's category, which is illegal (R105; log entry 19). -/
def runBase (i : Instr) (body : Exec Unit) (s : State) : Host.Outcome State Fault Refusal :=
  if i.wf then outcomeOf (some (encode i)) s.pc (body s)
  else .fault (.illegalInstruction (encode i) s.pc s)

/-- The check of a privileged instruction: PrivilegeViolation where S = 0 (60_exceptions.md R272). -/
def requireSupervisor (op : Half) : Exec Unit := fun s =>
  if s.sup then .ok () s else .error (.privilegeViolation op s.pc) s

/-! ### Requests -/

/-- `MemRead(fc, addr, n)` (00_scope.md R13, 20_memory.md R50): one request, answered with the value or BusError
(R61). In an oracle window the value is free (R65). -/
def memRead (fc : FunctionCode) (a : Word) (sz : Size) : Exec Word := fun s =>
  let t := s.logRequest (.get fc a sz)
  if s.granted fc .read a sz then
    if s.isOracle a sz then .ok (getSized sz (Config.freeRead s.draws)) (t.withDraws (s.draws + 1))
    else .ok (s.load a sz) t
  else .error (.busError a fc .read) t

/-- `MemWrite(fc, addr, n, v)` (00_scope.md R13, 20_memory.md R50): one request; a rejected one writes nothing
(R61). -/
def memWrite (fc : FunctionCode) (a : Word) (sz : Size) (v : Word) : Exec Unit := fun s =>
  let t := s.logRequest (.put fc a sz (getSized sz v))
  if s.granted fc .write a sz then .ok () (t.store a sz v)
  else .error (.busError a fc .write) t

/-- What a fetch of a size requests: a word or a long word; a byte-size fetch is a word fetch (20_memory.md R56, D32 of
92_eei_decisions.md). -/
def fetchSize : Size → Size
  | .b => .w
  | .w => .w
  | .l => .l

/-- `Fetch(off, n)`: a read with the program function code at the pc plus `off`, of a word or a long word, delivered whole;
who fetches a byte uses its low 8 bits (20_memory.md R56). In an instruction the pc is the opcode's address (10_state.md
R25); a handler that has written the pc fetches from the new one (DESIGN CHOICE: log entry 32). -/
def fetch (off : Nat) (sz : Size) : Exec Word := fun s =>
  memRead s.programFc (s.pc + BitVec.ofNat 32 off) (fetchSize sz) s

/-- `pc <- pc + n` at the end of an instruction that does not transfer control (30_encoding.md R87). -/
def advance (n : Nat) : Exec Unit := modifies fun s => s.withPc (s.pc + BitVec.ofNat 32 n)

/-- The push of a return address: the write first, A[7] only after it succeeds (46_program_control.md R242). -/
def pushLong (v : Word) : Exec Unit := do
  let sp ← reads fun s => s.areg spReg - 4#32
  let fc ← reads State.dataFc
  memWrite fc sp .l v
  modifies (State.writeA spReg sp)

/-- The pop of a return address: the read first, then A[7] (46_program_control.md R248). -/
def popLong : Exec Word := do
  let sp ← reads fun s => s.areg spReg
  let fc ← reads State.dataFc
  let v ← memRead fc sp .l
  modifies (State.writeA spReg (sp + 4#32))
  pure v

/-- The pop of RTE's frame: the status word at A[7], the return address at A[7] + 2, then A[7] + 6
(47_system_control.md R261). -/
def popFrame : Exec (Word × Word) := do
  let sp ← reads fun s => s.areg spReg
  let fc ← reads State.dataFc
  let nsr ← memRead fc sp .w
  let npc ← memRead fc (sp + 2#32) .l
  modifies (State.writeA spReg (sp + 6#32))
  pure (nsr, npc)

end Sys2Proof.Machine
end

