-- ==== Sys2Proof/Machine/Flags.lean ====
section
/-! DEFINITION. The condition-code evaluator: setters, flag values, status word and condition tests (40_datapath.md
R130 to R150). -/

namespace Sys2Proof.Machine

/-! ### Setters -/

/-- `set_cc(sz, r)` (R132). -/
def setCc (sz : Size) (r : Word) (s : State) : State := s.withCc ⟨.generic, sz, getSized sz r, 0, 0⟩

/-- A setter that affects X: `cc` and `xsrc` get the same record (R131). -/
def setBoth (r : CcRecord) (s : State) : State := (s.withCc r).withXsrc r

/-- `set_cc_as_add(sz, r, d, s)` (R133). -/
def setCcAsAdd (sz : Size) (r d src : Word) (s : State) : State := setBoth ⟨.add, sz, r, d, src⟩ s

/-- `set_cc_sub(sz, r, d, s)` (R134). -/
def setCcSub (sz : Size) (r d src : Word) (s : State) : State := setBoth ⟨.sub, sz, r, d, src⟩ s

/-- `set_cc_cmp(sz, r, d, s)`: X unchanged (R135). -/
def setCcCmp (sz : Size) (r d src : Word) (s : State) : State := s.withCc ⟨.sub, sz, r, d, src⟩

/-- `set_cc_asr/lsr/lsl(sz, r, v, c)`: X unchanged for a count of 0 (R136). -/
def setCcShift (tag : Strategy) (sz : Size) (r v : Word) (c : Nat) (s : State) : State :=
  let rec0 : CcRecord := ⟨tag, sz, r, v, BitVec.ofNat 32 c⟩
  if c = 0 then s.withCc rec0 else setBoth rec0 s

/-- A record of five given flag bits X N Z V C (R130). -/
def literalRecord (b : BitVec 5) : CcRecord := ⟨.literal, .l, b.setWidth 32, 0, 0⟩

/-- `set_cc_unspecified()`: all five flags take a fresh free value (R137; log entry 11). -/
def setCcUnspecified (s : State) : State :=
  (setBoth (literalRecord (Config.freeFlags s.draws)) s).withDraws (s.draws + 1)

/-! ### Flag values -/

/-- N of a record (R138 to R142). -/
def flagN (r : CcRecord) : Bool :=
  match r.strategy with
  | .literal => r.op0.getLsbD 3
  | _ => msb r.size r.op0

/-- Z of a record (R138 to R142). -/
def flagZ (r : CcRecord) : Bool :=
  match r.strategy with
  | .literal => r.op0.getLsbD 2
  | _ => r.op0 == 0#32

/-- V of a record (R138 to R142). -/
def flagV (r : CcRecord) : Bool :=
  let rm := msb r.size r.op0
  let dm := msb r.size r.op1
  let sm := msb r.size r.op2
  match r.strategy with
  | .generic => false
  | .add => dm == sm && rm != dm
  | .sub => dm != sm && rm != dm
  | .shiftAsr => false
  | .shiftLsr => false
  | .shiftLsl => false
  | .literal => r.op0.getLsbD 1

/-- The carry of a shift record: the last bit shifted out (R141). -/
def shiftCarry (tag : Strategy) (n : Nat) (v : Word) (c : Nat) : Bool :=
  if c = 0 then false
  else
    match tag with
    | .shiftLsl => if c ≤ n then v.getLsbD (n - c) else false
    | .shiftLsr => if c ≤ n then v.getLsbD (c - 1) else false
    | _ => if c ≤ n then v.getLsbD (c - 1) else v.getLsbD (n - 1)

/-- C of a record (R138 to R142). -/
def flagC (r : CcRecord) : Bool :=
  match r.strategy with
  | .generic => false
  | .add => decide (2 ^ bits r.size ≤ r.op1.toNat + r.op2.toNat)
  | .sub => decide (r.op1.toNat < r.op2.toNat)
  | .shiftAsr => shiftCarry .shiftAsr (bits r.size) r.op1 r.op2.toNat
  | .shiftLsr => shiftCarry .shiftLsr (bits r.size) r.op1 r.op2.toNat
  | .shiftLsl => shiftCarry .shiftLsl (bits r.size) r.op1 r.op2.toNat
  | .literal => r.op0.getLsbD 0

/-- `Xof(rec)` (R143). -/
def flagX (r : CcRecord) : Bool :=
  match r.strategy with
  | .generic => false
  | .literal => r.op0.getLsbD 4
  | _ => flagC r

/-- `flags()` (R144). -/
def State.flags (s : State) : Flags where
  x := flagX s.xsrc
  n := flagN s.cc
  z := flagZ s.cc
  v := flagV s.cc
  c := flagC s.cc

/-! ### Status word -/

/-- The flags as the bits X N Z V C of a status word (R145). -/
def packFlags (f : Flags) : Nat :=
  f.x.toNat * 16 + f.n.toNat * 8 + f.z.toNat * 4 + f.v.toNat * 2 + f.c.toNat

/-- `sr()`: S in bit 13, the flags in bits 4 to 0, every other bit 0 (R145, 10_state.md R30). -/
def State.sr (s : State) : Half := BitVec.ofNat 16 (s.sup.toNat * 8192 + packFlags s.flags)

/-- `set_sr(v)` (R146): bits 15, 14 and 12 to 5 are ignored. -/
def setSr (v : Half) (s : State) : State :=
  (setBoth (literalRecord (v.setWidth 5)) s).setSupervisorState (v.getLsbD 13)

/-! ### Condition queries -/

/-- `cs()` (R147). -/
def qCs (f : Flags) : Bool := f.c

/-- `eq()` (R147). -/
def qEq (f : Flags) : Bool := f.z

/-- `mi()` (R147). -/
def qMi (f : Flags) : Bool := f.n

/-- `lt()` (R147). -/
def qLt (f : Flags) : Bool := f.n != f.v

/-- `vs()` (R149). -/
def qVs (f : Flags) : Bool := f.v

/-- `ls()` (R148). -/
def qLs (f : Flags) : Bool := qCs f || qEq f

/-- `le()` (R148). -/
def qLe (f : Flags) : Bool := qLt f || qEq f

/-- The sixteen condition tests (R150), the derived queries by negation (R148). -/
def testCond (c : Cond) (f : Flags) : Bool :=
  match c with
  | .t => true
  | .f => false
  | .hi => !qLs f
  | .ls => qLs f
  | .cc => !qCs f
  | .cs => qCs f
  | .ne => !qEq f
  | .eq => qEq f
  | .vc => !qVs f
  | .vs => qVs f
  | .pl => !qMi f
  | .mi => qMi f
  | .ge => !qLt f
  | .lt => qLt f
  | .gt => !qLe f
  | .le => qLe f

/-- `test(cond)`: reads the flags and changes no state (R150, R152). -/
def State.test (s : State) (c : Cond) : Bool := testCond c s.flags

end Sys2Proof.Machine
end

