-- ==== Sys2Proof/Machine/Operands.lean ====
section
/-! DEFINITION. The addressing-mode resolvers (41_addressing_modes.md R160 to R181) and the other operand forms: branch
displacement, quick data, shift count. -/

namespace Sys2Proof.Machine

/-! ### Effective addresses -/

/-- The step of post-increment and pre-decrement: the aligned size on A[7] (R169). -/
def stepSize (sz : Size) (n : RegNum) : Word := BitVec.ofNat 32 (if n = spReg then alignedSize sz else bytes sz)

/-- `index(ext)` of an index extension word: bits 15:12 the register, bit 11 the long index, bits 10:8 ignored
(R172). -/
def indexValue (ext : Word) (s : State) : Word :=
  let x := s.rreg (ext.extractLsb' 12 4)
  if ext.getLsbD 11 then x else sext16 x

/-- `address()` of a memory mode, from its captured extension word and the registers as they stand (R166 to R177). -/
def memAddress (m : MemMode) (sz : Size) (off : Nat) (ext : Word) (s : State) : Word :=
  match m with
  | .ind n => s.areg n
  | .postInc n => s.areg n
  | .preDec n => s.areg n - stepSize sz n
  | .disp n => s.areg n + sext16 ext
  | .index n => s.areg n + sext8 ext + indexValue ext s
  | .absW => sext16 ext
  | .absL => ext
  | .pcDisp => s.pc + BitVec.ofNat 32 off + sext16 ext
  | .pcIndex => s.pc + BitVec.ofNat 32 off + sext8 ext + indexValue ext s

/-- The function code of an operand read: `PCREL_FC` in the PC-relative modes, else `data_fc` (20_memory.md R52). -/
def memReadFc (m : MemMode) (s : State) : FunctionCode :=
  match m with
  | .pcDisp => s.pcrelFc
  | .pcIndex => s.pcrelFc
  | _ => s.dataFc

/-! ### Resolvers -/

/-- A resolver: its mode, operand size, the offset of its first extension word and the extension word or long word it
captured at construction (R160, R161); 0 where it has none. -/
structure Resolver where
  ea : Ea
  sz : Size
  off : Nat
  ext : Word
  deriving DecidableEq, Repr

/-- `extension_size()` (R160). -/
def Resolver.extensionSize (r : Resolver) : Nat := eaExtensionSize r.ea r.sz

/-- `construct(mode, reg, sz, off)`: fetches the extension words once (R161). -/
def construct (ea : Ea) (sz : Size) (off : Nat) : Exec Resolver :=
  match eaExtensionSize ea sz with
  | 0 => pure ⟨ea, sz, off, 0⟩
  | 2 => do
    let ext ← fetch off .w
    pure ⟨ea, sz, off, ext⟩
  | _ => do
    let ext ← fetch off .l
    pure ⟨ea, sz, off, ext⟩

/-- `get()`: the operand value, masked to its size (R164 to R177). -/
def Resolver.get (r : Resolver) : Exec Word :=
  match r.ea with
  | .dn n => reads fun s => getSized r.sz (s.dreg n)
  | .an n => reads fun s => getSized r.sz (s.areg n)
  | .imm => pure (getSized r.sz r.ext)
  | .mem m => fun s => memRead (memReadFc m s) (memAddress m r.sz r.off r.ext s) r.sz s

/-- A value written to an address register: all 32 bits, a word sign-extended (R165). No admitted instruction uses An
at size B. -/
def addressValue (sz : Size) (v : Word) : Word := sext sz v

/-- `put(v)` (R164 to R174). Immediate and the PC-relative modes have none, and no well-formed instruction asks for it:
there the model writes nothing for an immediate, and memory at the address for a PC-relative mode (DESIGN CHOICE: log entry
27). -/
def Resolver.put (r : Resolver) (v : Word) : Exec Unit :=
  match r.ea with
  | .dn n => modifies fun s => s.writeD n (putSized r.sz (s.dreg n) v)
  | .an n => modifies fun s => s.writeA n (addressValue r.sz v)
  | .imm => pure ()
  | .mem m => fun s => memWrite s.dataFc (memAddress m r.sz r.off r.ext s) r.sz v s

/-- `finish()`: the post-increment or pre-decrement, on the register as it stands now (R163, R167, R168). -/
def Resolver.finish (r : Resolver) : Exec Unit :=
  match r.ea with
  | .mem (.postInc n) => modifies fun s => s.writeA n (s.areg n + stepSize r.sz n)
  | .mem (.preDec n) => modifies fun s => s.writeA n (s.areg n - stepSize r.sz n)
  | _ => pure ()

/-- `address()` (R160). A direct mode and immediate have none, and no well-formed instruction asks for it. -/
def Resolver.address (r : Resolver) : Exec Word :=
  match r.ea with
  | .mem m => reads (memAddress m r.sz r.off r.ext)
  | _ => pure 0

/-! ### Other operand forms -/

/-- `branch_disp(op)`: the displacement, from the opcode's low byte or the extension word (46_program_control.md
R240). Its extension size is `branchExtensionSize`. -/
def branchDisp (disp8 : BitVec 8) : Exec Word :=
  if disp8 = 0#8 then do
    let ext ← fetch 2 .w
    pure (sext16 ext)
  else pure (disp8.signExtend 32)

/-- A branch target: `pc + 2 + displacement` (46_program_control.md R240). -/
def branchTarget (disp : Word) (s : State) : Word := s.pc + 2#32 + disp

/-- Quick data: 1 to 7 as themselves, 0 for 8 (30_encoding.md R97). -/
def quickValue (q : BitVec 3) : Nat := if q = 0#3 then 8 else q.toNat

/-- `count(op)` of a register shift (44_shift_rotate.md R210). -/
def shiftCount (c : ShiftCount) (s : State) : Nat :=
  match c with
  | .imm q => quickValue q
  | .reg n => (s.dreg n).toNat % 64

/-- The bit index of BSET and BCLR: modulo 32 on a data register, else modulo 8 (45_bit_manipulation.md R230). -/
def bitIndex (ea : Ea) (bn : Nat) : Nat :=
  match ea with
  | .dn _ => bn % 32
  | _ => bn % 8

end Sys2Proof.Machine
end

