-- ==== Sys2Proof/Machine/Arith.lean ====
section
/-! DEFINITION. Integer arithmetic: ADD, ADDQ, SUB, CMP (43_integer_arithmetic.md R200 to R205). -/

namespace Sys2Proof.Machine

/-- The sequence of ADD and SUB <ea>,Dn: `f` the micro-op, `setf` the setter (R200, R203). -/
def arithToReg (f : Size → Word → Word → Word) (setf : Size → Word → Word → Word → State → State) (sz : Size)
    (src : Ea) (dn : RegNum) : Exec Unit := do
  let rs ← construct src sz 2
  let v ← rs.get
  let d ← reads fun s => getSized sz (s.dreg dn)
  let r := f sz d v
  modifies (setf sz r d v)
  modifies fun s => s.writeD dn (putSized sz (s.dreg dn) r)
  rs.finish
  advance (2 + rs.extensionSize)

/-- The sequence of ADD and SUB Dn,<ea>: one read and one write at one address (R201, R204). -/
def arithToMem (f : Size → Word → Word → Word) (setf : Size → Word → Word → Word → State → State) (sz : Size)
    (dn : RegNum) (dst : Ea) : Exec Unit := do
  let rd ← construct dst sz 2
  let d ← rd.get
  let v ← reads fun s => getSized sz (s.dreg dn)
  let r := f sz d v
  modifies (setf sz r d v)
  rd.put r
  rd.finish
  advance (2 + rd.extensionSize)

/-- CMP.sz <ea>,Dn: the difference sets the flags and is not stored (R205). -/
def cmpToReg (sz : Size) (src : Ea) (dn : RegNum) : Exec Unit := do
  let rs ← construct src sz 2
  let v ← rs.get
  let d ← reads fun s => getSized sz (s.dreg dn)
  modifies (setCcCmp sz (sub sz d v) d v)
  rs.finish
  advance (2 + rs.extensionSize)

/-- ADDQ.sz #q,<ea>: on An all 32 bits and no flags (R202). -/
def addq (sz : Size) (data : BitVec 3) (dst : Ea) : Exec Unit :=
  let q := BitVec.ofNat 32 (quickValue data)
  match dst with
  | .an n => do
    modifies fun s => s.writeA n (s.areg n + q)
    advance 2
  | _ => do
    let rd ← construct dst sz 2
    let d ← rd.get
    let r := add sz d q
    modifies (setCcAsAdd sz r d q)
    rd.put r
    rd.finish
    advance (2 + rd.extensionSize)

/-- ADD.B <ea>,Dn (R200). -/
def execAddBEaDn (src : Ea) (dn : RegNum) (s : State) : Host.Outcome State Fault Refusal :=
  runBase (.addBEaDn src dn) (arithToReg add setCcAsAdd .b src dn) s

/-- ADD.W <ea>,Dn (R200). -/
def execAddWEaDn (src : Ea) (dn : RegNum) (s : State) : Host.Outcome State Fault Refusal :=
  runBase (.addWEaDn src dn) (arithToReg add setCcAsAdd .w src dn) s

/-- ADD.L <ea>,Dn (R200). -/
def execAddLEaDn (src : Ea) (dn : RegNum) (s : State) : Host.Outcome State Fault Refusal :=
  runBase (.addLEaDn src dn) (arithToReg add setCcAsAdd .l src dn) s

/-- ADD.B Dn,<ea> (R201). -/
def execAddBDnEa (dn : RegNum) (dst : Ea) (s : State) : Host.Outcome State Fault Refusal :=
  runBase (.addBDnEa dn dst) (arithToMem add setCcAsAdd .b dn dst) s

/-- ADD.W Dn,<ea> (R201). -/
def execAddWDnEa (dn : RegNum) (dst : Ea) (s : State) : Host.Outcome State Fault Refusal :=
  runBase (.addWDnEa dn dst) (arithToMem add setCcAsAdd .w dn dst) s

/-- ADD.L Dn,<ea> (R201). -/
def execAddLDnEa (dn : RegNum) (dst : Ea) (s : State) : Host.Outcome State Fault Refusal :=
  runBase (.addLDnEa dn dst) (arithToMem add setCcAsAdd .l dn dst) s

/-- SUB.B <ea>,Dn (R203). -/
def execSubBEaDn (src : Ea) (dn : RegNum) (s : State) : Host.Outcome State Fault Refusal :=
  runBase (.subBEaDn src dn) (arithToReg sub setCcSub .b src dn) s

/-- SUB.W <ea>,Dn (R203). -/
def execSubWEaDn (src : Ea) (dn : RegNum) (s : State) : Host.Outcome State Fault Refusal :=
  runBase (.subWEaDn src dn) (arithToReg sub setCcSub .w src dn) s

/-- SUB.L <ea>,Dn (R203). -/
def execSubLEaDn (src : Ea) (dn : RegNum) (s : State) : Host.Outcome State Fault Refusal :=
  runBase (.subLEaDn src dn) (arithToReg sub setCcSub .l src dn) s

/-- SUB.B Dn,<ea> (R204). -/
def execSubBDnEa (dn : RegNum) (dst : Ea) (s : State) : Host.Outcome State Fault Refusal :=
  runBase (.subBDnEa dn dst) (arithToMem sub setCcSub .b dn dst) s

/-- SUB.W Dn,<ea> (R204). -/
def execSubWDnEa (dn : RegNum) (dst : Ea) (s : State) : Host.Outcome State Fault Refusal :=
  runBase (.subWDnEa dn dst) (arithToMem sub setCcSub .w dn dst) s

/-- SUB.L Dn,<ea> (R204). -/
def execSubLDnEa (dn : RegNum) (dst : Ea) (s : State) : Host.Outcome State Fault Refusal :=
  runBase (.subLDnEa dn dst) (arithToMem sub setCcSub .l dn dst) s

/-- CMP.B <ea>,Dn (R205). -/
def execCmpB (src : Ea) (dn : RegNum) (s : State) : Host.Outcome State Fault Refusal :=
  runBase (.cmpB src dn) (cmpToReg .b src dn) s

/-- CMP.W <ea>,Dn (R205). -/
def execCmpW (src : Ea) (dn : RegNum) (s : State) : Host.Outcome State Fault Refusal :=
  runBase (.cmpW src dn) (cmpToReg .w src dn) s

/-- CMP.L <ea>,Dn (R205). -/
def execCmpL (src : Ea) (dn : RegNum) (s : State) : Host.Outcome State Fault Refusal :=
  runBase (.cmpL src dn) (cmpToReg .l src dn) s

/-- ADDQ.B #q,<ea> (R202). -/
def execAddqB (q : BitVec 3) (dst : Ea) (s : State) : Host.Outcome State Fault Refusal :=
  runBase (.addqB q dst) (addq .b q dst) s

/-- ADDQ.W #q,<ea> (R202). -/
def execAddqW (q : BitVec 3) (dst : Ea) (s : State) : Host.Outcome State Fault Refusal :=
  runBase (.addqW q dst) (addq .w q dst) s

/-- ADDQ.L #q,<ea> (R202). -/
def execAddqL (q : BitVec 3) (dst : Ea) (s : State) : Host.Outcome State Fault Refusal :=
  runBase (.addqL q dst) (addq .l q dst) s

end Sys2Proof.Machine
end

