-- ==== Sys2Proof/Machine/Bit.lean ====
section
/-! DEFINITION. Bit manipulation: BSET and BCLR, dynamic and static (45_bit_manipulation.md R230 to R234). -/

namespace Sys2Proof.Machine

/-- The common sequence once the bit number is known; `off` is where the operand's extension words start (R230). -/
def bitOp (g : Word → Nat → Word) (bn : Nat) (dst : Ea) (off : Nat) : Exec Unit := do
  let rd ← construct dst (bitSize dst) off
  let v ← rd.get
  let r := g v (bitIndex dst bn)
  modifies setCcUnspecified
  rd.put r
  rd.finish
  advance (off + rd.extensionSize)

/-- The dynamic form: the bit number is read from Dn before the destination is read (R230). -/
def bitDynamic (g : Word → Nat → Word) (dn : RegNum) (dst : Ea) : Exec Unit := do
  let bn ← reads fun s => (s.dreg dn).toNat
  bitOp g bn dst 2

/-- The static form: the bit number is the low byte of the extension word at offset 2 (R230). -/
def bitStatic (g : Word → Nat → Word) (dst : Ea) : Exec Unit := do
  let ext ← fetch 2 .w
  bitOp g (ext.toNat % 256) dst 4

/-- BSET Dn,<ea> (R231). -/
def execBsetDyn (dn : RegNum) (dst : Ea) (s : State) : Host.Outcome State Fault Refusal :=
  runBase (.bsetDyn dn dst) (bitDynamic bset dn dst) s

/-- BCLR Dn,<ea> (R233). -/
def execBclrDyn (dn : RegNum) (dst : Ea) (s : State) : Host.Outcome State Fault Refusal :=
  runBase (.bclrDyn dn dst) (bitDynamic bclr dn dst) s

/-- BSET #n,<ea> (R232). -/
def execBsetStatic (dst : Ea) (s : State) : Host.Outcome State Fault Refusal :=
  runBase (.bsetStatic dst) (bitStatic bset dst) s

/-- BCLR #n,<ea> (R234). -/
def execBclrStatic (dst : Ea) (s : State) : Host.Outcome State Fault Refusal :=
  runBase (.bclrStatic dst) (bitStatic bclr dst) s

end Sys2Proof.Machine
end

