-- ==== Sys2Proof/Machine/Control.lean ====
section
/-! DEFINITION. Program control: Scc, DBcc, BRA, BSR, Bcc, JMP, JSR, RTS (46_program_control.md R240 to R248). -/

namespace Sys2Proof.Machine

/-- Scc <ea> (R245): a byte of ones or zeros; the destination is not read. -/
def sccBody (cond : Cond) (dst : Ea) : Exec Unit := do
  let rd ← construct dst .b 2
  let taken ← reads fun s => s.test cond
  rd.put (if taken then 0xFF#32 else 0#32)
  rd.finish
  advance (2 + rd.extensionSize)

/-- Scc (R245). -/
def execScc (cond : Cond) (dst : Ea) (s : State) : Host.Outcome State Fault Refusal :=
  runBase (.scc cond dst) (sccBody cond dst) s

/-- DBcc Dn,<label> (R244). -/
def dbccBody (cond : Cond) (dn : RegNum) : Exec Unit := do
  let ext ← fetch 2 .w
  let taken ← reads fun s => s.test cond
  if taken then advance 4
  else do
    let cnt ← reads fun s => sub .w (s.dreg dn) 1#32
    modifies fun s => s.writeD dn (putSized .w (s.dreg dn) cnt)
    if cnt = 0xFFFF#32 then advance 4
    else modifies fun s => s.withPc (branchTarget (sext16 ext) s)

/-- DBcc (R244). -/
def execDbcc (cond : Cond) (dn : RegNum) (s : State) : Host.Outcome State Fault Refusal :=
  runBase (.dbcc cond dn) (dbccBody cond dn) s

/-- BRA <label> (R241). -/
def braBody (disp8 : BitVec 8) : Exec Unit := do
  let disp ← branchDisp disp8
  modifies fun s => s.withPc (branchTarget disp s)

/-- BRA (R241). -/
def execBra (disp8 : BitVec 8) (s : State) : Host.Outcome State Fault Refusal :=
  runBase (.bra disp8) (braBody disp8) s

/-- BSR <label> (R242): A[7] changes only after the push succeeds. -/
def bsrBody (disp8 : BitVec 8) : Exec Unit := do
  let disp ← branchDisp disp8
  let ret ← reads fun s => s.pc + BitVec.ofNat 32 (2 + branchExtensionSize disp8)
  pushLong ret
  modifies fun s => s.withPc (branchTarget disp s)

/-- BSR (R242). -/
def execBsr (disp8 : BitVec 8) (s : State) : Host.Outcome State Fault Refusal :=
  runBase (.bsr disp8) (bsrBody disp8) s

/-- Bcc <label> (R243): the displacement word is fetched whether or not the branch is taken (R240). -/
def bccBody (cond : Cond) (disp8 : BitVec 8) : Exec Unit := do
  let disp ← branchDisp disp8
  let taken ← reads fun s => s.test cond
  if taken then modifies fun s => s.withPc (branchTarget disp s)
  else advance (2 + branchExtensionSize disp8)

/-- Bcc (R243). -/
def execBcc (cond : Cond) (disp8 : BitVec 8) (s : State) : Host.Outcome State Fault Refusal :=
  runBase (.bcc cond disp8) (bccBody cond disp8) s

/-- JMP <ea> (R246). -/
def jmpBody (dst : Ea) : Exec Unit := do
  let r ← construct dst .l 2
  let t ← r.address
  modifies (State.withPc t)

/-- JMP (R246). -/
def execJmp (dst : Ea) (s : State) : Host.Outcome State Fault Refusal :=
  runBase (.jmp dst) (jmpBody dst) s

/-- JSR <ea> (R247): the target is computed from A[7] before the push. -/
def jsrBody (dst : Ea) : Exec Unit := do
  let r ← construct dst .l 2
  let t ← r.address
  let ret ← reads fun s => s.pc + BitVec.ofNat 32 (2 + r.extensionSize)
  pushLong ret
  modifies (State.withPc t)

/-- JSR (R247). -/
def execJsr (dst : Ea) (s : State) : Host.Outcome State Fault Refusal :=
  runBase (.jsr dst) (jsrBody dst) s

/-- RTS (R248). -/
def rtsBody : Exec Unit := do
  let v ← popLong
  modifies (State.withPc v)

/-- RTS (R248). -/
def execRts (s : State) : Host.Outcome State Fault Refusal :=
  runBase .rts rtsBody s

end Sys2Proof.Machine
end

