-- ==== Sys2Proof/Machine/Move.lean ====
section
/-! DEFINITION. Data movement: MOVE, MOVEA, MOVEQ, MOVE from SR (42_data_movement.md R190 to R193). -/

namespace Sys2Proof.Machine

/-- MOVE.sz <src>,<dst> (R190). -/
def move (sz : Size) (src dst : Ea) : Exec Unit := do
  let rs ← construct src sz 2
  let rd ← construct dst sz (2 + rs.extensionSize)
  let v ← rs.get
  modifies (setCc sz v)
  rd.put v
  rs.finish
  rd.finish
  advance (2 + rs.extensionSize + rd.extensionSize)

/-- MOVEA.sz <src>,An (R191). -/
def movea (sz : Size) (src : Ea) (an : RegNum) : Exec Unit := do
  let rs ← construct src sz 2
  let v ← rs.get
  modifies (State.writeA an (addressValue sz v))
  rs.finish
  advance (2 + rs.extensionSize)

/-- MOVE.B (R190). -/
def execMoveB (src dst : Ea) (s : State) : Host.Outcome State Fault Refusal :=
  runBase (.moveB src dst) (move .b src dst) s

/-- MOVE.L (R190). -/
def execMoveL (src dst : Ea) (s : State) : Host.Outcome State Fault Refusal :=
  runBase (.moveL src dst) (move .l src dst) s

/-- MOVE.W (R190). -/
def execMoveW (src dst : Ea) (s : State) : Host.Outcome State Fault Refusal :=
  runBase (.moveW src dst) (move .w src dst) s

/-- MOVEA.L (R191). -/
def execMoveaL (src : Ea) (an : RegNum) (s : State) : Host.Outcome State Fault Refusal :=
  runBase (.moveaL src an) (movea .l src an) s

/-- MOVEA.W (R191). -/
def execMoveaW (src : Ea) (an : RegNum) (s : State) : Host.Outcome State Fault Refusal :=
  runBase (.moveaW src an) (movea .w src an) s

/-- MOVEQ #d,Dn (R192). -/
def moveqBody (dn : RegNum) (data : BitVec 8) : Exec Unit := do
  let v := data.signExtend 32
  modifies (State.writeD dn v)
  modifies (setCc .l v)
  advance 2

/-- MOVEQ (R192). -/
def execMoveq (dn : RegNum) (data : BitVec 8) (s : State) : Host.Outcome State Fault Refusal :=
  runBase (.moveq dn data) (moveqBody dn data) s

/-- MOVE SR,<dst> (R193): the destination is not read. -/
def moveFromSrBody (dst : Ea) : Exec Unit := do
  let rd ← construct dst .w 2
  let v ← reads fun s => s.sr.setWidth 32
  rd.put v
  rd.finish
  advance (2 + rd.extensionSize)

/-- MOVE from SR (R193). -/
def execMoveFromSr (dst : Ea) (s : State) : Host.Outcome State Fault Refusal :=
  runBase (.moveFromSr dst) (moveFromSrBody dst) s

end Sys2Proof.Machine
end

