-- ==== Sys2Proof/Machine/Shift.lean ====
section
/-! DEFINITION. Shifts and rotates: ASR, LSR, LSL, ROR, ROL on a data register and on a memory word
(44_shift_rotate.md R210 to R220). -/

namespace Sys2Proof.Machine

/-- The register form's sequence: the count is read before the destination is written (R210). -/
def shiftReg (f : Size → Word → Nat → Word) (setf : Size → Word → Word → Nat → State → State) (sz : Size)
    (count : ShiftCount) (dn : RegNum) : Exec Unit := do
  let c ← reads (shiftCount count)
  let v ← reads fun s => getSized sz (s.dreg dn)
  let r := f sz v c
  modifies (setf sz r v c)
  modifies fun s => s.writeD dn (putSized sz (s.dreg dn) r)
  advance 2

/-- The memory form's sequence: a word, by one (R210). -/
def shiftMem (f : Size → Word → Nat → Word) (setf : Size → Word → Word → Nat → State → State) (dst : Ea) :
    Exec Unit := do
  let rd ← construct dst .w 2
  let v ← rd.get
  let r := f .w v 1
  modifies (setf .w r v 1)
  rd.put r
  rd.finish
  advance (2 + rd.extensionSize)

/-- `set_cc_unspecified()` in the place of a shift's setter (R210, R217). -/
def setUnspecified (_ : Size) (_ _ : Word) (_ : Nat) : State → State := setCcUnspecified

/-- ASR.B on a data register (R211). -/
def execAsrB (count : ShiftCount) (dn : RegNum) (s : State) : Host.Outcome State Fault Refusal :=
  runBase (.asrB count dn) (shiftReg asr (setCcShift .shiftAsr) .b count dn) s

/-- ASR.W on a data register (R211). -/
def execAsrW (count : ShiftCount) (dn : RegNum) (s : State) : Host.Outcome State Fault Refusal :=
  runBase (.asrW count dn) (shiftReg asr (setCcShift .shiftAsr) .w count dn) s

/-- ASR.L on a data register (R211). -/
def execAsrL (count : ShiftCount) (dn : RegNum) (s : State) : Host.Outcome State Fault Refusal :=
  runBase (.asrL count dn) (shiftReg asr (setCcShift .shiftAsr) .l count dn) s

/-- LSR.B on a data register (R213). -/
def execLsrB (count : ShiftCount) (dn : RegNum) (s : State) : Host.Outcome State Fault Refusal :=
  runBase (.lsrB count dn) (shiftReg lsr (setCcShift .shiftLsr) .b count dn) s

/-- LSR.W on a data register (R213). -/
def execLsrW (count : ShiftCount) (dn : RegNum) (s : State) : Host.Outcome State Fault Refusal :=
  runBase (.lsrW count dn) (shiftReg lsr (setCcShift .shiftLsr) .w count dn) s

/-- LSR.L on a data register (R213). -/
def execLsrL (count : ShiftCount) (dn : RegNum) (s : State) : Host.Outcome State Fault Refusal :=
  runBase (.lsrL count dn) (shiftReg lsr (setCcShift .shiftLsr) .l count dn) s

/-- LSL.B on a data register (R215). -/
def execLslB (count : ShiftCount) (dn : RegNum) (s : State) : Host.Outcome State Fault Refusal :=
  runBase (.lslB count dn) (shiftReg lsl (setCcShift .shiftLsl) .b count dn) s

/-- LSL.W on a data register (R215). -/
def execLslW (count : ShiftCount) (dn : RegNum) (s : State) : Host.Outcome State Fault Refusal :=
  runBase (.lslW count dn) (shiftReg lsl (setCcShift .shiftLsl) .w count dn) s

/-- LSL.L on a data register (R215). -/
def execLslL (count : ShiftCount) (dn : RegNum) (s : State) : Host.Outcome State Fault Refusal :=
  runBase (.lslL count dn) (shiftReg lsl (setCcShift .shiftLsl) .l count dn) s

/-- ROR.B on a data register (R217). -/
def execRorB (count : ShiftCount) (dn : RegNum) (s : State) : Host.Outcome State Fault Refusal :=
  runBase (.rorB count dn) (shiftReg ror setUnspecified .b count dn) s

/-- ROR.W on a data register (R217). -/
def execRorW (count : ShiftCount) (dn : RegNum) (s : State) : Host.Outcome State Fault Refusal :=
  runBase (.rorW count dn) (shiftReg ror setUnspecified .w count dn) s

/-- ROR.L on a data register (R217). -/
def execRorL (count : ShiftCount) (dn : RegNum) (s : State) : Host.Outcome State Fault Refusal :=
  runBase (.rorL count dn) (shiftReg ror setUnspecified .l count dn) s

/-- ROL.B on a data register (R219). -/
def execRolB (count : ShiftCount) (dn : RegNum) (s : State) : Host.Outcome State Fault Refusal :=
  runBase (.rolB count dn) (shiftReg rol setUnspecified .b count dn) s

/-- ROL.W on a data register (R219). -/
def execRolW (count : ShiftCount) (dn : RegNum) (s : State) : Host.Outcome State Fault Refusal :=
  runBase (.rolW count dn) (shiftReg rol setUnspecified .w count dn) s

/-- ROL.L on a data register (R219). -/
def execRolL (count : ShiftCount) (dn : RegNum) (s : State) : Host.Outcome State Fault Refusal :=
  runBase (.rolL count dn) (shiftReg rol setUnspecified .l count dn) s

/-- ASR on a memory word (R212). -/
def execAsrMem (dst : Ea) (s : State) : Host.Outcome State Fault Refusal :=
  runBase (.asrMem dst) (shiftMem asr (setCcShift .shiftAsr) dst) s

/-- LSR on a memory word (R214). -/
def execLsrMem (dst : Ea) (s : State) : Host.Outcome State Fault Refusal :=
  runBase (.lsrMem dst) (shiftMem lsr (setCcShift .shiftLsr) dst) s

/-- LSL on a memory word (R216). -/
def execLslMem (dst : Ea) (s : State) : Host.Outcome State Fault Refusal :=
  runBase (.lslMem dst) (shiftMem lsl (setCcShift .shiftLsl) dst) s

/-- ROR on a memory word (R218). -/
def execRorMem (dst : Ea) (s : State) : Host.Outcome State Fault Refusal :=
  runBase (.rorMem dst) (shiftMem ror setUnspecified dst) s

/-- ROL on a memory word (R220). -/
def execRolMem (dst : Ea) (s : State) : Host.Outcome State Fault Refusal :=
  runBase (.rolMem dst) (shiftMem rol setUnspecified dst) s

end Sys2Proof.Machine
end

