-- ==== Sys2Proof/Machine/Collab.lean ====
section
/-! DEFINITION. The dispatch table and the collaborators: pattern installation and lookup (30_encoding.md R82 to R85),
and the call of an installed handler (47_system_control.md R262). -/

namespace Sys2Proof.Machine

/-! ### The dispatch table -/

/-- A handler of the dispatch table (10_state.md R31). A base handler is given with the instruction its row reads from
the slot's opcode word. -/
inductive Handler where
  | illegal
  | base (i : Instr)
  | collab (k : Nat)
  deriving DecidableEq, Repr

/-- Whether an installation's pattern holds an opcode word: its fixed bits agree (R82). -/
def installationMatches (p : Installation) (op : Half) : Bool := op &&& ~~~ p.mask == p.base &&& ~~~ p.mask

/-- The installation that holds a slot, if a collaborator has overwritten it: the newest that matches (R82). -/
def findInstallation (l : List Installation) (op : Half) : Option Installation :=
  l.find? fun p => installationMatches p op

/-- The handler of the base table: the row the word matches; the TRAP slot words are left Illegal (R84, R107). -/
def baseHandler (op : Half) : Handler :=
  match decodeOp op with
  | none => .illegal
  | some (.trap _) => .illegal
  | some i => .base i

/-- `table[op]`: the handler and the aux word of a slot (R83, R84). -/
def State.tableEntry (s : State) (op : Half) : Handler × BitVec 64 :=
  match findInstallation s.installed op with
  | some p => (.collab p.handler, p.aux)
  | none => (baseHandler op, 0)

/-- `set_instruction(base, mask, handler, aux)`: a later call overwrites an earlier one on every slot both match
(R82). Only the host and its collaborators call it, between steps (70_reset_and_hazards.md R306). -/
def State.setInstruction (base mask : Half) (handler : Nat) (aux : BitVec 64) (s : State) : State :=
  s.withInstalled (⟨base, mask, handler, aux⟩ :: s.installed)

/-! ### Calls of collaborators' handlers -/

/-- A request whose BusError its issuer catches: it has no effect but to have been issued (20_memory.md R61,
60_exceptions.md R283). -/
def attempt {α : Type} (x : Exec α) (s : State) : State :=
  match x s with
  | .ok _ t => t
  | .error _ t => t

/-- What a request answers its issuer: the value, none where it raised BusError (20_memory.md R61). -/
def answer {α : Type} (x : Exec α) (s : State) : Option α :=
  match x s with
  | .ok v _ => some v
  | .error _ _ => none

/-- The context as the host or a handler reads it (47_system_control.md R262, 60_exceptions.md R290). -/
def State.view (s : State) : ContextView where
  d := s.d
  a := s.a
  usp := s.usp
  ssp := s.ssp
  pc := s.pc
  sup := s.sup
  flags := s.flags
  irqPending := s.irqPending

/-- One access to the context by the host or a handler (60_exceptions.md R290, 47_system_control.md R262). -/
def applyAction (a : HostAction) (s : State) : State :=
  match a with
  | .setD n v => s.writeD n v
  | .setA n v => s.writeA n v
  | .setPc v => s.withPc v
  | .setSupervisorState b => s.setSupervisorState b
  | .setSr v => setSr v s
  | .setCc r => s.withCc r
  | .setXsrc r => s.withXsrc r
  | .setUspShadow v => s.withUspShadow v
  | .setSspShadow v => s.withSspShadow v
  | .setIrqPending b => s.withIrqPending b
  | .get fc addr sz => attempt (memRead fc addr sz) s
  | .put fc addr sz v => attempt (memWrite fc addr sz v) s
  | .fetch off sz => attempt (fetch off sz) s -- from the pc as the handler has left it: log entry 32

/-- The answer to an access: the value of a read or a fetch, 0 for a write of a register or an accepted write of memory,
none where the request raised BusError. -/
def actionAnswer (a : HostAction) (s : State) : Option Word :=
  match a with
  | .get fc addr sz => answer (memRead fc addr sz) s
  | .put fc addr sz v => (answer (memWrite fc addr sz v) s).map fun _ => 0
  | .fetch off sz => answer (fetch off sz) s
  | _ => some 0

/-- Accesses in order. -/
def applyActions : List HostAction → State → State
  | [], s => s
  | a :: as, s => applyActions as (applyAction a s)

/-- How a handler returns: `Continue`, or one of the four other outcomes (R262). -/
def returnFrom (outcome : Option Stop) : Exec Unit :=
  match outcome with
  | none => pure ()
  | some e => raise e

/-- A handler's call, access by access: each read of the context and each answer decides what follows (R262). -/
def runProgram : CollabProgram → Exec Unit
  | .ret outcome => returnFrom outcome
  | .look next => fun s => runProgram (next s.view) s
  | .act a next => fun s => runProgram (next (actionAnswer a s)) (applyAction a s)

/-- The record of one call as a program: its accesses, then its outcome. -/
def scriptProgram : List HostAction → Option Stop → CollabProgram
  | [], outcome => .ret outcome
  | a :: as, outcome => .act a fun _ => scriptProgram as outcome

/-- What handler `k` does in one call: the next record the host has scripted, else a free program (COLLAB, 00_scope.md R8;
log entry 15). -/
def nextProgram (k : Nat) (op : Half) (aux : BitVec 64) (s : State) : CollabProgram × State :=
  match s.collabIn with
  | r :: rest => (scriptProgram r.actions r.outcome, s.withCollabIn rest)
  | [] => (Config.collab k op aux s.draws, s.withDraws (s.draws + 1))

/-- `COLLAB_k(context, op, aux)`: the handler's accesses to the context, then its outcome. The block does not advance
the pc (R262). -/
def callCollab (k : Nat) (op : Half) (aux : BitVec 64) : Exec Unit := fun s =>
  let (p, t) := nextProgram k op aux s
  runProgram p t

/-- The step of an opcode word whose slot a collaborator holds (30_encoding.md R86). -/
def runCollab (p : Installation) (op : Half) (s : State) : Host.Outcome State Fault Refusal :=
  outcomeOf (some op) s.pc (callCollab p.handler op p.aux s)

/-- The step of an opcode word whose slot is Illegal (47_system_control.md R263). -/
def runIllegal (op : Half) (s : State) : Host.Outcome State Fault Refusal :=
  outcomeOf (some op) s.pc (raise (.illegalInstruction op s.pc) s)

end Sys2Proof.Machine
end

