-- ==== Sys2Proof/Machine/System.lean ====
section
/-! DEFINITION. System control: MOVE to SR, RTE and the collaborators' TRAP slot (47_system_control.md R260 to R262). -/

namespace Sys2Proof.Machine

/-- MOVE <ea>,SR (R260): privileged; `finish` runs before `set_sr`, on the stack of the old state. -/
def moveToSrBody (src : Ea) : Exec Unit := do
  requireSupervisor (encode (.moveToSr src))
  let rs ← construct src .w 2
  let v ← rs.get
  rs.finish
  modifies (setSr (v.setWidth 16))
  advance (2 + rs.extensionSize)

/-- MOVE to SR (R260). -/
def execMoveToSr (src : Ea) (s : State) : Host.Outcome State Fault Refusal :=
  runBase (.moveToSr src) (moveToSrBody src) s

/-- RTE (R261): privileged; the frame is popped from the supervisor stack before `set_sr`. -/
def rteBody : Exec Unit := do
  requireSupervisor (encode .rte)
  let (nsr, npc) ← popFrame
  modifies (setSr (nsr.setWidth 16))
  modifies (State.withPc npc)

/-- RTE (R261). -/
def execRte (s : State) : Host.Outcome State Fault Refusal :=
  runBase .rte rteBody s

/-- TRAP #n, the collaborators' slot (R262): Illegal until a collaborator installs a handler (R263), then that
handler's call. -/
def execTrap (vector : BitVec 4) (s : State) : Host.Outcome State Fault Refusal :=
  match findInstallation s.installed (encode (.trap vector)) with
  | some p => runCollab p (encode (.trap vector)) s
  | none => runIllegal (encode (.trap vector)) s

end Sys2Proof.Machine
end

