-- ==== Sys2Proof/Machine/Dispatch.lean ====
section
/-! DEFINITION. The meaning of every instruction: one arm per row of spec/opcode_table.json. -/

namespace Sys2Proof.Machine

def exec (i : Instr) (s : State) : Host.Outcome State Fault Refusal :=
  match i with
  | .moveB src dst => Sys2Proof.Machine.execMoveB src dst s
  | .moveL src dst => Sys2Proof.Machine.execMoveL src dst s
  | .moveW src dst => Sys2Proof.Machine.execMoveW src dst s
  | .moveaL src an => Sys2Proof.Machine.execMoveaL src an s
  | .moveaW src an => Sys2Proof.Machine.execMoveaW src an s
  | .moveq dn data => Sys2Proof.Machine.execMoveq dn data s
  | .moveFromSr dst => Sys2Proof.Machine.execMoveFromSr dst s
  | .moveToSr src => Sys2Proof.Machine.execMoveToSr src s
  | .addBEaDn src dn => Sys2Proof.Machine.execAddBEaDn src dn s
  | .addWEaDn src dn => Sys2Proof.Machine.execAddWEaDn src dn s
  | .addLEaDn src dn => Sys2Proof.Machine.execAddLEaDn src dn s
  | .addBDnEa dn dst => Sys2Proof.Machine.execAddBDnEa dn dst s
  | .addWDnEa dn dst => Sys2Proof.Machine.execAddWDnEa dn dst s
  | .addLDnEa dn dst => Sys2Proof.Machine.execAddLDnEa dn dst s
  | .subBEaDn src dn => Sys2Proof.Machine.execSubBEaDn src dn s
  | .subWEaDn src dn => Sys2Proof.Machine.execSubWEaDn src dn s
  | .subLEaDn src dn => Sys2Proof.Machine.execSubLEaDn src dn s
  | .subBDnEa dn dst => Sys2Proof.Machine.execSubBDnEa dn dst s
  | .subWDnEa dn dst => Sys2Proof.Machine.execSubWDnEa dn dst s
  | .subLDnEa dn dst => Sys2Proof.Machine.execSubLDnEa dn dst s
  | .cmpB src dn => Sys2Proof.Machine.execCmpB src dn s
  | .cmpW src dn => Sys2Proof.Machine.execCmpW src dn s
  | .cmpL src dn => Sys2Proof.Machine.execCmpL src dn s
  | .addqB q dst => Sys2Proof.Machine.execAddqB q dst s
  | .addqW q dst => Sys2Proof.Machine.execAddqW q dst s
  | .addqL q dst => Sys2Proof.Machine.execAddqL q dst s
  | .scc cond dst => Sys2Proof.Machine.execScc cond dst s
  | .dbcc cond dn => Sys2Proof.Machine.execDbcc cond dn s
  | .bra disp8 => Sys2Proof.Machine.execBra disp8 s
  | .bsr disp8 => Sys2Proof.Machine.execBsr disp8 s
  | .bcc cond disp8 => Sys2Proof.Machine.execBcc cond disp8 s
  | .jmp dst => Sys2Proof.Machine.execJmp dst s
  | .jsr dst => Sys2Proof.Machine.execJsr dst s
  | .rts => Sys2Proof.Machine.execRts s
  | .rte => Sys2Proof.Machine.execRte s
  | .asrB count dn => Sys2Proof.Machine.execAsrB count dn s
  | .asrW count dn => Sys2Proof.Machine.execAsrW count dn s
  | .asrL count dn => Sys2Proof.Machine.execAsrL count dn s
  | .lsrB count dn => Sys2Proof.Machine.execLsrB count dn s
  | .lsrW count dn => Sys2Proof.Machine.execLsrW count dn s
  | .lsrL count dn => Sys2Proof.Machine.execLsrL count dn s
  | .lslB count dn => Sys2Proof.Machine.execLslB count dn s
  | .lslW count dn => Sys2Proof.Machine.execLslW count dn s
  | .lslL count dn => Sys2Proof.Machine.execLslL count dn s
  | .rorB count dn => Sys2Proof.Machine.execRorB count dn s
  | .rorW count dn => Sys2Proof.Machine.execRorW count dn s
  | .rorL count dn => Sys2Proof.Machine.execRorL count dn s
  | .rolB count dn => Sys2Proof.Machine.execRolB count dn s
  | .rolW count dn => Sys2Proof.Machine.execRolW count dn s
  | .rolL count dn => Sys2Proof.Machine.execRolL count dn s
  | .asrMem dst => Sys2Proof.Machine.execAsrMem dst s
  | .lsrMem dst => Sys2Proof.Machine.execLsrMem dst s
  | .lslMem dst => Sys2Proof.Machine.execLslMem dst s
  | .rorMem dst => Sys2Proof.Machine.execRorMem dst s
  | .rolMem dst => Sys2Proof.Machine.execRolMem dst s
  | .bsetDyn dn dst => Sys2Proof.Machine.execBsetDyn dn dst s
  | .bclrDyn dn dst => Sys2Proof.Machine.execBclrDyn dn dst s
  | .bsetStatic dst => Sys2Proof.Machine.execBsetStatic dst s
  | .bclrStatic dst => Sys2Proof.Machine.execBclrStatic dst s
  | .trap vector => Sys2Proof.Machine.execTrap vector s

end Sys2Proof.Machine
end

