-- ==== Sys2Proof/Machine/Fetch.lean ====
section
/-! DEFINITION. The opcode fetch that begins a step, and the placing of an instruction where the next one is
fetched. -/

namespace Sys2Proof.Machine

/-- The fetch of the opcode word at the pc, with the program function code (30_encoding.md R86). It is the first
request of the step. -/
def fetchOpcode : Exec Half := do
  modifies (State.withBus [])
  let w ← fetch 0 .w
  pure (w.setWidth 16)

/-- The step after its opcode fetch: the slot's handler (30_encoding.md R86), `run` being the base handlers. An
Illegal slot of the TRAP row is given to that row's meaning, which raises the same fault. -/
def dispatchOpcode (run : Instr → State → Host.Outcome State Fault Refusal) (op : Half) (s : State) :
    Host.Outcome State Fault Refusal :=
  match findInstallation s.installed op with
  | some p => runCollab p op s
  | none =>
    match decodeOp op with
    | some i => run i s
    | none => runIllegal op s

/-- Writes a list of bytes at rising addresses. -/
def pokeBytes : List Byte → Word → State → State
  | [], _, s => s
  | b :: bs, a, s => pokeBytes bs (a + 1#32) (s.poke a b)

/-- The words of a table row written at the pc. -/
def placeTableWord (nbits w : Nat) (s : State) : State := pokeBytes (bytesOfTableWord nbits w) s.pc s

end Sys2Proof.Machine
end

