-- ==== Sys2Proof/Machine/Step.lean ====
section
/-! DEFINITION. One step of the machine (30_encoding.md R86). -/

namespace Sys2Proof.Machine

/-- `step(context)`: fetch the opcode word, look it up, invoke the handler (R86). -/
def step (s : State) : Host.Outcome State Fault Refusal :=
  match fetchOpcode s with
  | .ok op t => dispatchOpcode exec op t
  | .error e t => .fault (faultOf none s.pc t e)

/-- The state with an instruction's words stored where the next step fetches: at the pc. The host's load of a
program (log entry 26). -/
def State.withFetchWord (s : State) (nbits w : Nat) : State := placeTableWord nbits w s

end Sys2Proof.Machine
end

