-- ==== Sys2Proof/Machine/Run.lean ====
section
/-! DEFINITION. The end of a run: `run`, its exit status and its diagnostic (60_exceptions.md R279, R280). -/

namespace Sys2Proof.Machine

/-- What the diagnostic of a run holds (R279); its text is not specified. -/
inductive Diagnostic where
  | illegalInstruction (op : Half) (pc : Word) (fc : FunctionCode)
  | privilegeViolation (op : Half) (pc : Word) (fc : FunctionCode)
  | busError (address : Word) (fc : FunctionCode) (kind : AccessKind) (op : Option Half) (pc : Word)
  | exit (status : Int)
  deriving DecidableEq, Repr

/-- The triple a run returns (R279). -/
structure RunResult where
  status : Int
  diagnostic : Diagnostic
  context : State
  deriving DecidableEq, Repr

/-- The context a fault leaves behind (R276). -/
def Fault.left : Fault → State
  | .illegalInstruction _ _ t => t
  | .privilegeViolation _ _ t => t
  | .busError _ _ _ _ _ t => t
  | .exit _ t => t

/-- `EXIT_STATUS(kind)` for a fault, the handler's own status for `Exit` (R280). -/
def exitStatusOf : Fault → Int
  | .illegalInstruction _ _ _ => Config.exitStatus .illegalInstruction
  | .privilegeViolation _ _ _ => Config.exitStatus .privilegeViolation
  | .busError _ _ _ _ _ _ => Config.exitStatus .busError
  | .exit status _ => status

/-- The items of the diagnostic: for BusError the pc of the step that issued the request (R279). -/
def diagnosticOf : Fault → Diagnostic
  | .illegalInstruction op pc t => .illegalInstruction op pc t.programFc
  | .privilegeViolation op pc t => .privilegeViolation op pc t.programFc
  | .busError a fc kind op pc _ => .busError a fc kind op pc
  | .exit status _ => .exit status

/-- `run(context)`, for at most `fuel` steps: none where the run has not ended by then (R279, R292). -/
def run : Nat → State → Option RunResult
  | 0, _ => none
  | fuel + 1, s =>
    match step s with
    | .next t => run fuel t
    | .fault f => some ⟨exitStatusOf f, diagnosticOf f, f.left⟩
    | .refused _ => none

end Sys2Proof.Machine
end

