-- ==== Sys2Proof/Machine/HostOps.lean ====
section
/-! DEFINITION. The host's interface: what it may do to a context between steps (60_exceptions.md R290,
70_reset_and_hazards.md R300, R301). -/

namespace Sys2Proof.Machine

/-- LAUNCH: the values of a context's fields at creation, all the host's (10_state.md R36). -/
structure Launch where
  d : Vector Word 8
  a : Vector Word 8
  uspShadow : Word
  sspShadow : Word
  pc : Word
  sup : Bool
  cc : CcRecord
  xsrc : CcRecord
  irqPending : Bool
  deriving DecidableEq, Repr

/-- SPACE: the address space a context is bound to (00_scope.md R9, 20_memory.md R50). -/
structure Space where
  mem : List Host.Cell
  regions : List Region
  decodeBits : Nat
  deriving DecidableEq, Repr

/-- `Context::new(address_space)` with the launch values (70_reset_and_hazards.md R301), over the dispatch table as the
base installation and the collaborators' calls left it (R300). -/
def createContext (l : Launch) (sp : Space) (installed : List Installation) (collabIn : List CollabResponse) :
    State where
  d := l.d
  a := l.a
  uspShadow := l.uspShadow
  sspShadow := l.sspShadow
  pc := l.pc
  sup := l.sup
  cc := l.cc
  xsrc := l.xsrc
  irqPending := l.irqPending
  installed := installed
  mem := sp.mem
  regions := sp.regions
  decodeBits := sp.decodeBits
  collabIn := collabIn
  draws := 0
  bus := []

/-- The registers, flags and mode the host reads between two steps (60_exceptions.md R290). -/
def hostRead (s : State) : ContextView := s.view

/-- The host's accesses to a context between two steps (60_exceptions.md R290). -/
def hostAccess (as : List HostAction) (s : State) : State := applyActions as s

/-- `fetch(size, offset)` as the host calls it: the word or long word at `pc + offset`, at byte size the
word, or BusError (60_exceptions.md R290, 20_memory.md R56). -/
def hostFetch (off : Nat) (sz : Size) (s : State) : EStateM.Result Stop State Word := fetch off sz s

/-- Collaborator installations in the host's order, before any run that is to observe them (70_reset_and_hazards.md
R300, R303). -/
def installAll : List Installation → State → State
  | [], s => s
  | p :: ps, s => installAll ps (s.setInstruction p.base p.mask p.handler p.aux)

end Sys2Proof.Machine
end

