-- ==== Sys2Proof/Safety.lean ====
section
/-! DEFINITION. The terms claims are stated in: which operands a state can read and write, their addresses and values,
what a step may leave changed, and the instructions of one shape by size. -/

namespace Sys2Proof.Machine

/-! ### Requests that succeed from plain memory -/

/-- A read of this address is accepted, and answered from memory. -/
def State.readable (s : State) (fc : FunctionCode) (a : Word) (sz : Size) : Bool :=
  s.granted fc .read a sz && !s.isOracle a sz

/-- A write of this address is accepted. -/
def State.writable (s : State) (fc : FunctionCode) (a : Word) (sz : Size) : Bool := s.granted fc .write a sz

/-- The address `off` bytes past the opcode word (20_memory.md R56). -/
def State.codeAddr (s : State) (off : Nat) : Word := s.pc + BitVec.ofNat 32 off

/-- The extension words of an operand at `off` can be fetched. -/
def extReadable (s : State) (ea : Ea) (sz : Size) (off : Nat) : Bool :=
  match eaExtensionSize ea sz with
  | 0 => true
  | 2 => s.readable s.programFc (s.codeAddr off) .w
  | _ => s.readable s.programFc (s.codeAddr off) .l

/-- The extension word or long word of an operand at `off`; 0 where it has none. -/
def extValue (s : State) (ea : Ea) (sz : Size) (off : Nat) : Word :=
  match eaExtensionSize ea sz with
  | 0 => 0
  | 2 => s.load (s.codeAddr off) .w
  | _ => s.load (s.codeAddr off) .l

/-- The requests that fetch an operand's extension words. -/
def extRequests (s : State) (ea : Ea) (sz : Size) (off : Nat) : List Request :=
  match eaExtensionSize ea sz with
  | 0 => []
  | 2 => [.get s.programFc (s.codeAddr off) .w]
  | _ => [.get s.programFc (s.codeAddr off) .l]

/-- The effective address of a memory operand at `off`. -/
def operandAddr (s : State) (m : MemMode) (sz : Size) (off : Nat) : Word :=
  memAddress m sz off (extValue s (.mem m) sz off) s

/-- The operand can be read (its extension words apart). -/
def operandReadable (s : State) (ea : Ea) (sz : Size) (off : Nat) : Bool :=
  match ea with
  | .mem m => s.readable (memReadFc m s) (operandAddr s m sz off) sz
  | _ => true

/-- The operand can be written (its extension words apart). -/
def operandWritable (s : State) (ea : Ea) (sz : Size) (off : Nat) : Bool :=
  match ea with
  | .mem m => s.writable s.dataFc (operandAddr s m sz off) sz
  | _ => true

/-- The value of the operand, masked to its size. -/
def operandValue (s : State) (ea : Ea) (sz : Size) (off : Nat) : Word :=
  match ea with
  | .dn n => getSized sz (s.dreg n)
  | .an n => getSized sz (s.areg n)
  | .imm => getSized sz (extValue s .imm sz off)
  | .mem m => s.load (operandAddr s m sz off) sz

/-- The request that reads the operand. -/
def readRequests (s : State) (ea : Ea) (sz : Size) (off : Nat) : List Request :=
  match ea with
  | .mem m => [.get (memReadFc m s) (operandAddr s m sz off) sz]
  | _ => []

/-- The request that writes the operand. -/
def writeRequests (s : State) (ea : Ea) (sz : Size) (off : Nat) (v : Word) : List Request :=
  match ea with
  | .mem m => [.put s.dataFc (operandAddr s m sz off) sz (getSized sz v)]
  | _ => []

/-- What `finish` adds to address register `n` (41_addressing_modes.md R167, R168). -/
def finishDelta (ea : Ea) (sz : Size) (n : RegNum) : Word :=
  match ea with
  | .mem (.postInc k) => if n = k then stepSize sz k else 0
  | .mem (.preDec k) => if n = k then - stepSize sz k else 0
  | _ => 0

/-- The count of a register shift: 1 to 8 from the opcode word, or a data register modulo 64 (44_shift_rotate.md R210). -/
def countValue (c : ShiftCount) (s : State) : Nat :=
  match c with
  | .imm q => if q = 0#3 then 8 else q.toNat
  | .reg n => (s.dreg n).toNat % 64

/-- The operand size of BSET and BCLR: a long word in a data register, a byte in memory (45_bit_manipulation.md R230). -/
def bitOperandSize (e : Ea) : Size :=
  match e with
  | .dn _ => .l
  | _ => .b

/-- The displacement word of a branch can be fetched, where it has one (46_program_control.md R240). -/
def branchReadable (s : State) (disp8 : BitVec 8) : Bool :=
  disp8 != 0#8 || s.readable s.programFc (s.codeAddr 2) .w

/-- The displacement of a branch (46_program_control.md R240). -/
def branchValue (s : State) (disp8 : BitVec 8) : Word :=
  if disp8 = 0#8 then ((s.load (s.codeAddr 2) .w).setWidth 16).signExtend 32 else disp8.signExtend 32

/-- The request that fetches a branch's displacement word. -/
def branchRequests (s : State) (disp8 : BitVec 8) : List Request :=
  if disp8 = 0#8 then [.get s.programFc (s.codeAddr 2) .w] else []

/-- The live stack pointer (10_state.md R23). -/
def State.sp (s : State) : Word := s.areg spReg

/-! ### Frames -/

/-- The address space holds its memory in canonical form and tells the four bytes of a long word apart. -/
def SpaceOk (s : State) : Prop := memoryWf s.mem = true ∧ 2 ≤ s.decodeBits

/-- Every byte of memory reads as before. -/
def SameMemory (s t : State) : Prop := ∀ x, t.peek x = s.peek x

/-- Every byte of memory outside the bytes of this request reads as before. -/
def SameMemoryBut (a : Word) (sz : Size) (s t : State) : Prop :=
  ∀ x, s.decodeAddr x ∉ s.touched a sz → t.peek x = s.peek x

/-- Every data register is as before. -/
def SameD (s t : State) : Prop := ∀ n, t.dreg n = s.dreg n

/-- Every data register but one is as before. -/
def SameDBut (n : RegNum) (s t : State) : Prop := ∀ m, m ≠ n → t.dreg m = s.dreg m

/-- Every address register is as before. -/
def SameA (s t : State) : Prop := ∀ n, t.areg n = s.areg n

/-- Every address register but one is as before. -/
def SameABut (n : RegNum) (s t : State) : Prop := ∀ m, m ≠ n → t.areg m = s.areg m

/-- Both condition-code records are as before. -/
def SameCc (s t : State) : Prop := t.cc = s.cc ∧ t.xsrc = s.xsrc

/-- What no instruction writes is as before: the interrupt-pending flag, the dispatch table, the address space's layout,
the collaborators' answers to come. -/
def SameHost (s t : State) : Prop :=
  t.irqPending = s.irqPending ∧ t.installed = s.installed ∧ t.regions = s.regions ∧ t.decodeBits = s.decodeBits ∧
    t.collabIn = s.collabIn

/-- The mode, the shadow stack pointers and what no instruction writes are as before. -/
def SameSystem (s t : State) : Prop :=
  t.sup = s.sup ∧ t.uspShadow = s.uspShadow ∧ t.sspShadow = s.sspShadow ∧ SameHost s t

/-- `t` holds `v` in the operand, which in `s` is at `off`, and differs from `s` in no other data register and no other
byte of memory. -/
def Wrote (ea : Ea) (sz : Size) (off : Nat) (v : Word) (s t : State) : Prop :=
  match ea with
  | .dn n => t.dreg n = putSized sz (s.dreg n) v ∧ SameDBut n s t ∧ SameMemory s t
  | .mem m =>
    SameD s t ∧ (SpaceOk s → t.load (operandAddr s m sz off) sz = getSized sz v) ∧
      SameMemoryBut (operandAddr s m sz off) sz s t
  | _ => False

/-! ### The flags the rules give -/

/-- Flags of a moved value: X kept (40_datapath.md R132, R138). -/
def moveFlags (s : State) (sz : Size) (v : Word) : Flags :=
  ⟨s.flags.x, msb sz v, v == 0#32, false, false⟩

/-- Flags of an addition `r = add(sz, d, v)` (40_datapath.md R139, R143). -/
def addFlags (sz : Size) (d v : Word) : Flags :=
  let r := add sz d v
  let c := decide (2 ^ bits sz ≤ d.toNat + v.toNat)
  ⟨c, msb sz r, r == 0#32, msb sz d == msb sz v && msb sz r != msb sz d, c⟩

/-- Flags of a subtraction `r = sub(sz, d, v)` (40_datapath.md R140, R143). -/
def subFlags (sz : Size) (d v : Word) : Flags :=
  let r := sub sz d v
  let c := decide (d.toNat < v.toNat)
  ⟨c, msb sz r, r == 0#32, msb sz d != msb sz v && msb sz r != msb sz d, c⟩

/-- Flags of a comparison: those of a subtraction, X kept (40_datapath.md R135). -/
def cmpFlags (s : State) (sz : Size) (d v : Word) : Flags := { subFlags sz d v with x := s.flags.x }

/-- Flags of a shift with result `r` and last bit out `c` by `count` (40_datapath.md R136, R141). -/
def shiftFlags (s : State) (sz : Size) (r : Word) (count : Nat) (c : Bool) : Flags :=
  ⟨if count = 0 then s.flags.x else c, msb sz r, r == 0#32, false, c⟩

/-! ### Instructions of one shape -/

/-- MOVE by size. -/
def moveInstr (sz : Size) (src dst : Ea) : Instr :=
  match sz with
  | .b => .moveB src dst
  | .w => .moveW src dst
  | .l => .moveL src dst

/-- ADD <ea>,Dn by size. -/
def addToRegInstr (sz : Size) (src : Ea) (dn : RegNum) : Instr :=
  match sz with
  | .b => .addBEaDn src dn
  | .w => .addWEaDn src dn
  | .l => .addLEaDn src dn

/-- SUB <ea>,Dn by size. -/
def subToRegInstr (sz : Size) (src : Ea) (dn : RegNum) : Instr :=
  match sz with
  | .b => .subBEaDn src dn
  | .w => .subWEaDn src dn
  | .l => .subLEaDn src dn

/-- CMP by size. -/
def cmpInstr (sz : Size) (src : Ea) (dn : RegNum) : Instr :=
  match sz with
  | .b => .cmpB src dn
  | .w => .cmpW src dn
  | .l => .cmpL src dn

/-- ADD Dn,<ea> by size. -/
def addToMemInstr (sz : Size) (dn : RegNum) (dst : Ea) : Instr :=
  match sz with
  | .b => .addBDnEa dn dst
  | .w => .addWDnEa dn dst
  | .l => .addLDnEa dn dst

/-- SUB Dn,<ea> by size. -/
def subToMemInstr (sz : Size) (dn : RegNum) (dst : Ea) : Instr :=
  match sz with
  | .b => .subBDnEa dn dst
  | .w => .subWDnEa dn dst
  | .l => .subLDnEa dn dst

/-- ADDQ by size. -/
def addqInstr (sz : Size) (q : BitVec 3) (dst : Ea) : Instr :=
  match sz with
  | .b => .addqB q dst
  | .w => .addqW q dst
  | .l => .addqL q dst

/-- ASR on a data register by size. -/
def asrInstr (sz : Size) (c : ShiftCount) (dn : RegNum) : Instr :=
  match sz with
  | .b => .asrB c dn
  | .w => .asrW c dn
  | .l => .asrL c dn

/-- LSR on a data register by size. -/
def lsrInstr (sz : Size) (c : ShiftCount) (dn : RegNum) : Instr :=
  match sz with
  | .b => .lsrB c dn
  | .w => .lsrW c dn
  | .l => .lsrL c dn

/-- LSL on a data register by size. -/
def lslInstr (sz : Size) (c : ShiftCount) (dn : RegNum) : Instr :=
  match sz with
  | .b => .lslB c dn
  | .w => .lslW c dn
  | .l => .lslL c dn

/-- ROR on a data register by size. -/
def rorInstr (sz : Size) (c : ShiftCount) (dn : RegNum) : Instr :=
  match sz with
  | .b => .rorB c dn
  | .w => .rorW c dn
  | .l => .rorL c dn

/-- ROL on a data register by size. -/
def rolInstr (sz : Size) (c : ShiftCount) (dn : RegNum) : Instr :=
  match sz with
  | .b => .rolB c dn
  | .w => .rolW c dn
  | .l => .rolL c dn

/-! ### Whole-machine relations -/

/-- What two outcomes of a step must have in common: both go on, and their states are related; or both end, for the
same reason, with related contexts. -/
def RelOutcome (R : State → State → Prop) (x y : Host.Outcome State Fault Refusal) : Prop :=
  match x, y with
  | .next s, .next t => R s t
  | .fault f, .fault g => diagnosticOf f = diagnosticOf g ∧ R f.left g.left
  | _, _ => False

/-- Two contexts that differ at most in the condition-code records, with equal flags (10_state.md R34). -/
def FlagEquivalent (s t : State) : Prop :=
  t = (s.withCc t.cc).withXsrc t.xsrc ∧ t.flags = s.flags

/-- Two contexts that differ at most in what no rule reads: `irq_pending` (10_state.md R29) and the stale shadow slot
(R23). -/
def UnreadEquivalent (s t : State) : Prop :=
  if s.sup then t = (s.withIrqPending t.irqPending).withSspShadow t.sspShadow
  else t = (s.withIrqPending t.irqPending).withUspShadow t.uspShadow

/-- A context that a faulting base instruction may leave behind: the one before it but for the condition-code records,
the free values drawn and the record of requests (60_exceptions.md R276). -/
def LeftBy (s t : State) : Prop :=
  t = (((s.withCc t.cc).withXsrc t.xsrc).withDraws t.draws).withBus t.bus

end Sys2Proof.Machine
end

