-- ==== Sys2Proof/Certificates/Slice0/Obligations.lean ====
section
/-! DEFINITION. The statements for the provers. Where a statement reads an operand, its hypotheses say that the address
space accepts the requests and answers reads from memory; `SpaceOk` is an invariant (StepKeepsSpaceOk). A docstring names
the rules of spec/ it formalises; where the spec marks such a rule as its own inference (derived, decision, from general
knowledge), OBLIGATIONS.json gives the statement the basis derived and says so. -/

open Sys2Proof Sys2Proof.Machine

/-! ### Encoding, dispatch and the step -/

/-- Every well-formed instruction is read back from its opcode word (R81, R85, R104). -/
def Obligations.DecodeOfEncode : Prop := ∀ i : Instr, i.wf = true → decodeOp (encode i) = some i

/-- Every bit of an admitted opcode word is in the instruction the decoder reads, which meets its row's constraints
(R81, R85). -/
def Obligations.EncodeOfDecode : Prop :=
  ∀ (op : Half) (i : Instr), decodeOp op = some i → i.wf = true ∧ encode i = op

/-- Words written out from the formats of R81, one or more of each admitted line of R104, and words of R105 that are
illegal. -/
def Obligations.KnownWordsDecode : Prop :=
  -- line 0000: BSET D3,D2; BCLR D1,(A0); BSET #n,(A0); BCLR #n,D5
  (∀ p ∈ ([
      (0x07C2#16, some (.bsetDyn 3 (.dn 2))),
      (0x0390#16, some (.bclrDyn 1 (.mem (.ind 0)))),
      (0x08D0#16, some (.bsetStatic (.mem (.ind 0)))),
      (0x0885#16, some (.bclrStatic (.dn 5)))] : List (Half × Option Instr)), decodeOp p.1 = p.2) ∧
  -- lines 0001 to 0011: MOVE.B (A1)+,D2; MOVE.L #,xxx.L; MOVEA.L D3,A4; MOVE.W D1,D2; MOVEA.W A1,A6
  (∀ p ∈ ([
      (0x1419#16, some (.moveB (.mem (.postInc 1)) (.dn 2))),
      (0x23FC#16, some (.moveL .imm (.mem .absL))),
      (0x2843#16, some (.moveaL (.dn 3) 4)),
      (0x3401#16, some (.moveW (.dn 1) (.dn 2))),
      (0x3C49#16, some (.moveaW (.an 1) 6))] : List (Half × Option Instr)), decodeOp p.1 = p.2) ∧
  -- line 0100: MOVE SR,D3; MOVE #,SR; JSR xxx.L; JMP (A0); RTE; RTS; TRAP #15
  (∀ p ∈ ([
      (0x40C3#16, some (.moveFromSr (.dn 3))),
      (0x46FC#16, some (.moveToSr .imm)),
      (0x4EB9#16, some (.jsr (.mem .absL))),
      (0x4ED0#16, some (.jmp (.mem (.ind 0)))),
      (0x4E73#16, some .rte),
      (0x4E75#16, some .rts),
      (0x4E4F#16, some (.trap 15))] : List (Half × Option Instr)), decodeOp p.1 = p.2) ∧
  -- line 0101: ADDQ.B #1,D0; ADDQ.W #8,A2; ADDQ.L #3,-(A5); SEQ D4; DBF D1
  (∀ p ∈ ([
      (0x5200#16, some (.addqB 1 (.dn 0))),
      (0x504A#16, some (.addqW 0 (.an 2))),
      (0x56A5#16, some (.addqL 3 (.mem (.preDec 5)))),
      (0x57C4#16, some (.scc .eq (.dn 4))),
      (0x51C9#16, some (.dbcc .f 1))] : List (Half × Option Instr)), decodeOp p.1 = p.2) ∧
  -- line 0110: BRA *+6; BSR with a word; BEQ *+8
  (∀ p ∈ ([
      (0x6004#16, some (.bra 4)),
      (0x6100#16, some (.bsr 0)),
      (0x6706#16, some (.bcc .eq 6))] : List (Half × Option Instr)), decodeOp p.1 = p.2) ∧
  -- line 0111: MOVEQ #0,D0; MOVEQ #-1,D6
  (∀ p ∈ ([
      (0x7000#16, some (.moveq 0 0)),
      (0x7CFF#16, some (.moveq 6 0xFF))] : List (Half × Option Instr)), decodeOp p.1 = p.2) ∧
  -- lines 1001, 1011, 1101: SUB.W #,D0; SUB.B D2,(A3)+; CMP.W #,D0; CMP.L A1,D7; ADD.W D4,D5; ADD.L D1,(A0)
  (∀ p ∈ ([
      (0x907C#16, some (.subWEaDn .imm 0)),
      (0x951B#16, some (.subBDnEa 2 (.mem (.postInc 3)))),
      (0xB07C#16, some (.cmpW .imm 0)),
      (0xBE89#16, some (.cmpL (.an 1) 7)),
      (0xDA44#16, some (.addWEaDn (.dn 4) 5)),
      (0xD390#16, some (.addLDnEa 1 (.mem (.ind 0))))] : List (Half × Option Instr)), decodeOp p.1 = p.2) ∧
  -- line 1110: LSR.L D1,D0; ASR.W #2,D3; LSL.B #8,D1; ROR.B D7,D2; ROL.W #1,D6; ASR (A0); LSL -(A1); ROL xxx.W
  (∀ p ∈ ([
      (0xE2A8#16, some (.lsrL (.reg 1) 0)),
      (0xE443#16, some (.asrW (.imm 2) 3)),
      (0xE109#16, some (.lslB (.imm 0) 1)),
      (0xEE3A#16, some (.rorB (.reg 7) 2)),
      (0xE35E#16, some (.rolW (.imm 1) 6)),
      (0xE0D0#16, some (.asrMem (.mem (.ind 0)))),
      (0xE3E1#16, some (.lslMem (.mem (.preDec 1)))),
      (0xE7F8#16, some (.rolMem (.mem .absW)))] : List (Half × Option Instr)), decodeOp p.1 = p.2) ∧
  -- illegal: MOVE.B D0,A0; NOP; JMP (A0)+; ASL.L D0,D0; MOVEQ with bit 8; ADDX.B D0,D1
  (∀ p ∈ ([
      (0x1040#16, none),
      (0x4E71#16, none),
      (0x4ED8#16, none),
      (0xE1A0#16, none),
      (0x7100#16, none),
      (0xD300#16, none)] : List (Half × Option Instr)), decodeOp p.1 = p.2)

/-- `set_instruction` writes every slot whose fixed bits match and no other, over what stood there; so the installation
0x5040 with mask 0x0E07 writes the 64 slots 0x5040 | a << 9 | r and no other (R82). -/
def Obligations.SetInstructionRoutes : Prop :=
  (∀ (base msk op : Half) (k : Nat) (aux : BitVec 64) (s : State),
    (s.setInstruction base msk k aux).tableEntry op =
      if op &&& ~~~msk = base &&& ~~~msk then (.collab k, aux) else s.tableEntry op) ∧
  ∀ (op : Half) (k : Nat) (aux : BitVec 64) (s : State),
    (s.setInstruction 0x5040#16 0x0E07#16 k aux).tableEntry op =
      if ∃ a r : BitVec 3, op = 0x5040#16 ||| (a.setWidth 16 <<< 9) ||| r.setWidth 16 then (.collab k, aux)
      else s.tableEntry op

/-- A step whose opcode word is admitted and whose slot no collaborator holds is `exec` of the decoded instruction, after
the one request that fetches the opcode (R86). -/
def Obligations.StepRunsDecoded : Prop :=
  ∀ (s : State) (i : Instr),
    s.readable s.programFc s.pc .w = true →
    findInstallation s.installed ((s.load s.pc .w).setWidth 16) = none →
    decodeOp ((s.load s.pc .w).setWidth 16) = some i →
    step s = exec i (s.withBus [.get s.programFc s.pc .w])

/-- An opcode word whose slot is Illegal raises IllegalInstruction with the word and the pc, and changes no state (R105,
R263, R271); the uninstalled TRAP slot is one (R107). -/
def Obligations.IllegalSlotFaults : Prop :=
  ∀ s : State,
    s.readable s.programFc s.pc .w = true →
    (s.tableEntry ((s.load s.pc .w).setWidth 16)).1 = .illegal →
    step s = .fault (.illegalInstruction ((s.load s.pc .w).setWidth 16) s.pc (s.withBus [.get s.programFc s.pc .w]))

/-- A rejected opcode fetch ends the step with BusError, a read with the program function code, and nothing changed
(R86, R273). -/
def Obligations.OpcodeFetchBusError : Prop :=
  ∀ s : State,
    s.granted s.programFc .read s.pc .w = false →
    step s = .fault (.busError s.pc s.programFc .read none s.pc (s.withBus [.get s.programFc s.pc .w]))

/-- A slot a collaborator holds runs its handler, whatever the opcode word: the accesses of the record the host scripted,
then its outcome, a BusError with the opcode and the pc of the step; with no record scripted, a program of COLLAB's, which
goes on by what it reads of the context and by the answers to its requests. The block does not advance the pc (R86, R262,
R279; the form of a record and of a program is the model's choice, log entry 15). -/
def Obligations.StepCallsCollaborator : Prop :=
  (∀ (s : State) (p : Installation),
    let op : Half := (s.load s.pc .w).setWidth 16
    let u := s.withBus [.get s.programFc s.pc .w]
    s.readable s.programFc s.pc .w = true → findInstallation s.installed op = some p →
    (∀ (r : CollabResponse) (rest : List CollabResponse), s.collabIn = r :: rest →
      step s =
        let t := applyActions r.actions (u.withCollabIn rest)
        match r.outcome with
        | none => .next t
        | some (.busError a fc kind) => .fault (.busError a fc kind (some op) s.pc t)
        | some e => .fault (faultOf (some op) s.pc t e)) ∧
    (s.collabIn = [] →
      step s = outcomeOf (some op) s.pc
        (runProgram (Config.collab p.handler op p.aux s.draws) (u.withDraws (s.draws + 1))))) ∧
  (∀ (next : ContextView → CollabProgram) (t : State), runProgram (.look next) t = runProgram (next t.view) t) ∧
  ∀ (next : Option Word → CollabProgram) (fc : FunctionCode) (a : Word) (sz : Size) (t : State),
    let u := t.withBus (t.bus ++ [.get fc a sz])
    (t.readable fc a sz = true →
      runProgram (.act (.get fc a sz) next) t = runProgram (next (some (t.load a sz))) u) ∧
    (t.granted fc .read a sz = false → runProgram (.act (.get fc a sz) next) t = runProgram (next none) u)

/-! ### Datapath -/

/-- Sign extension round-trips (R122). -/
def Obligations.SignExtensionRoundTrip : Prop :=
  ∀ (sz : Size) (v : Int), -(2 ^ (bits sz - 1) : Int) ≤ v → v ≤ 2 ^ (bits sz - 1) - 1 →
    svalue sz (uvalue sz v) = v

/-- A register write of a size keeps the bits above it and takes the others from the value; a register read of a size
takes the same bits and clears the others (R120, R123, R124). -/
def Obligations.PutKeepsUpperBits : Prop :=
  ∀ (sz : Size) (word v : Word) (k : Nat), k < 32 →
    (putSized sz word v).getLsbD k = (if k < bits sz then v.getLsbD k else word.getLsbD k) ∧
      (getSized sz v).getLsbD k = (decide (k < bits sz) && v.getLsbD k) ∧
      bits sz = 8 * bytes sz ∧ bytes sz = (match sz with | .b => 1 | .w => 2 | .l => 4)

/-- `add` and `sub` are the exact results modulo 2 to the size (R125, R126, R151). -/
def Obligations.AddSubModulo : Prop :=
  ∀ (sz : Size) (d v : Word),
    ((add sz d v).toNat : Int) = ((d.toNat : Int) + v.toNat) % 2 ^ bits sz ∧
      ((sub sz d v).toNat : Int) = ((d.toNat : Int) - v.toNat) % 2 ^ bits sz

/-- V of an addition and of a subtraction is signed overflow: the exact result is not the result's signed value (R139,
R140). -/
def Obligations.OverflowIsSigned : Prop :=
  ∀ (sz : Size) (d v : Word), getSized sz d = d → getSized sz v = v →
    ((addFlags sz d v).v = true ↔ svalue sz d + svalue sz v ≠ svalue sz (add sz d v)) ∧
      ((subFlags sz d v).v = true ↔ svalue sz d - svalue sz v ≠ svalue sz (sub sz d v))

/-- For a subtract record, `lt()` is signed less-than and `cs()` unsigned less-than, at the record's size (R140, R147). -/
def Obligations.CompareQueries : Prop :=
  ∀ (sz : Size) (d v : Word) (s : State), getSized sz d = d → getSized sz v = v →
    (qLt (setCcCmp sz (sub sz d v) d v s).flags = true ↔ svalue sz d < svalue sz v) ∧
      (qCs (setCcCmp sz (sub sz d v) d v s).flags = true ↔ d.toNat < v.toNat) ∧
      (qEq (setCcCmp sz (sub sz d v) d v s).flags = true ↔ d = v)

/-- Shifts bit by bit at every count, by zero and at or past the width among them (R127), and the last bit shifted out:
bit n - c of the value to the left, bit c - 1 to the right, past the width 0 or, arithmetic, the sign bit (R141). -/
def Obligations.ShiftCorners : Prop :=
  ∀ (sz : Size) (v : Word) (c : Nat), getSized sz v = v →
    (∀ k, k < 32 →
      (lsl sz v c).getLsbD k = (decide (k < bits sz) && decide (c ≤ k) && v.getLsbD (k - c)) ∧
        (lsr sz v c).getLsbD k = v.getLsbD (k + c) ∧
        (asr sz v c).getLsbD k =
          (decide (k < bits sz) && if k + c < bits sz then v.getLsbD (k + c) else v.getLsbD (bits sz - 1))) ∧
      (bits sz ≤ c → asr sz v c = (if v.getLsbD (bits sz - 1) then mask sz else 0#32) ∧ lsl sz v c = 0#32 ∧
        lsr sz v c = 0#32) ∧
      (lsl sz v 0 = v ∧ lsr sz v 0 = v ∧ asr sz v 0 = v) ∧
      (∀ tag ∈ [Strategy.shiftLsl, .shiftLsr, .shiftAsr], shiftCarry tag (bits sz) v 0 = false) ∧
      (0 < c → c ≤ bits sz →
        shiftCarry .shiftLsl (bits sz) v c = v.getLsbD (bits sz - c) ∧
          shiftCarry .shiftLsr (bits sz) v c = v.getLsbD (c - 1) ∧
          shiftCarry .shiftAsr (bits sz) v c = v.getLsbD (c - 1)) ∧
      (bits sz < c →
        shiftCarry .shiftLsl (bits sz) v c = false ∧ shiftCarry .shiftLsr (bits sz) v c = false ∧
          shiftCarry .shiftAsr (bits sz) v c = v.getLsbD (bits sz - 1))

/-- A rotate left by a count moves bit k to bit k + count modulo the width, a rotate right moves it back; each keeps to the
width, and a rotate right undoes a rotate left by the same count (R128). -/
def Obligations.RotatesInverse : Prop :=
  ∀ (sz : Size) (v : Word) (c : Nat), getSized sz v = v →
    (∀ k, k < bits sz →
      (rol sz v c).getLsbD ((k + c) % bits sz) = v.getLsbD k ∧
        (ror sz v c).getLsbD k = v.getLsbD ((k + c) % bits sz)) ∧
      getSized sz (rol sz v c) = rol sz v c ∧ getSized sz (ror sz v c) = ror sz v c ∧
      ror sz (rol sz v c) c = v

/-- The sixteen condition tests (R150). -/
def Obligations.ConditionTests : Prop :=
  ∀ (s : State),
    let f := s.flags
    s.test .t = true ∧ s.test .f = false ∧ s.test .hi = (!f.c && !f.z) ∧ s.test .ls = (f.c || f.z) ∧
      s.test .cc = (!f.c) ∧ s.test .cs = f.c ∧ s.test .ne = (!f.z) ∧ s.test .eq = f.z ∧
      s.test .vc = (!f.v) ∧ s.test .vs = f.v ∧ s.test .pl = (!f.n) ∧ s.test .mi = f.n ∧
      s.test .ge = (f.n == f.v) ∧ s.test .lt = (f.n != f.v) ∧ s.test .gt = (!f.z && f.n == f.v) ∧
      s.test .le = (f.z || f.n != f.v)

/-- `set_sr`: both records become the literal of bits 4 to 0, S becomes bit 13 with the stack pointers kept, and the
status word read afterwards is the word written with its unused bits 0 (R145, R146). -/
def Obligations.StatusWordReadsBack : Prop :=
  ∀ (v : Half) (s : State),
    let t := setSr v s
    t.sr = v &&& 0x201F#16 ∧ t.cc = literalRecord (v.setWidth 5) ∧ t.xsrc = literalRecord (v.setWidth 5) ∧
      t.sup = v.getLsbD 13 ∧ t.usp = s.usp ∧ t.ssp = s.ssp ∧ SameABut spReg s t ∧ SameD s t ∧ t.pc = s.pc ∧
      t.mem = s.mem ∧ SameHost s t ∧ t.draws = s.draws ∧ t.bus = s.bus

/-- A change of mode keeps both stack pointers and writes S and the stack pointers only (R23, R24). -/
def Obligations.ModeChangeKeepsStackPointers : Prop :=
  ∀ (b : Bool) (s : State),
    let t := s.setSupervisorState b
    t.sup = b ∧ t.usp = s.usp ∧ t.ssp = s.ssp ∧ SameABut spReg s t ∧ SameD s t ∧ t.pc = s.pc ∧ SameCc s t ∧
      t.mem = s.mem ∧ SameHost s t ∧ t.draws = s.draws ∧ t.bus = s.bus

/-- The step of post-increment and pre-decrement in bytes: 2, 2, 4 on A7, word-aligned even for a byte; 1, 2, 4 on every
other address register (R169). -/
def Obligations.IncrementSteps : Prop :=
  (stepSize .b 7#3 = 2#32 ∧ stepSize .w 7#3 = 2#32 ∧ stepSize .l 7#3 = 4#32) ∧
    ∀ n : RegNum, n ≠ 7#3 → stepSize .b n = 1#32 ∧ stepSize .w n = 2#32 ∧ stepSize .l n = 4#32

/-- The address of each memory mode from its extension word (R166 to R177); the register an index word names (R12); bits
10:8 of an index word ignored, bit 11 choosing the whole register or its sign-extended low word (R92, R106, R172); the
function code of each mode's reads, and of data and program accesses (R28, R52); how many bytes of extension each operand
has (R91). -/
def Obligations.IndexWord : Prop :=
  ∀ (ext : Word) (s : State) (sz : Size) (off : Nat),
    let d8 : Word := (ext.setWidth 8).signExtend 32
    let d16 : Word := (ext.setWidth 16).signExtend 32
    let here : Word := s.pc + BitVec.ofNat 32 off
    (∀ n : RegNum,
      memAddress (.ind n) sz off ext s = s.areg n ∧
        memAddress (.postInc n) sz off ext s = s.areg n ∧
        memAddress (.preDec n) sz off ext s = s.areg n - stepSize sz n ∧
        memAddress (.disp n) sz off ext s = s.areg n + d16 ∧
        memAddress (.index n) sz off ext s = s.areg n + d8 + indexValue ext s) ∧
      memAddress .absW sz off ext s = d16 ∧
      memAddress .absL sz off ext s = ext ∧
      memAddress .pcDisp sz off ext s = here + d16 ∧
      memAddress .pcIndex sz off ext s = here + d8 + indexValue ext s ∧
      (ext.getLsbD 11 = true → indexValue ext s = s.rreg (ext.extractLsb' 12 4)) ∧
      (ext.getLsbD 11 = false →
        indexValue ext s = ((s.rreg (ext.extractLsb' 12 4)).setWidth 16).signExtend 32) ∧
      (∀ k : BitVec 3, s.rreg (0#1 ++ k) = s.dreg k ∧ s.rreg (1#1 ++ k) = s.areg k) ∧
      (∀ m : MemMode, (m = .pcIndex ∨ ∃ n, m = .index n) →
        memAddress m sz off ext s = memAddress m sz off (ext &&& 0xF8FF#32) s) ∧
      (∀ m : MemMode, memReadFc m s =
        if m = .pcDisp ∨ m = .pcIndex then (if s.sup then .supervisorProgram else .userProgram)
        else if s.sup then .supervisorData else .userData) ∧
      s.dataFc = (if s.sup then .supervisorData else .userData) ∧
      s.programFc = (if s.sup then .supervisorProgram else .userProgram) ∧
      (∀ n : RegNum, eaExtensionSize (.dn n) sz = 0 ∧ eaExtensionSize (.an n) sz = 0 ∧
        eaExtensionSize (.mem (.ind n)) sz = 0 ∧ eaExtensionSize (.mem (.postInc n)) sz = 0 ∧
        eaExtensionSize (.mem (.preDec n)) sz = 0 ∧ eaExtensionSize (.mem (.disp n)) sz = 2 ∧
        eaExtensionSize (.mem (.index n)) sz = 2) ∧
      (∀ m ∈ [MemMode.absW, .pcDisp, .pcIndex], eaExtensionSize (.mem m) sz = 2) ∧
      eaExtensionSize (.mem .absL) sz = 4 ∧ eaExtensionSize .imm sz = (if sz = .l then 4 else 2)

/-! ### Memory -/

/-- Every accepted read that memory answers delivers its bytes big-endian, a fetch too, at byte size the whole word (R56);
every accepted write stores
its value; a value stored is loaded back, each of its bytes stands at its big-endian place, and every other byte stays (R50,
R53, R54). -/
def Obligations.StoreThenLoad : Prop :=
  ∀ (s : State) (a : Word) (sz : Size) (v : Word),
    (∀ fc, s.readable fc a sz = true → memRead fc a sz s = .ok (s.load a sz) (s.withBus (s.bus ++ [.get fc a sz]))) ∧
      (∀ off, s.readable s.programFc (s.codeAddr off) (if sz = .l then .l else .w) = true →
        fetch off sz s =
          .ok (s.load (s.codeAddr off) (if sz = .l then .l else .w))
            (s.withBus (s.bus ++ [.get s.programFc (s.codeAddr off) (if sz = .l then .l else .w)]))) ∧
      (∀ fc, s.writable fc a sz = true →
        memWrite fc a sz v s = .ok () ((s.withBus (s.bus ++ [.put fc a sz (getSized sz v)])).store a sz v)) ∧
      getSized sz (s.load a sz) = s.load a sz ∧
      (∀ k, k < bytes sz →
        s.peek (a + BitVec.ofNat 32 k) = (s.load a sz >>> (8 * (bytes sz - 1 - k))).setWidth 8) ∧
      (SpaceOk s →
        (s.store a sz v).load a sz = getSized sz v ∧
          (∀ k, k < bytes sz →
            (s.store a sz v).peek (a + BitVec.ofNat 32 k) = (v >>> (8 * (bytes sz - 1 - k))).setWidth 8) ∧
          SameMemoryBut a sz s (s.store a sz v))

/-- A read the outside world answers goes on with a fresh free value of the request's size and changes nothing else but
the count of free values and the record of requests (R65; the form of the free value is the model's, log entry 10). -/
def Obligations.OracleReadGoesOn : Prop :=
  ∀ (s : State) (fc : FunctionCode) (a : Word) (sz : Size),
    s.granted fc .read a sz = true → s.isOracle a sz = true →
    ∃ v, getSized sz v = v ∧
      memRead fc a sz s = .ok v ((s.withBus (s.bus ++ [.get fc a sz])).withDraws (s.draws + 1))

/-- A rejected request raises BusError with its address, function code and kind, and has no effect; only the record of
requests, the model's own (log entry 18), shows it (R61, R273). -/
def Obligations.RejectedRequestHasNoEffect : Prop :=
  ∀ (s : State) (fc : FunctionCode) (a v : Word) (sz : Size),
    (s.granted fc .read a sz = false →
      memRead fc a sz s = .error (.busError a fc .read) (s.withBus (s.bus ++ [.get fc a sz]))) ∧
      (s.granted fc .write a sz = false →
        memWrite fc a sz v s = .error (.busError a fc .write) (s.withBus (s.bus ++ [.put fc a sz (getSized sz v)])))

/-- At reset the address space is in its canonical form (the model's choice of SPACE, log entries 6 to 8). -/
def Obligations.ResetSpaceOk : Prop := SpaceOk State.reset

/-- Every step keeps the address space in its canonical form, collaborators' steps among them (the model's own form of
SPACE, log entries 6 to 8). -/
def Obligations.StepKeepsSpaceOk : Prop := ∀ s t : State, SpaceOk s → step s = .next t → SpaceOk t

/-- A step keeps the dispatch table (R306, R31; that no handler changes it is the model's choice, log entry 15). It keeps
the layout of the address space too, its regions and the bits it decodes: that this is fixed in a run is no rule of the spec
but the model's choice of SPACE, log entries 6 and 8. -/
def Obligations.StepKeepsConfiguration : Prop :=
  ∀ s t : State, step s = .next t →
    t.installed = s.installed ∧ t.regions = s.regions ∧ t.decodeBits = s.decodeBits

/-- The context at reset: the choice of LAUNCH of 95_test_vectors.md section 0 (the model's, log entries 1 to 5), over
the base dispatch table (R36, R84). -/
def Obligations.ResetContext : Prop :=
  (∀ n, State.reset.dreg n = 0#32) ∧ (∀ n, State.reset.areg n = 0#32) ∧ State.reset.usp = 0#32 ∧
    State.reset.pc = 0x1000#32 ∧ State.reset.sr = 0x2000#16 ∧
    ∀ op, State.reset.tableEntry op = (baseHandler op, 0)

/-! ### Data movement -/

/-- MOVE: value, flags, increments, pc, requests in order, and frame (R190). -/
def Obligations.MoveResult : Prop :=
  ∀ (sz : Size) (src dst : Ea) (s : State),
    let i := moveInstr sz src dst
    let off := 2 + eaExtensionSize src sz
    let v := operandValue s src sz 2
    i.wf = true →
    extReadable s src sz 2 = true → extReadable s dst sz off = true →
    operandReadable s src sz 2 = true → operandWritable s dst sz off = true →
    ∃ t, exec i s = .next t ∧ Wrote dst sz off v s t ∧ t.flags = moveFlags s sz v ∧ t.xsrc = s.xsrc ∧
      (∀ n, t.areg n = s.areg n + finishDelta src sz n + finishDelta dst sz n) ∧
      t.pc = s.pc + BitVec.ofNat 32 (instrLength i) ∧
      t.bus = s.bus ++ extRequests s src sz 2 ++ extRequests s dst sz off ++ readRequests s src sz 2 ++
        writeRequests s dst sz off v ∧
      SameSystem s t ∧ t.draws = s.draws

/-- A MOVE whose write is rejected: BusError on the write, the flags already set, nothing else changed (R190, R276). -/
def Obligations.MoveWriteBusError : Prop :=
  ∀ (sz : Size) (src : Ea) (m : MemMode) (s : State),
    let i := moveInstr sz src (.mem m)
    let off := 2 + eaExtensionSize src sz
    let v := operandValue s src sz 2
    let a := operandAddr s m sz off
    i.wf = true →
    extReadable s src sz 2 = true → extReadable s (.mem m) sz off = true →
    operandReadable s src sz 2 = true → s.granted s.dataFc .write a sz = false →
    ∃ left, exec i s = .fault (.busError a s.dataFc .write (some (encode i)) s.pc left) ∧
      left.flags = moveFlags s sz v ∧ left = (s.withCc left.cc).withBus left.bus

/-- MOVEA writes all 32 bits, a word sign-extended, before `finish`, and changes no flag (R191). -/
def Obligations.MoveaResult : Prop :=
  ∀ (src : Ea) (an : RegNum) (s : State), ∀ p ∈ [(Instr.moveaW src an, Size.w), (Instr.moveaL src an, Size.l)],
    extReadable s src p.2 2 = true → operandReadable s src p.2 2 = true →
    ∃ t, exec p.1 s = .next t ∧
      t.areg an =
        (if p.2 = .w then ((operandValue s src .w 2).setWidth 16).signExtend 32 else operandValue s src .l 2) +
          finishDelta src p.2 an ∧
      (∀ n, n ≠ an → t.areg n = s.areg n + finishDelta src p.2 n) ∧
      SameD s t ∧ SameMemory s t ∧ SameCc s t ∧ t.pc = s.pc + BitVec.ofNat 32 (instrLength p.1) ∧
      t.bus = s.bus ++ extRequests s src p.2 2 ++ readRequests s src p.2 2 ∧ SameSystem s t ∧ t.draws = s.draws

/-- MOVEQ (R192). -/
def Obligations.MoveqResult : Prop :=
  ∀ (dn : RegNum) (data : BitVec 8) (s : State),
    ∃ t, exec (.moveq dn data) s = .next t ∧ t.dreg dn = data.signExtend 32 ∧ SameDBut dn s t ∧
      t.flags = moveFlags s .l (data.signExtend 32) ∧ t.xsrc = s.xsrc ∧ t.pc = s.pc + 2#32 ∧
      SameA s t ∧ SameMemory s t ∧ SameSystem s t ∧ t.draws = s.draws ∧ t.bus = s.bus

/-- MOVE from SR: the status word, in either mode, without a read of the destination (R193). -/
def Obligations.MoveFromSrResult : Prop :=
  ∀ (dst : Ea) (s : State),
    (Instr.moveFromSr dst).wf = true → extReadable s dst .w 2 = true → operandWritable s dst .w 2 = true →
    ∃ t, exec (.moveFromSr dst) s = .next t ∧ Wrote dst .w 2 (s.sr.setWidth 32) s t ∧ SameCc s t ∧
      (∀ n, t.areg n = s.areg n + finishDelta dst .w n) ∧
      t.pc = s.pc + BitVec.ofNat 32 (instrLength (.moveFromSr dst)) ∧
      t.bus = s.bus ++ extRequests s dst .w 2 ++ writeRequests s dst .w 2 (s.sr.setWidth 32) ∧
      SameSystem s t ∧ t.draws = s.draws

/-! ### Integer arithmetic -/

/-- ADD and SUB to a data register (R200, R203). -/
def Obligations.ArithToRegister : Prop :=
  ∀ (sz : Size) (src : Ea) (dn : RegNum) (s : State),
    let v := operandValue s src sz 2
    let d := getSized sz (s.dreg dn)
    ∀ p ∈ [(addToRegInstr sz src dn, add sz d v, addFlags sz d v),
        (subToRegInstr sz src dn, sub sz d v, subFlags sz d v)],
      p.1.wf = true → extReadable s src sz 2 = true → operandReadable s src sz 2 = true →
      ∃ t, exec p.1 s = .next t ∧ t.dreg dn = putSized sz (s.dreg dn) p.2.1 ∧ SameDBut dn s t ∧ t.flags = p.2.2 ∧
        (∀ n, t.areg n = s.areg n + finishDelta src sz n) ∧ SameMemory s t ∧
        t.pc = s.pc + BitVec.ofNat 32 (instrLength p.1) ∧
        t.bus = s.bus ++ extRequests s src sz 2 ++ readRequests s src sz 2 ∧ SameSystem s t ∧ t.draws = s.draws

/-- ADD and SUB to memory: one read and one write at one address (R201, R204, R180). -/
def Obligations.ArithToMemory : Prop :=
  ∀ (sz : Size) (dst : Ea) (dn : RegNum) (s : State),
    let d := operandValue s dst sz 2
    let v := getSized sz (s.dreg dn)
    ∀ p ∈ [(addToMemInstr sz dn dst, add sz d v, addFlags sz d v),
        (subToMemInstr sz dn dst, sub sz d v, subFlags sz d v)],
      p.1.wf = true → extReadable s dst sz 2 = true → operandReadable s dst sz 2 = true →
      operandWritable s dst sz 2 = true →
      ∃ t, exec p.1 s = .next t ∧ Wrote dst sz 2 p.2.1 s t ∧ t.flags = p.2.2 ∧
        (∀ n, t.areg n = s.areg n + finishDelta dst sz n) ∧ t.pc = s.pc + BitVec.ofNat 32 (instrLength p.1) ∧
        t.bus = s.bus ++ extRequests s dst sz 2 ++ readRequests s dst sz 2 ++ writeRequests s dst sz 2 p.2.1 ∧
        SameSystem s t ∧ t.draws = s.draws

/-- CMP: the flags of a subtraction, X kept, no result stored (R205). -/
def Obligations.CmpResult : Prop :=
  ∀ (sz : Size) (src : Ea) (dn : RegNum) (s : State),
    let i := cmpInstr sz src dn
    i.wf = true → extReadable s src sz 2 = true → operandReadable s src sz 2 = true →
    ∃ t, exec i s = .next t ∧
      t.flags = cmpFlags s sz (getSized sz (s.dreg dn)) (operandValue s src sz 2) ∧ t.xsrc = s.xsrc ∧
      SameD s t ∧ (∀ n, t.areg n = s.areg n + finishDelta src sz n) ∧ SameMemory s t ∧
      t.pc = s.pc + BitVec.ofNat 32 (instrLength i) ∧
      t.bus = s.bus ++ extRequests s src sz 2 ++ readRequests s src sz 2 ∧ SameSystem s t ∧ t.draws = s.draws

/-- ADDQ to a data register or to memory (R202). -/
def Obligations.AddqResult : Prop :=
  ∀ (sz : Size) (q : BitVec 3) (dst : Ea) (s : State),
    let i := addqInstr sz q dst
    let d := operandValue s dst sz 2
    let k := BitVec.ofNat 32 (if q = 0#3 then 8 else q.toNat)
    i.wf = true → (∀ n, dst ≠ .an n) →
    extReadable s dst sz 2 = true → operandReadable s dst sz 2 = true → operandWritable s dst sz 2 = true →
    ∃ t, exec i s = .next t ∧ Wrote dst sz 2 (add sz d k) s t ∧ t.flags = addFlags sz d k ∧
      (∀ n, t.areg n = s.areg n + finishDelta dst sz n) ∧ t.pc = s.pc + BitVec.ofNat 32 (instrLength i) ∧
      t.bus = s.bus ++ extRequests s dst sz 2 ++ readRequests s dst sz 2 ++ writeRequests s dst sz 2 (add sz d k) ∧
      SameSystem s t ∧ t.draws = s.draws

/-- ADDQ to an address register adds to all 32 bits at either size and changes no flag (R202). -/
def Obligations.AddqAddress : Prop :=
  ∀ (q : BitVec 3) (n : RegNum) (s : State), ∀ i ∈ [Instr.addqW q (.an n), Instr.addqL q (.an n)],
    ∃ t, exec i s = .next t ∧ t.areg n = s.areg n + BitVec.ofNat 32 (if q = 0#3 then 8 else q.toNat) ∧
      SameABut n s t ∧ SameD s t ∧ SameCc s t ∧ SameMemory s t ∧ t.pc = s.pc + 2#32 ∧ t.bus = s.bus ∧
      SameSystem s t ∧ t.draws = s.draws

/-! ### Shifts, rotates and bits -/

/-- ASR, LSR, LSL of a data register (R210, R211, R213, R215). -/
def Obligations.ShiftRegister : Prop :=
  ∀ (sz : Size) (count : ShiftCount) (dn : RegNum) (s : State),
    let c := countValue count s
    let v := getSized sz (s.dreg dn)
    ∀ p ∈ [(asrInstr sz count dn, asr sz v c, shiftCarry .shiftAsr (bits sz) v c),
        (lsrInstr sz count dn, lsr sz v c, shiftCarry .shiftLsr (bits sz) v c),
        (lslInstr sz count dn, lsl sz v c, shiftCarry .shiftLsl (bits sz) v c)],
      ∃ t, exec p.1 s = .next t ∧ t.dreg dn = putSized sz (s.dreg dn) p.2.1 ∧ SameDBut dn s t ∧
        t.flags = shiftFlags s sz p.2.1 c p.2.2 ∧ SameA s t ∧ SameMemory s t ∧ t.pc = s.pc + 2#32 ∧
        t.bus = s.bus ∧ SameSystem s t ∧ t.draws = s.draws

/-- ROR, ROL of a data register; all five flags are one fresh draw (R210, R217, R219, R137). -/
def Obligations.RotateRegister : Prop :=
  ∀ (sz : Size) (count : ShiftCount) (dn : RegNum) (s : State),
    let c := countValue count s
    let v := getSized sz (s.dreg dn)
    ∀ p ∈ [(rorInstr sz count dn, ror sz v c), (rolInstr sz count dn, rol sz v c)],
      ∃ t, exec p.1 s = .next t ∧ t.dreg dn = putSized sz (s.dreg dn) p.2 ∧ SameDBut dn s t ∧
        (∃ b, t.cc = literalRecord b ∧ t.xsrc = literalRecord b) ∧ t.draws = s.draws + 1 ∧
        SameA s t ∧ SameMemory s t ∧ t.pc = s.pc + 2#32 ∧ t.bus = s.bus ∧ SameSystem s t

/-- ASR, LSR, LSL of a memory word by one (R210, R212, R214, R216). -/
def Obligations.ShiftMemory : Prop :=
  ∀ (dst : Ea) (s : State),
    let v := operandValue s dst .w 2
    ∀ p ∈ [(Instr.asrMem dst, asr .w v 1, v.getLsbD 0), (Instr.lsrMem dst, lsr .w v 1, v.getLsbD 0),
        (Instr.lslMem dst, lsl .w v 1, v.getLsbD 15)],
      p.1.wf = true → extReadable s dst .w 2 = true → operandReadable s dst .w 2 = true →
      operandWritable s dst .w 2 = true →
      ∃ t, exec p.1 s = .next t ∧ Wrote dst .w 2 p.2.1 s t ∧ t.flags = shiftFlags s .w p.2.1 1 p.2.2 ∧
        (∀ n, t.areg n = s.areg n + finishDelta dst .w n) ∧ t.pc = s.pc + BitVec.ofNat 32 (instrLength p.1) ∧
        t.bus = s.bus ++ extRequests s dst .w 2 ++ readRequests s dst .w 2 ++ writeRequests s dst .w 2 p.2.1 ∧
        SameSystem s t ∧ t.draws = s.draws

/-- ROR, ROL of a memory word by one; all five flags are one fresh draw (R210, R218, R220, R137). -/
def Obligations.RotateMemory : Prop :=
  ∀ (dst : Ea) (s : State),
    let v := operandValue s dst .w 2
    ∀ p ∈ [(Instr.rorMem dst, ror .w v 1), (Instr.rolMem dst, rol .w v 1)],
      p.1.wf = true → extReadable s dst .w 2 = true → operandReadable s dst .w 2 = true →
      operandWritable s dst .w 2 = true →
      ∃ t, exec p.1 s = .next t ∧ Wrote dst .w 2 p.2 s t ∧
        (∃ b, t.cc = literalRecord b ∧ t.xsrc = literalRecord b) ∧ t.draws = s.draws + 1 ∧
        (∀ n, t.areg n = s.areg n + finishDelta dst .w n) ∧ t.pc = s.pc + BitVec.ofNat 32 (instrLength p.1) ∧
        t.bus = s.bus ++ extRequests s dst .w 2 ++ readRequests s dst .w 2 ++ writeRequests s dst .w 2 p.2 ∧
        SameSystem s t

/-- BSET and BCLR with the bit number in a register: the bit modulo 32 of a data register, modulo 8 of a byte of memory;
all five flags are one fresh draw (R230, R231, R233, R137). -/
def Obligations.BitDynamic : Prop :=
  ∀ (dn : RegNum) (dst : Ea) (s : State),
    let sz := bitOperandSize dst
    let v := operandValue s dst sz 2
    let k := (s.dreg dn).toNat % bits sz
    ∀ p ∈ [(Instr.bsetDyn dn dst, v ||| (1#32 <<< k)), (Instr.bclrDyn dn dst, v &&& ~~~(1#32 <<< k))],
      p.1.wf = true → extReadable s dst sz 2 = true → operandReadable s dst sz 2 = true →
      operandWritable s dst sz 2 = true →
      ∃ t, exec p.1 s = .next t ∧ Wrote dst sz 2 p.2 s t ∧
        (∃ b, t.cc = literalRecord b ∧ t.xsrc = literalRecord b) ∧ t.draws = s.draws + 1 ∧
        (∀ n, t.areg n = s.areg n + finishDelta dst sz n) ∧ t.pc = s.pc + BitVec.ofNat 32 (instrLength p.1) ∧
        t.bus = s.bus ++ extRequests s dst sz 2 ++ readRequests s dst sz 2 ++ writeRequests s dst sz 2 p.2 ∧
        SameSystem s t

/-- BSET and BCLR with the bit number in the low byte of the word at offset 2, the operand's extension words after it
(R230, R232, R234, R100). -/
def Obligations.BitStatic : Prop :=
  ∀ (dst : Ea) (s : State),
    let sz := bitOperandSize dst
    let v := operandValue s dst sz 4
    let k := (s.load (s.codeAddr 2) .w).toNat % 256 % bits sz
    ∀ p ∈ [(Instr.bsetStatic dst, v ||| (1#32 <<< k)), (Instr.bclrStatic dst, v &&& ~~~(1#32 <<< k))],
      p.1.wf = true → s.readable s.programFc (s.codeAddr 2) .w = true → extReadable s dst sz 4 = true →
      operandReadable s dst sz 4 = true → operandWritable s dst sz 4 = true →
      ∃ t, exec p.1 s = .next t ∧ Wrote dst sz 4 p.2 s t ∧
        (∃ b, t.cc = literalRecord b ∧ t.xsrc = literalRecord b) ∧ t.draws = s.draws + 1 ∧
        (∀ n, t.areg n = s.areg n + finishDelta dst sz n) ∧ t.pc = s.pc + BitVec.ofNat 32 (instrLength p.1) ∧
        t.bus = s.bus ++ [.get s.programFc (s.codeAddr 2) .w] ++ extRequests s dst sz 4 ++ readRequests s dst sz 4 ++
          writeRequests s dst sz 4 p.2 ∧
        SameSystem s t

/-! ### Program control -/

/-- Scc: a byte of ones or zeros by the condition; the destination is not read (R245, R60). -/
def Obligations.SccResult : Prop :=
  ∀ (cond : Cond) (dst : Ea) (s : State),
    let v := if s.test cond then 0xFF#32 else 0#32
    (Instr.scc cond dst).wf = true → extReadable s dst .b 2 = true → operandWritable s dst .b 2 = true →
    ∃ t, exec (.scc cond dst) s = .next t ∧ Wrote dst .b 2 v s t ∧ SameCc s t ∧
      (∀ n, t.areg n = s.areg n + finishDelta dst .b n) ∧
      t.pc = s.pc + BitVec.ofNat 32 (instrLength (.scc cond dst)) ∧
      t.bus = s.bus ++ extRequests s dst .b 2 ++ writeRequests s dst .b 2 v ∧ SameSystem s t ∧ t.draws = s.draws

/-- DBcc: fall through where the condition holds, else count down the low word and branch unless it became -1 (R244). -/
def Obligations.DbccResult : Prop :=
  ∀ (cond : Cond) (dn : RegNum) (s : State),
    let cnt := (s.dreg dn).setWidth 16 - 1#16
    s.readable s.programFc (s.codeAddr 2) .w = true →
    ∃ t, exec (.dbcc cond dn) s = .next t ∧
      t.dreg dn = (if s.test cond then s.dreg dn else putSized .w (s.dreg dn) (cnt.setWidth 32)) ∧ SameDBut dn s t ∧
      t.pc = (if s.test cond then s.pc + 4#32 else if cnt = 0xFFFF#16 then s.pc + 4#32
        else s.pc + 2#32 + ((s.load (s.codeAddr 2) .w).setWidth 16).signExtend 32) ∧
      SameA s t ∧ SameCc s t ∧ SameMemory s t ∧ t.bus = s.bus ++ [.get s.programFc (s.codeAddr 2) .w] ∧
      SameSystem s t ∧ t.draws = s.draws

/-- BRA and Bcc: the displacement word is fetched whether or not the branch is taken (R240, R241, R243). -/
def Obligations.BranchResult : Prop :=
  ∀ (cond : Cond) (disp8 : BitVec 8) (s : State),
    ∀ p ∈ [(Instr.bra disp8, true), (Instr.bcc cond disp8, s.test cond)],
      p.1.wf = true → branchReadable s disp8 = true →
      ∃ t, exec p.1 s = .next t ∧
        t.pc = (if p.2 then s.pc + 2#32 + branchValue s disp8 else s.pc + BitVec.ofNat 32 (instrLength p.1)) ∧
        SameD s t ∧ SameA s t ∧ SameCc s t ∧ SameMemory s t ∧ t.bus = s.bus ++ branchRequests s disp8 ∧
        SameSystem s t ∧ t.draws = s.draws

/-- BSR: the return address is pushed as a long word and A[7] follows (R242). -/
def Obligations.BsrResult : Prop :=
  ∀ (disp8 : BitVec 8) (s : State),
    let ret := s.pc + BitVec.ofNat 32 (instrLength (.bsr disp8))
    branchReadable s disp8 = true → s.writable s.dataFc (s.sp - 4#32) .l = true →
    ∃ t, exec (.bsr disp8) s = .next t ∧ t.pc = s.pc + 2#32 + branchValue s disp8 ∧ t.sp = s.sp - 4#32 ∧
      (SpaceOk s → t.load (s.sp - 4#32) .l = ret) ∧ SameMemoryBut (s.sp - 4#32) .l s t ∧ SameABut spReg s t ∧
      SameD s t ∧ SameCc s t ∧
      t.bus = s.bus ++ branchRequests s disp8 ++ [.put s.dataFc (s.sp - 4#32) .l ret] ∧
      SameSystem s t ∧ t.draws = s.draws

/-- JMP: the pc becomes the effective address; nothing else changes (R246). -/
def Obligations.JmpResult : Prop :=
  ∀ (m : MemMode) (s : State),
    (Instr.jmp (.mem m)).wf = true → extReadable s (.mem m) .l 2 = true →
    ∃ t, exec (.jmp (.mem m)) s = .next t ∧ t.pc = operandAddr s m .l 2 ∧ SameD s t ∧ SameA s t ∧ SameCc s t ∧
      SameMemory s t ∧ t.bus = s.bus ++ extRequests s (.mem m) .l 2 ∧ SameSystem s t ∧ t.draws = s.draws

/-- JSR: the target is computed from the registers before the push (R247). -/
def Obligations.JsrResult : Prop :=
  ∀ (m : MemMode) (s : State),
    let ret := s.pc + BitVec.ofNat 32 (instrLength (.jsr (.mem m)))
    (Instr.jsr (.mem m)).wf = true → extReadable s (.mem m) .l 2 = true →
    s.writable s.dataFc (s.sp - 4#32) .l = true →
    ∃ t, exec (.jsr (.mem m)) s = .next t ∧ t.pc = operandAddr s m .l 2 ∧ t.sp = s.sp - 4#32 ∧
      (SpaceOk s → t.load (s.sp - 4#32) .l = ret) ∧ SameMemoryBut (s.sp - 4#32) .l s t ∧ SameABut spReg s t ∧
      SameD s t ∧ SameCc s t ∧
      t.bus = s.bus ++ extRequests s (.mem m) .l 2 ++ [.put s.dataFc (s.sp - 4#32) .l ret] ∧
      SameSystem s t ∧ t.draws = s.draws

/-- A rejected push leaves A[7] and the pc as they were (R242, R247). -/
def Obligations.PushBusError : Prop :=
  ∀ (m : MemMode) (disp8 : BitVec 8) (s : State),
    s.granted s.dataFc .write (s.sp - 4#32) .l = false →
    ∀ p ∈ [(Instr.jsr (.mem m), extReadable s (.mem m) .l 2), (Instr.bsr disp8, branchReadable s disp8)],
      p.1.wf = true → p.2 = true →
      ∃ left, exec p.1 s = .fault (.busError (s.sp - 4#32) s.dataFc .write (some (encode p.1)) s.pc left) ∧
        left = s.withBus left.bus

/-- RTS, 0x4E75: the long word at A[7] becomes the pc, odd or even, and A[7] moves past it; where the pop is rejected,
BusError, with A[7] and the pc as they were (R248, whose operation the spec marks as general knowledge; the context left and
its record of requests are the model's own form, log entries 13 and 18). -/
def Obligations.RtsResult : Prop :=
  encode .rts = 0x4E75#16 ∧
  ∀ s : State,
    (s.readable s.dataFc s.sp .l = true →
      ∃ t, exec .rts s = .next t ∧ t.pc = s.load s.sp .l ∧ t.sp = s.sp + 4#32 ∧ SameABut spReg s t ∧ SameD s t ∧
        SameCc s t ∧ SameMemory s t ∧ t.bus = s.bus ++ [.get s.dataFc s.sp .l] ∧ SameSystem s t ∧ t.draws = s.draws) ∧
    (s.granted s.dataFc .read s.sp .l = false →
      exec .rts s =
        .fault (.busError s.sp s.dataFc .read (some 0x4E75#16) s.pc
        (s.withBus (s.bus ++ [.get s.dataFc s.sp .l]))))

/-! ### System control -/

/-- MOVE to SR in supervisor state: flags and mode from the operand, `finish` on the old stack, both stack pointers kept
(R260, R146). -/
def Obligations.MoveToSrResult : Prop :=
  ∀ (src : Ea) (s : State),
    let v : Half := (operandValue s src .w 2).setWidth 16
    (Instr.moveToSr src).wf = true → s.sup = true → extReadable s src .w 2 = true →
    operandReadable s src .w 2 = true →
    ∃ t, exec (.moveToSr src) s = .next t ∧ t.sr = v &&& 0x201F#16 ∧ t.sup = v.getLsbD 13 ∧
      t.ssp = s.sp + finishDelta src .w spReg ∧ t.usp = s.usp ∧
      (∀ n, n ≠ spReg → t.areg n = s.areg n + finishDelta src .w n) ∧ SameD s t ∧ SameMemory s t ∧
      t.pc = s.pc + BitVec.ofNat 32 (instrLength (.moveToSr src)) ∧
      t.bus = s.bus ++ extRequests s src .w 2 ++ readRequests s src .w 2 ∧ SameHost s t ∧ t.draws = s.draws

/-- RTE in supervisor state: status word at A[7], return address at A[7] + 2, popped from the supervisor stack (R261). -/
def Obligations.RteResult : Prop :=
  ∀ s : State,
    let v : Half := (s.load s.sp .w).setWidth 16
    s.sup = true → s.readable s.dataFc s.sp .w = true → s.readable s.dataFc (s.sp + 2#32) .l = true →
    ∃ t, exec .rte s = .next t ∧ t.sr = v &&& 0x201F#16 ∧ t.sup = v.getLsbD 13 ∧ t.pc = s.load (s.sp + 2#32) .l ∧
      t.ssp = s.sp + 6#32 ∧ t.usp = s.usp ∧ SameABut spReg s t ∧ SameD s t ∧ SameMemory s t ∧
      t.bus = s.bus ++ [.get s.dataFc s.sp .w, .get s.dataFc (s.sp + 2#32) .l] ∧ SameHost s t ∧ t.draws = s.draws

/-- In user state MOVE to SR and RTE raise PrivilegeViolation, before any request, and change no state (R272). -/
def Obligations.PrivilegedInUserState : Prop :=
  ∀ (src : Ea) (s : State), s.sup = false → ∀ i ∈ [Instr.rte, Instr.moveToSr src], i.wf = true →
    exec i s = .fault (.privilegeViolation (encode i) s.pc s)

/-- No other instruction of the table but a collaborator's slot raises PrivilegeViolation, in either mode (R272, R284). -/
def Obligations.OnlyPrivilegedViolate : Prop :=
  ∀ (i : Instr) (s left : State) (op : Half) (pc : Word),
    exec i s = .fault (.privilegeViolation op pc left) →
    i = .rte ∨ (∃ src, i = .moveToSr src) ∨ ∃ n, i = .trap n

/-- The TRAP slot with a handler installed does what the handler does, and goes on where it returns
`Continue` (R262; the form of an answer and the constructor's place are the model's choice, log entries 15 and 17). -/
def Obligations.TrapSlotResult : Prop :=
  ∀ (vector : BitVec 4) (s : State) (p : Installation) (r : CollabResponse) (rest : List CollabResponse),
    findInstallation s.installed (0x4E40#16 ||| vector.setWidth 16) = some p → s.collabIn = r :: rest →
    r.outcome = none → exec (.trap vector) s = .next (applyActions r.actions (s.withCollabIn rest))

/-! ### Whole machine -/

/-- A program in user state stays in user state and cannot touch the supervisor stack pointer, where no collaborator is
installed (R285). -/
def Obligations.UserStateStays : Prop :=
  ∀ s t : State, s.sup = false → s.installed = [] → step s = .next t → t.sup = false ∧ t.ssp = s.ssp

/-- A faulting step of a base instruction leaves the context as it was but for the condition-code records, the
free values drawn and the record of requests (R275, R276). -/
def Obligations.FaultLeavesContext : Prop :=
  ∀ (s : State) (f : Fault), s.installed = [] → step s = .fault f → LeftBy s f.left

/-- Two contexts whose condition-code records differ but whose flags are equal step alike (R34); at a collaborator's slot
because a handler reads the flags and not their records, which is the model's form of R34 (log entry 15). -/
def Obligations.FlagRecordsUnobservable : Prop :=
  ∀ s t : State, FlagEquivalent s t → RelOutcome FlagEquivalent (step s) (step t)

/-- The stale shadow slot has no effect on anything else (R23); nor has the interrupt-pending flag (R29) where no
collaborator, which may read it, is installed (R35, R262). At a collaborator's slot this rests on the model's form of what a
handler reads and does (log entry 15). -/
def Obligations.UnreadStateHasNoEffect : Prop :=
  ∀ s t : State, UnreadEquivalent s t → (t.irqPending = s.irqPending ∨ s.installed = []) →
    RelOutcome UnreadEquivalent (step s) (step t)
end

