-- ==== Sys2Proof/Laws/Encoding.lean ====
section
/-! SUPPORT. The fields of the words the encoder writes, the words a list of fields makes up, and the operand fields read
back. -/

namespace Sys2Proof

open Sys2Proof.Machine

/-! ### A field of a written word -/

theorem field_toNat (op : Half) (lo len : Nat) : (field op lo len).toNat = op.toNat / 2 ^ lo % 2 ^ len := by
  simp [field, BitVec.extractLsb'_toNat, Nat.shiftRight_eq_div_pow]

@[simp] theorem field_word43333_12 (line : BitVec 4) (r9 : BitVec 3) (m6 : BitVec 3) (m3 : BitVec 3) (r0 : BitVec 3) :
    field (word43333 line r9 m6 m3 r0) 12 4 = line := by
  have := line.isLt
  have := r9.isLt
  have := m6.isLt
  have := m3.isLt
  have := r0.isLt
  apply BitVec.eq_of_toNat_eq
  simp only [field_toNat, word43333, BitVec.toNat_ofNat]
  omega

@[simp] theorem field_word43333_9 (line : BitVec 4) (r9 : BitVec 3) (m6 : BitVec 3) (m3 : BitVec 3) (r0 : BitVec 3) :
    field (word43333 line r9 m6 m3 r0) 9 3 = r9 := by
  have := line.isLt
  have := r9.isLt
  have := m6.isLt
  have := m3.isLt
  have := r0.isLt
  apply BitVec.eq_of_toNat_eq
  simp only [field_toNat, word43333, BitVec.toNat_ofNat]
  omega

@[simp] theorem field_word43333_6 (line : BitVec 4) (r9 : BitVec 3) (m6 : BitVec 3) (m3 : BitVec 3) (r0 : BitVec 3) :
    field (word43333 line r9 m6 m3 r0) 6 3 = m6 := by
  have := line.isLt
  have := r9.isLt
  have := m6.isLt
  have := m3.isLt
  have := r0.isLt
  apply BitVec.eq_of_toNat_eq
  simp only [field_toNat, word43333, BitVec.toNat_ofNat]
  omega

@[simp] theorem field_word43333_3 (line : BitVec 4) (r9 : BitVec 3) (m6 : BitVec 3) (m3 : BitVec 3) (r0 : BitVec 3) :
    field (word43333 line r9 m6 m3 r0) 3 3 = m3 := by
  have := line.isLt
  have := r9.isLt
  have := m6.isLt
  have := m3.isLt
  have := r0.isLt
  apply BitVec.eq_of_toNat_eq
  simp only [field_toNat, word43333, BitVec.toNat_ofNat]
  omega

@[simp] theorem field_word43333_0 (line : BitVec 4) (r9 : BitVec 3) (m6 : BitVec 3) (m3 : BitVec 3) (r0 : BitVec 3) :
    field (word43333 line r9 m6 m3 r0) 0 3 = r0 := by
  have := line.isLt
  have := r9.isLt
  have := m6.isLt
  have := m3.isLt
  have := r0.isLt
  apply BitVec.eq_of_toNat_eq
  simp only [field_toNat, word43333, BitVec.toNat_ofNat]
  omega

@[simp] theorem field_word448_12 (line : BitVec 4) (cond : BitVec 4) (disp8 : BitVec 8) :
    field (word448 line cond disp8) 12 4 = line := by
  have := line.isLt
  have := cond.isLt
  have := disp8.isLt
  apply BitVec.eq_of_toNat_eq
  simp only [field_toNat, word448, BitVec.toNat_ofNat]
  omega

@[simp] theorem field_word448_8 (line : BitVec 4) (cond : BitVec 4) (disp8 : BitVec 8) :
    field (word448 line cond disp8) 8 4 = cond := by
  have := line.isLt
  have := cond.isLt
  have := disp8.isLt
  apply BitVec.eq_of_toNat_eq
  simp only [field_toNat, word448, BitVec.toNat_ofNat]
  omega

@[simp] theorem field_word448_0 (line : BitVec 4) (cond : BitVec 4) (disp8 : BitVec 8) :
    field (word448 line cond disp8) 0 8 = disp8 := by
  have := line.isLt
  have := cond.isLt
  have := disp8.isLt
  apply BitVec.eq_of_toNat_eq
  simp only [field_toNat, word448, BitVec.toNat_ofNat]
  omega

@[simp] theorem field_word4318_12 (line : BitVec 4) (r9 : BitVec 3) (b8 : BitVec 1) (data : BitVec 8) :
    field (word4318 line r9 b8 data) 12 4 = line := by
  have := line.isLt
  have := r9.isLt
  have := b8.isLt
  have := data.isLt
  apply BitVec.eq_of_toNat_eq
  simp only [field_toNat, word4318, BitVec.toNat_ofNat]
  omega

@[simp] theorem field_word4318_9 (line : BitVec 4) (r9 : BitVec 3) (b8 : BitVec 1) (data : BitVec 8) :
    field (word4318 line r9 b8 data) 9 3 = r9 := by
  have := line.isLt
  have := r9.isLt
  have := b8.isLt
  have := data.isLt
  apply BitVec.eq_of_toNat_eq
  simp only [field_toNat, word4318, BitVec.toNat_ofNat]
  omega

@[simp] theorem field_word4318_8 (line : BitVec 4) (r9 : BitVec 3) (b8 : BitVec 1) (data : BitVec 8) :
    field (word4318 line r9 b8 data) 8 1 = b8 := by
  have := line.isLt
  have := r9.isLt
  have := b8.isLt
  have := data.isLt
  apply BitVec.eq_of_toNat_eq
  simp only [field_toNat, word4318, BitVec.toNat_ofNat]
  omega

@[simp] theorem field_word4318_0 (line : BitVec 4) (r9 : BitVec 3) (b8 : BitVec 1) (data : BitVec 8) :
    field (word4318 line r9 b8 data) 0 8 = data := by
  have := line.isLt
  have := r9.isLt
  have := b8.isLt
  have := data.isLt
  apply BitVec.eq_of_toNat_eq
  simp only [field_toNat, word4318, BitVec.toNat_ofNat]
  omega

@[simp] theorem field_word44233_12 (line : BitVec 4) (cond : BitVec 4) (s6 : BitVec 2) (m3 : BitVec 3) (r0 : BitVec 3) :
    field (word44233 line cond s6 m3 r0) 12 4 = line := by
  have := line.isLt
  have := cond.isLt
  have := s6.isLt
  have := m3.isLt
  have := r0.isLt
  apply BitVec.eq_of_toNat_eq
  simp only [field_toNat, word44233, BitVec.toNat_ofNat]
  omega

@[simp] theorem field_word44233_8 (line : BitVec 4) (cond : BitVec 4) (s6 : BitVec 2) (m3 : BitVec 3) (r0 : BitVec 3) :
    field (word44233 line cond s6 m3 r0) 8 4 = cond := by
  have := line.isLt
  have := cond.isLt
  have := s6.isLt
  have := m3.isLt
  have := r0.isLt
  apply BitVec.eq_of_toNat_eq
  simp only [field_toNat, word44233, BitVec.toNat_ofNat]
  omega

@[simp] theorem field_word44233_6 (line : BitVec 4) (cond : BitVec 4) (s6 : BitVec 2) (m3 : BitVec 3) (r0 : BitVec 3) :
    field (word44233 line cond s6 m3 r0) 6 2 = s6 := by
  have := line.isLt
  have := cond.isLt
  have := s6.isLt
  have := m3.isLt
  have := r0.isLt
  apply BitVec.eq_of_toNat_eq
  simp only [field_toNat, word44233, BitVec.toNat_ofNat]
  omega

@[simp] theorem field_word44233_3 (line : BitVec 4) (cond : BitVec 4) (s6 : BitVec 2) (m3 : BitVec 3) (r0 : BitVec 3) :
    field (word44233 line cond s6 m3 r0) 3 3 = m3 := by
  have := line.isLt
  have := cond.isLt
  have := s6.isLt
  have := m3.isLt
  have := r0.isLt
  apply BitVec.eq_of_toNat_eq
  simp only [field_toNat, word44233, BitVec.toNat_ofNat]
  omega

@[simp] theorem field_word44233_0 (line : BitVec 4) (cond : BitVec 4) (s6 : BitVec 2) (m3 : BitVec 3) (r0 : BitVec 3) :
    field (word44233 line cond s6 m3 r0) 0 3 = r0 := by
  have := line.isLt
  have := cond.isLt
  have := s6.isLt
  have := m3.isLt
  have := r0.isLt
  apply BitVec.eq_of_toNat_eq
  simp only [field_toNat, word44233, BitVec.toNat_ofNat]
  omega

@[simp] theorem field_word4312123_12 (line : BitVec 4) (r9 : BitVec 3) (dir : BitVec 1) (size : BitVec 2) (ir : BitVec 1) (type : BitVec 2) (r0 : BitVec 3) :
    field (word4312123 line r9 dir size ir type r0) 12 4 = line := by
  have := line.isLt
  have := r9.isLt
  have := dir.isLt
  have := size.isLt
  have := ir.isLt
  have := type.isLt
  have := r0.isLt
  apply BitVec.eq_of_toNat_eq
  simp only [field_toNat, word4312123, BitVec.toNat_ofNat]
  omega

@[simp] theorem field_word4312123_9 (line : BitVec 4) (r9 : BitVec 3) (dir : BitVec 1) (size : BitVec 2) (ir : BitVec 1) (type : BitVec 2) (r0 : BitVec 3) :
    field (word4312123 line r9 dir size ir type r0) 9 3 = r9 := by
  have := line.isLt
  have := r9.isLt
  have := dir.isLt
  have := size.isLt
  have := ir.isLt
  have := type.isLt
  have := r0.isLt
  apply BitVec.eq_of_toNat_eq
  simp only [field_toNat, word4312123, BitVec.toNat_ofNat]
  omega

@[simp] theorem field_word4312123_8 (line : BitVec 4) (r9 : BitVec 3) (dir : BitVec 1) (size : BitVec 2) (ir : BitVec 1) (type : BitVec 2) (r0 : BitVec 3) :
    field (word4312123 line r9 dir size ir type r0) 8 1 = dir := by
  have := line.isLt
  have := r9.isLt
  have := dir.isLt
  have := size.isLt
  have := ir.isLt
  have := type.isLt
  have := r0.isLt
  apply BitVec.eq_of_toNat_eq
  simp only [field_toNat, word4312123, BitVec.toNat_ofNat]
  omega

@[simp] theorem field_word4312123_6 (line : BitVec 4) (r9 : BitVec 3) (dir : BitVec 1) (size : BitVec 2) (ir : BitVec 1) (type : BitVec 2) (r0 : BitVec 3) :
    field (word4312123 line r9 dir size ir type r0) 6 2 = size := by
  have := line.isLt
  have := r9.isLt
  have := dir.isLt
  have := size.isLt
  have := ir.isLt
  have := type.isLt
  have := r0.isLt
  apply BitVec.eq_of_toNat_eq
  simp only [field_toNat, word4312123, BitVec.toNat_ofNat]
  omega

@[simp] theorem field_word4312123_5 (line : BitVec 4) (r9 : BitVec 3) (dir : BitVec 1) (size : BitVec 2) (ir : BitVec 1) (type : BitVec 2) (r0 : BitVec 3) :
    field (word4312123 line r9 dir size ir type r0) 5 1 = ir := by
  have := line.isLt
  have := r9.isLt
  have := dir.isLt
  have := size.isLt
  have := ir.isLt
  have := type.isLt
  have := r0.isLt
  apply BitVec.eq_of_toNat_eq
  simp only [field_toNat, word4312123, BitVec.toNat_ofNat]
  omega

@[simp] theorem field_word4312123_3 (line : BitVec 4) (r9 : BitVec 3) (dir : BitVec 1) (size : BitVec 2) (ir : BitVec 1) (type : BitVec 2) (r0 : BitVec 3) :
    field (word4312123 line r9 dir size ir type r0) 3 2 = type := by
  have := line.isLt
  have := r9.isLt
  have := dir.isLt
  have := size.isLt
  have := ir.isLt
  have := type.isLt
  have := r0.isLt
  apply BitVec.eq_of_toNat_eq
  simp only [field_toNat, word4312123, BitVec.toNat_ofNat]
  omega

@[simp] theorem field_word4312123_0 (line : BitVec 4) (r9 : BitVec 3) (dir : BitVec 1) (size : BitVec 2) (ir : BitVec 1) (type : BitVec 2) (r0 : BitVec 3) :
    field (word4312123 line r9 dir size ir type r0) 0 3 = r0 := by
  have := line.isLt
  have := r9.isLt
  have := dir.isLt
  have := size.isLt
  have := ir.isLt
  have := type.isLt
  have := r0.isLt
  apply BitVec.eq_of_toNat_eq
  simp only [field_toNat, word4312123, BitVec.toNat_ofNat]
  omega

@[simp] theorem field_wordC4_0 (hi : BitVec 12) (vector : BitVec 4) :
    field (wordC4 hi vector) 0 4 = vector := by
  have := hi.isLt
  have := vector.isLt
  apply BitVec.eq_of_toNat_eq
  simp only [field_toNat, wordC4, BitVec.toNat_ofNat]
  omega

/-- The six bits 11:6 of a word whose bits 11:9 and 8:6 are fields. -/
theorem field_word43333_6_6 (line : BitVec 4) (r9 m6 m3 r0 : BitVec 3) :
    (field (word43333 line r9 m6 m3 r0) 6 6).toNat = r9.toNat * 8 + m6.toNat := by
  have := line.isLt
  have := r9.isLt
  have := m6.isLt
  have := m3.isLt
  have := r0.isLt
  simp only [field_toNat, word43333, BitVec.toNat_ofNat]
  omega

/-- The mode field of a destination of F-SHIFT-MEM and F-SCC words, bits 8:6 cutting across bits 11:8 and 7:6. -/
theorem field_word44233_6_3 (line cond : BitVec 4) (s6 : BitVec 2) (m3 r0 : BitVec 3) :
    (field (word44233 line cond s6 m3 r0) 6 3).toNat = cond.toNat % 2 * 4 + s6.toNat := by
  have := line.isLt
  have := cond.isLt
  have := s6.isLt
  have := m3.isLt
  have := r0.isLt
  simp only [field_toNat, word44233, BitVec.toNat_ofNat]
  omega

/-! ### A word from its fields -/

theorem word43333_fields (op : Half) :
    word43333 (field op 12 4) (field op 9 3) (field op 6 3) (field op 3 3) (field op 0 3) = op := by
  have := op.isLt
  apply BitVec.eq_of_toNat_eq
  simp only [word43333, BitVec.toNat_ofNat, field_toNat]
  omega

theorem word448_fields (op : Half) :
    word448 (field op 12 4) (field op 8 4) (field op 0 8) = op := by
  have := op.isLt
  apply BitVec.eq_of_toNat_eq
  simp only [word448, BitVec.toNat_ofNat, field_toNat]
  omega

theorem word4318_fields (op : Half) :
    word4318 (field op 12 4) (field op 9 3) (field op 8 1) (field op 0 8) = op := by
  have := op.isLt
  apply BitVec.eq_of_toNat_eq
  simp only [word4318, BitVec.toNat_ofNat, field_toNat]
  omega

theorem word44233_fields (op : Half) :
    word44233 (field op 12 4) (field op 8 4) (field op 6 2) (field op 3 3) (field op 0 3) = op := by
  have := op.isLt
  apply BitVec.eq_of_toNat_eq
  simp only [word44233, BitVec.toNat_ofNat, field_toNat]
  omega

theorem word4312123_fields (op : Half) :
    word4312123 (field op 12 4) (field op 9 3) (field op 8 1) (field op 6 2) (field op 5 1) (field op 3 2) (field op 0 3) = op := by
  have := op.isLt
  apply BitVec.eq_of_toNat_eq
  simp only [word4312123, BitVec.toNat_ofNat, field_toNat]
  omega

/-! ### Operand fields -/

@[simp] theorem decodeEa_fields (e : Ea) : decodeEa (eaMode e) (eaReg e) = some e := by
  rcases e with _ | _ | m | _
  · rfl
  · rfl
  · cases m <;> rfl
  · rfl

theorem fields_of_decodeEa {mode reg : BitVec 3} {e : Ea} (h : decodeEa mode reg = some e) :
    eaMode e = mode ∧ eaReg e = reg := by
  have key : ∀ mode reg : BitVec 3, ∀ e ∈ decodeEa mode reg, eaMode e = mode ∧ eaReg e = reg := by decide
  exact key mode reg e h

@[simp] theorem decodeCond_condCode (c : Cond) : decodeCond (condCode c) = c := by cases c <;> rfl

@[simp] theorem condCode_decodeCond (c : BitVec 4) : condCode (decodeCond c) = c := by
  revert c
  decide

/-- A destination that must be alterable data is not an address register: its mode is not 001. -/
theorem eaMode_ne_one_of_isData {e : Ea} (h : isData e = true) : eaMode e ≠ 1#3 := by
  rcases e with _ | _ | m | _
  · simp [eaMode]
  · simp [isData] at h
  · cases m <;> simp [eaMode]
  · simp [eaMode]

@[simp] theorem opEa_word43333 (line : BitVec 4) (r9 m6 : BitVec 3) (e : Ea) :
    opEa (word43333 line r9 m6 (eaMode e) (eaReg e)) = some e := by simp [opEa]

@[simp] theorem opDstEa_word43333 (line : BitVec 4) (e : Ea) (m3 r0 : BitVec 3) :
    opDstEa (word43333 line (eaReg e) (eaMode e) m3 r0) = some e := by simp [opDstEa]

@[simp] theorem opEa_word44233 (line cond : BitVec 4) (s6 : BitVec 2) (e : Ea) :
    opEa (word44233 line cond s6 (eaMode e) (eaReg e)) = some e := by simp [opEa]

/-- The count operand of a shift of a register is read back. -/
@[simp] theorem opCount_encodeShiftReg (dir : BitVec 1) (size type : BitVec 2) (c : ShiftCount) (dn : RegNum) :
    opCount (encodeShiftReg dir size type c dn) = c := by
  cases c <;> simp [opCount, encodeShiftReg, countIr, countField]

end Sys2Proof
end

