-- ==== Sys2Proof/Laws/State.lean ====
section
/-! SUPPORT. What each named update of the state does to each field, so that no later proof unfolds a record update. -/

namespace Sys2Proof.Machine

/-! ### One lemma per field per update -/


@[simp] theorem State.writeD_a (n : RegNum) (v : Word) (s : State) : (s.writeD n v).a = s.a := (rfl)
@[simp] theorem State.writeD_uspShadow (n : RegNum) (v : Word) (s : State) : (s.writeD n v).uspShadow = s.uspShadow := (rfl)
@[simp] theorem State.writeD_sspShadow (n : RegNum) (v : Word) (s : State) : (s.writeD n v).sspShadow = s.sspShadow := (rfl)
@[simp] theorem State.writeD_pc (n : RegNum) (v : Word) (s : State) : (s.writeD n v).pc = s.pc := (rfl)
@[simp] theorem State.writeD_sup (n : RegNum) (v : Word) (s : State) : (s.writeD n v).sup = s.sup := (rfl)
@[simp] theorem State.writeD_cc (n : RegNum) (v : Word) (s : State) : (s.writeD n v).cc = s.cc := (rfl)
@[simp] theorem State.writeD_xsrc (n : RegNum) (v : Word) (s : State) : (s.writeD n v).xsrc = s.xsrc := (rfl)
@[simp] theorem State.writeD_irqPending (n : RegNum) (v : Word) (s : State) : (s.writeD n v).irqPending = s.irqPending := (rfl)
@[simp] theorem State.writeD_installed (n : RegNum) (v : Word) (s : State) : (s.writeD n v).installed = s.installed := (rfl)
@[simp] theorem State.writeD_mem (n : RegNum) (v : Word) (s : State) : (s.writeD n v).mem = s.mem := (rfl)
@[simp] theorem State.writeD_regions (n : RegNum) (v : Word) (s : State) : (s.writeD n v).regions = s.regions := (rfl)
@[simp] theorem State.writeD_decodeBits (n : RegNum) (v : Word) (s : State) : (s.writeD n v).decodeBits = s.decodeBits := (rfl)
@[simp] theorem State.writeD_collabIn (n : RegNum) (v : Word) (s : State) : (s.writeD n v).collabIn = s.collabIn := (rfl)
@[simp] theorem State.writeD_draws (n : RegNum) (v : Word) (s : State) : (s.writeD n v).draws = s.draws := (rfl)
@[simp] theorem State.writeD_bus (n : RegNum) (v : Word) (s : State) : (s.writeD n v).bus = s.bus := (rfl)

@[simp] theorem State.writeA_d (n : RegNum) (v : Word) (s : State) : (s.writeA n v).d = s.d := (rfl)
@[simp] theorem State.writeA_uspShadow (n : RegNum) (v : Word) (s : State) : (s.writeA n v).uspShadow = s.uspShadow := (rfl)
@[simp] theorem State.writeA_sspShadow (n : RegNum) (v : Word) (s : State) : (s.writeA n v).sspShadow = s.sspShadow := (rfl)
@[simp] theorem State.writeA_pc (n : RegNum) (v : Word) (s : State) : (s.writeA n v).pc = s.pc := (rfl)
@[simp] theorem State.writeA_sup (n : RegNum) (v : Word) (s : State) : (s.writeA n v).sup = s.sup := (rfl)
@[simp] theorem State.writeA_cc (n : RegNum) (v : Word) (s : State) : (s.writeA n v).cc = s.cc := (rfl)
@[simp] theorem State.writeA_xsrc (n : RegNum) (v : Word) (s : State) : (s.writeA n v).xsrc = s.xsrc := (rfl)
@[simp] theorem State.writeA_irqPending (n : RegNum) (v : Word) (s : State) : (s.writeA n v).irqPending = s.irqPending := (rfl)
@[simp] theorem State.writeA_installed (n : RegNum) (v : Word) (s : State) : (s.writeA n v).installed = s.installed := (rfl)
@[simp] theorem State.writeA_mem (n : RegNum) (v : Word) (s : State) : (s.writeA n v).mem = s.mem := (rfl)
@[simp] theorem State.writeA_regions (n : RegNum) (v : Word) (s : State) : (s.writeA n v).regions = s.regions := (rfl)
@[simp] theorem State.writeA_decodeBits (n : RegNum) (v : Word) (s : State) : (s.writeA n v).decodeBits = s.decodeBits := (rfl)
@[simp] theorem State.writeA_collabIn (n : RegNum) (v : Word) (s : State) : (s.writeA n v).collabIn = s.collabIn := (rfl)
@[simp] theorem State.writeA_draws (n : RegNum) (v : Word) (s : State) : (s.writeA n v).draws = s.draws := (rfl)
@[simp] theorem State.writeA_bus (n : RegNum) (v : Word) (s : State) : (s.writeA n v).bus = s.bus := (rfl)

@[simp] theorem State.withPc_d (v : Word) (s : State) : (s.withPc v).d = s.d := (rfl)
@[simp] theorem State.withPc_a (v : Word) (s : State) : (s.withPc v).a = s.a := (rfl)
@[simp] theorem State.withPc_uspShadow (v : Word) (s : State) : (s.withPc v).uspShadow = s.uspShadow := (rfl)
@[simp] theorem State.withPc_sspShadow (v : Word) (s : State) : (s.withPc v).sspShadow = s.sspShadow := (rfl)
@[simp] theorem State.withPc_pc (v : Word) (s : State) : (s.withPc v).pc = v := (rfl)
@[simp] theorem State.withPc_sup (v : Word) (s : State) : (s.withPc v).sup = s.sup := (rfl)
@[simp] theorem State.withPc_cc (v : Word) (s : State) : (s.withPc v).cc = s.cc := (rfl)
@[simp] theorem State.withPc_xsrc (v : Word) (s : State) : (s.withPc v).xsrc = s.xsrc := (rfl)
@[simp] theorem State.withPc_irqPending (v : Word) (s : State) : (s.withPc v).irqPending = s.irqPending := (rfl)
@[simp] theorem State.withPc_installed (v : Word) (s : State) : (s.withPc v).installed = s.installed := (rfl)
@[simp] theorem State.withPc_mem (v : Word) (s : State) : (s.withPc v).mem = s.mem := (rfl)
@[simp] theorem State.withPc_regions (v : Word) (s : State) : (s.withPc v).regions = s.regions := (rfl)
@[simp] theorem State.withPc_decodeBits (v : Word) (s : State) : (s.withPc v).decodeBits = s.decodeBits := (rfl)
@[simp] theorem State.withPc_collabIn (v : Word) (s : State) : (s.withPc v).collabIn = s.collabIn := (rfl)
@[simp] theorem State.withPc_draws (v : Word) (s : State) : (s.withPc v).draws = s.draws := (rfl)
@[simp] theorem State.withPc_bus (v : Word) (s : State) : (s.withPc v).bus = s.bus := (rfl)

@[simp] theorem State.withCc_d (r : CcRecord) (s : State) : (s.withCc r).d = s.d := (rfl)
@[simp] theorem State.withCc_a (r : CcRecord) (s : State) : (s.withCc r).a = s.a := (rfl)
@[simp] theorem State.withCc_uspShadow (r : CcRecord) (s : State) : (s.withCc r).uspShadow = s.uspShadow := (rfl)
@[simp] theorem State.withCc_sspShadow (r : CcRecord) (s : State) : (s.withCc r).sspShadow = s.sspShadow := (rfl)
@[simp] theorem State.withCc_pc (r : CcRecord) (s : State) : (s.withCc r).pc = s.pc := (rfl)
@[simp] theorem State.withCc_sup (r : CcRecord) (s : State) : (s.withCc r).sup = s.sup := (rfl)
@[simp] theorem State.withCc_cc (r : CcRecord) (s : State) : (s.withCc r).cc = r := (rfl)
@[simp] theorem State.withCc_xsrc (r : CcRecord) (s : State) : (s.withCc r).xsrc = s.xsrc := (rfl)
@[simp] theorem State.withCc_irqPending (r : CcRecord) (s : State) : (s.withCc r).irqPending = s.irqPending := (rfl)
@[simp] theorem State.withCc_installed (r : CcRecord) (s : State) : (s.withCc r).installed = s.installed := (rfl)
@[simp] theorem State.withCc_mem (r : CcRecord) (s : State) : (s.withCc r).mem = s.mem := (rfl)
@[simp] theorem State.withCc_regions (r : CcRecord) (s : State) : (s.withCc r).regions = s.regions := (rfl)
@[simp] theorem State.withCc_decodeBits (r : CcRecord) (s : State) : (s.withCc r).decodeBits = s.decodeBits := (rfl)
@[simp] theorem State.withCc_collabIn (r : CcRecord) (s : State) : (s.withCc r).collabIn = s.collabIn := (rfl)
@[simp] theorem State.withCc_draws (r : CcRecord) (s : State) : (s.withCc r).draws = s.draws := (rfl)
@[simp] theorem State.withCc_bus (r : CcRecord) (s : State) : (s.withCc r).bus = s.bus := (rfl)

@[simp] theorem State.withXsrc_d (r : CcRecord) (s : State) : (s.withXsrc r).d = s.d := (rfl)
@[simp] theorem State.withXsrc_a (r : CcRecord) (s : State) : (s.withXsrc r).a = s.a := (rfl)
@[simp] theorem State.withXsrc_uspShadow (r : CcRecord) (s : State) : (s.withXsrc r).uspShadow = s.uspShadow := (rfl)
@[simp] theorem State.withXsrc_sspShadow (r : CcRecord) (s : State) : (s.withXsrc r).sspShadow = s.sspShadow := (rfl)
@[simp] theorem State.withXsrc_pc (r : CcRecord) (s : State) : (s.withXsrc r).pc = s.pc := (rfl)
@[simp] theorem State.withXsrc_sup (r : CcRecord) (s : State) : (s.withXsrc r).sup = s.sup := (rfl)
@[simp] theorem State.withXsrc_cc (r : CcRecord) (s : State) : (s.withXsrc r).cc = s.cc := (rfl)
@[simp] theorem State.withXsrc_xsrc (r : CcRecord) (s : State) : (s.withXsrc r).xsrc = r := (rfl)
@[simp] theorem State.withXsrc_irqPending (r : CcRecord) (s : State) : (s.withXsrc r).irqPending = s.irqPending := (rfl)
@[simp] theorem State.withXsrc_installed (r : CcRecord) (s : State) : (s.withXsrc r).installed = s.installed := (rfl)
@[simp] theorem State.withXsrc_mem (r : CcRecord) (s : State) : (s.withXsrc r).mem = s.mem := (rfl)
@[simp] theorem State.withXsrc_regions (r : CcRecord) (s : State) : (s.withXsrc r).regions = s.regions := (rfl)
@[simp] theorem State.withXsrc_decodeBits (r : CcRecord) (s : State) : (s.withXsrc r).decodeBits = s.decodeBits := (rfl)
@[simp] theorem State.withXsrc_collabIn (r : CcRecord) (s : State) : (s.withXsrc r).collabIn = s.collabIn := (rfl)
@[simp] theorem State.withXsrc_draws (r : CcRecord) (s : State) : (s.withXsrc r).draws = s.draws := (rfl)
@[simp] theorem State.withXsrc_bus (r : CcRecord) (s : State) : (s.withXsrc r).bus = s.bus := (rfl)

@[simp] theorem State.withUspShadow_d (v : Word) (s : State) : (s.withUspShadow v).d = s.d := (rfl)
@[simp] theorem State.withUspShadow_a (v : Word) (s : State) : (s.withUspShadow v).a = s.a := (rfl)
@[simp] theorem State.withUspShadow_uspShadow (v : Word) (s : State) : (s.withUspShadow v).uspShadow = v := (rfl)
@[simp] theorem State.withUspShadow_sspShadow (v : Word) (s : State) : (s.withUspShadow v).sspShadow = s.sspShadow := (rfl)
@[simp] theorem State.withUspShadow_pc (v : Word) (s : State) : (s.withUspShadow v).pc = s.pc := (rfl)
@[simp] theorem State.withUspShadow_sup (v : Word) (s : State) : (s.withUspShadow v).sup = s.sup := (rfl)
@[simp] theorem State.withUspShadow_cc (v : Word) (s : State) : (s.withUspShadow v).cc = s.cc := (rfl)
@[simp] theorem State.withUspShadow_xsrc (v : Word) (s : State) : (s.withUspShadow v).xsrc = s.xsrc := (rfl)
@[simp] theorem State.withUspShadow_irqPending (v : Word) (s : State) : (s.withUspShadow v).irqPending = s.irqPending := (rfl)
@[simp] theorem State.withUspShadow_installed (v : Word) (s : State) : (s.withUspShadow v).installed = s.installed := (rfl)
@[simp] theorem State.withUspShadow_mem (v : Word) (s : State) : (s.withUspShadow v).mem = s.mem := (rfl)
@[simp] theorem State.withUspShadow_regions (v : Word) (s : State) : (s.withUspShadow v).regions = s.regions := (rfl)
@[simp] theorem State.withUspShadow_decodeBits (v : Word) (s : State) : (s.withUspShadow v).decodeBits = s.decodeBits := (rfl)
@[simp] theorem State.withUspShadow_collabIn (v : Word) (s : State) : (s.withUspShadow v).collabIn = s.collabIn := (rfl)
@[simp] theorem State.withUspShadow_draws (v : Word) (s : State) : (s.withUspShadow v).draws = s.draws := (rfl)
@[simp] theorem State.withUspShadow_bus (v : Word) (s : State) : (s.withUspShadow v).bus = s.bus := (rfl)

@[simp] theorem State.withSspShadow_d (v : Word) (s : State) : (s.withSspShadow v).d = s.d := (rfl)
@[simp] theorem State.withSspShadow_a (v : Word) (s : State) : (s.withSspShadow v).a = s.a := (rfl)
@[simp] theorem State.withSspShadow_uspShadow (v : Word) (s : State) : (s.withSspShadow v).uspShadow = s.uspShadow := (rfl)
@[simp] theorem State.withSspShadow_sspShadow (v : Word) (s : State) : (s.withSspShadow v).sspShadow = v := (rfl)
@[simp] theorem State.withSspShadow_pc (v : Word) (s : State) : (s.withSspShadow v).pc = s.pc := (rfl)
@[simp] theorem State.withSspShadow_sup (v : Word) (s : State) : (s.withSspShadow v).sup = s.sup := (rfl)
@[simp] theorem State.withSspShadow_cc (v : Word) (s : State) : (s.withSspShadow v).cc = s.cc := (rfl)
@[simp] theorem State.withSspShadow_xsrc (v : Word) (s : State) : (s.withSspShadow v).xsrc = s.xsrc := (rfl)
@[simp] theorem State.withSspShadow_irqPending (v : Word) (s : State) : (s.withSspShadow v).irqPending = s.irqPending := (rfl)
@[simp] theorem State.withSspShadow_installed (v : Word) (s : State) : (s.withSspShadow v).installed = s.installed := (rfl)
@[simp] theorem State.withSspShadow_mem (v : Word) (s : State) : (s.withSspShadow v).mem = s.mem := (rfl)
@[simp] theorem State.withSspShadow_regions (v : Word) (s : State) : (s.withSspShadow v).regions = s.regions := (rfl)
@[simp] theorem State.withSspShadow_decodeBits (v : Word) (s : State) : (s.withSspShadow v).decodeBits = s.decodeBits := (rfl)
@[simp] theorem State.withSspShadow_collabIn (v : Word) (s : State) : (s.withSspShadow v).collabIn = s.collabIn := (rfl)
@[simp] theorem State.withSspShadow_draws (v : Word) (s : State) : (s.withSspShadow v).draws = s.draws := (rfl)
@[simp] theorem State.withSspShadow_bus (v : Word) (s : State) : (s.withSspShadow v).bus = s.bus := (rfl)

@[simp] theorem State.withSup_d (b : Bool) (s : State) : (s.withSup b).d = s.d := (rfl)
@[simp] theorem State.withSup_a (b : Bool) (s : State) : (s.withSup b).a = s.a := (rfl)
@[simp] theorem State.withSup_uspShadow (b : Bool) (s : State) : (s.withSup b).uspShadow = s.uspShadow := (rfl)
@[simp] theorem State.withSup_sspShadow (b : Bool) (s : State) : (s.withSup b).sspShadow = s.sspShadow := (rfl)
@[simp] theorem State.withSup_pc (b : Bool) (s : State) : (s.withSup b).pc = s.pc := (rfl)
@[simp] theorem State.withSup_sup (b : Bool) (s : State) : (s.withSup b).sup = b := (rfl)
@[simp] theorem State.withSup_cc (b : Bool) (s : State) : (s.withSup b).cc = s.cc := (rfl)
@[simp] theorem State.withSup_xsrc (b : Bool) (s : State) : (s.withSup b).xsrc = s.xsrc := (rfl)
@[simp] theorem State.withSup_irqPending (b : Bool) (s : State) : (s.withSup b).irqPending = s.irqPending := (rfl)
@[simp] theorem State.withSup_installed (b : Bool) (s : State) : (s.withSup b).installed = s.installed := (rfl)
@[simp] theorem State.withSup_mem (b : Bool) (s : State) : (s.withSup b).mem = s.mem := (rfl)
@[simp] theorem State.withSup_regions (b : Bool) (s : State) : (s.withSup b).regions = s.regions := (rfl)
@[simp] theorem State.withSup_decodeBits (b : Bool) (s : State) : (s.withSup b).decodeBits = s.decodeBits := (rfl)
@[simp] theorem State.withSup_collabIn (b : Bool) (s : State) : (s.withSup b).collabIn = s.collabIn := (rfl)
@[simp] theorem State.withSup_draws (b : Bool) (s : State) : (s.withSup b).draws = s.draws := (rfl)
@[simp] theorem State.withSup_bus (b : Bool) (s : State) : (s.withSup b).bus = s.bus := (rfl)

@[simp] theorem State.withIrqPending_d (b : Bool) (s : State) : (s.withIrqPending b).d = s.d := (rfl)
@[simp] theorem State.withIrqPending_a (b : Bool) (s : State) : (s.withIrqPending b).a = s.a := (rfl)
@[simp] theorem State.withIrqPending_uspShadow (b : Bool) (s : State) : (s.withIrqPending b).uspShadow = s.uspShadow := (rfl)
@[simp] theorem State.withIrqPending_sspShadow (b : Bool) (s : State) : (s.withIrqPending b).sspShadow = s.sspShadow := (rfl)
@[simp] theorem State.withIrqPending_pc (b : Bool) (s : State) : (s.withIrqPending b).pc = s.pc := (rfl)
@[simp] theorem State.withIrqPending_sup (b : Bool) (s : State) : (s.withIrqPending b).sup = s.sup := (rfl)
@[simp] theorem State.withIrqPending_cc (b : Bool) (s : State) : (s.withIrqPending b).cc = s.cc := (rfl)
@[simp] theorem State.withIrqPending_xsrc (b : Bool) (s : State) : (s.withIrqPending b).xsrc = s.xsrc := (rfl)
@[simp] theorem State.withIrqPending_irqPending (b : Bool) (s : State) : (s.withIrqPending b).irqPending = b := (rfl)
@[simp] theorem State.withIrqPending_installed (b : Bool) (s : State) : (s.withIrqPending b).installed = s.installed := (rfl)
@[simp] theorem State.withIrqPending_mem (b : Bool) (s : State) : (s.withIrqPending b).mem = s.mem := (rfl)
@[simp] theorem State.withIrqPending_regions (b : Bool) (s : State) : (s.withIrqPending b).regions = s.regions := (rfl)
@[simp] theorem State.withIrqPending_decodeBits (b : Bool) (s : State) : (s.withIrqPending b).decodeBits = s.decodeBits := (rfl)
@[simp] theorem State.withIrqPending_collabIn (b : Bool) (s : State) : (s.withIrqPending b).collabIn = s.collabIn := (rfl)
@[simp] theorem State.withIrqPending_draws (b : Bool) (s : State) : (s.withIrqPending b).draws = s.draws := (rfl)
@[simp] theorem State.withIrqPending_bus (b : Bool) (s : State) : (s.withIrqPending b).bus = s.bus := (rfl)

@[simp] theorem State.withMem_d (l : List Host.Cell) (s : State) : (s.withMem l).d = s.d := (rfl)
@[simp] theorem State.withMem_a (l : List Host.Cell) (s : State) : (s.withMem l).a = s.a := (rfl)
@[simp] theorem State.withMem_uspShadow (l : List Host.Cell) (s : State) : (s.withMem l).uspShadow = s.uspShadow := (rfl)
@[simp] theorem State.withMem_sspShadow (l : List Host.Cell) (s : State) : (s.withMem l).sspShadow = s.sspShadow := (rfl)
@[simp] theorem State.withMem_pc (l : List Host.Cell) (s : State) : (s.withMem l).pc = s.pc := (rfl)
@[simp] theorem State.withMem_sup (l : List Host.Cell) (s : State) : (s.withMem l).sup = s.sup := (rfl)
@[simp] theorem State.withMem_cc (l : List Host.Cell) (s : State) : (s.withMem l).cc = s.cc := (rfl)
@[simp] theorem State.withMem_xsrc (l : List Host.Cell) (s : State) : (s.withMem l).xsrc = s.xsrc := (rfl)
@[simp] theorem State.withMem_irqPending (l : List Host.Cell) (s : State) : (s.withMem l).irqPending = s.irqPending := (rfl)
@[simp] theorem State.withMem_installed (l : List Host.Cell) (s : State) : (s.withMem l).installed = s.installed := (rfl)
@[simp] theorem State.withMem_mem (l : List Host.Cell) (s : State) : (s.withMem l).mem = l := (rfl)
@[simp] theorem State.withMem_regions (l : List Host.Cell) (s : State) : (s.withMem l).regions = s.regions := (rfl)
@[simp] theorem State.withMem_decodeBits (l : List Host.Cell) (s : State) : (s.withMem l).decodeBits = s.decodeBits := (rfl)
@[simp] theorem State.withMem_collabIn (l : List Host.Cell) (s : State) : (s.withMem l).collabIn = s.collabIn := (rfl)
@[simp] theorem State.withMem_draws (l : List Host.Cell) (s : State) : (s.withMem l).draws = s.draws := (rfl)
@[simp] theorem State.withMem_bus (l : List Host.Cell) (s : State) : (s.withMem l).bus = s.bus := (rfl)

@[simp] theorem State.withDraws_d (j : Nat) (s : State) : (s.withDraws j).d = s.d := (rfl)
@[simp] theorem State.withDraws_a (j : Nat) (s : State) : (s.withDraws j).a = s.a := (rfl)
@[simp] theorem State.withDraws_uspShadow (j : Nat) (s : State) : (s.withDraws j).uspShadow = s.uspShadow := (rfl)
@[simp] theorem State.withDraws_sspShadow (j : Nat) (s : State) : (s.withDraws j).sspShadow = s.sspShadow := (rfl)
@[simp] theorem State.withDraws_pc (j : Nat) (s : State) : (s.withDraws j).pc = s.pc := (rfl)
@[simp] theorem State.withDraws_sup (j : Nat) (s : State) : (s.withDraws j).sup = s.sup := (rfl)
@[simp] theorem State.withDraws_cc (j : Nat) (s : State) : (s.withDraws j).cc = s.cc := (rfl)
@[simp] theorem State.withDraws_xsrc (j : Nat) (s : State) : (s.withDraws j).xsrc = s.xsrc := (rfl)
@[simp] theorem State.withDraws_irqPending (j : Nat) (s : State) : (s.withDraws j).irqPending = s.irqPending := (rfl)
@[simp] theorem State.withDraws_installed (j : Nat) (s : State) : (s.withDraws j).installed = s.installed := (rfl)
@[simp] theorem State.withDraws_mem (j : Nat) (s : State) : (s.withDraws j).mem = s.mem := (rfl)
@[simp] theorem State.withDraws_regions (j : Nat) (s : State) : (s.withDraws j).regions = s.regions := (rfl)
@[simp] theorem State.withDraws_decodeBits (j : Nat) (s : State) : (s.withDraws j).decodeBits = s.decodeBits := (rfl)
@[simp] theorem State.withDraws_collabIn (j : Nat) (s : State) : (s.withDraws j).collabIn = s.collabIn := (rfl)
@[simp] theorem State.withDraws_draws (j : Nat) (s : State) : (s.withDraws j).draws = j := (rfl)
@[simp] theorem State.withDraws_bus (j : Nat) (s : State) : (s.withDraws j).bus = s.bus := (rfl)

@[simp] theorem State.withBus_d (b : List Request) (s : State) : (s.withBus b).d = s.d := (rfl)
@[simp] theorem State.withBus_a (b : List Request) (s : State) : (s.withBus b).a = s.a := (rfl)
@[simp] theorem State.withBus_uspShadow (b : List Request) (s : State) : (s.withBus b).uspShadow = s.uspShadow := (rfl)
@[simp] theorem State.withBus_sspShadow (b : List Request) (s : State) : (s.withBus b).sspShadow = s.sspShadow := (rfl)
@[simp] theorem State.withBus_pc (b : List Request) (s : State) : (s.withBus b).pc = s.pc := (rfl)
@[simp] theorem State.withBus_sup (b : List Request) (s : State) : (s.withBus b).sup = s.sup := (rfl)
@[simp] theorem State.withBus_cc (b : List Request) (s : State) : (s.withBus b).cc = s.cc := (rfl)
@[simp] theorem State.withBus_xsrc (b : List Request) (s : State) : (s.withBus b).xsrc = s.xsrc := (rfl)
@[simp] theorem State.withBus_irqPending (b : List Request) (s : State) : (s.withBus b).irqPending = s.irqPending := (rfl)
@[simp] theorem State.withBus_installed (b : List Request) (s : State) : (s.withBus b).installed = s.installed := (rfl)
@[simp] theorem State.withBus_mem (b : List Request) (s : State) : (s.withBus b).mem = s.mem := (rfl)
@[simp] theorem State.withBus_regions (b : List Request) (s : State) : (s.withBus b).regions = s.regions := (rfl)
@[simp] theorem State.withBus_decodeBits (b : List Request) (s : State) : (s.withBus b).decodeBits = s.decodeBits := (rfl)
@[simp] theorem State.withBus_collabIn (b : List Request) (s : State) : (s.withBus b).collabIn = s.collabIn := (rfl)
@[simp] theorem State.withBus_draws (b : List Request) (s : State) : (s.withBus b).draws = s.draws := (rfl)
@[simp] theorem State.withBus_bus (b : List Request) (s : State) : (s.withBus b).bus = b := (rfl)

@[simp] theorem State.withCollabIn_d (c : List CollabResponse) (s : State) : (s.withCollabIn c).d = s.d := (rfl)
@[simp] theorem State.withCollabIn_a (c : List CollabResponse) (s : State) : (s.withCollabIn c).a = s.a := (rfl)
@[simp] theorem State.withCollabIn_uspShadow (c : List CollabResponse) (s : State) : (s.withCollabIn c).uspShadow = s.uspShadow := (rfl)
@[simp] theorem State.withCollabIn_sspShadow (c : List CollabResponse) (s : State) : (s.withCollabIn c).sspShadow = s.sspShadow := (rfl)
@[simp] theorem State.withCollabIn_pc (c : List CollabResponse) (s : State) : (s.withCollabIn c).pc = s.pc := (rfl)
@[simp] theorem State.withCollabIn_sup (c : List CollabResponse) (s : State) : (s.withCollabIn c).sup = s.sup := (rfl)
@[simp] theorem State.withCollabIn_cc (c : List CollabResponse) (s : State) : (s.withCollabIn c).cc = s.cc := (rfl)
@[simp] theorem State.withCollabIn_xsrc (c : List CollabResponse) (s : State) : (s.withCollabIn c).xsrc = s.xsrc := (rfl)
@[simp] theorem State.withCollabIn_irqPending (c : List CollabResponse) (s : State) : (s.withCollabIn c).irqPending = s.irqPending := (rfl)
@[simp] theorem State.withCollabIn_installed (c : List CollabResponse) (s : State) : (s.withCollabIn c).installed = s.installed := (rfl)
@[simp] theorem State.withCollabIn_mem (c : List CollabResponse) (s : State) : (s.withCollabIn c).mem = s.mem := (rfl)
@[simp] theorem State.withCollabIn_regions (c : List CollabResponse) (s : State) : (s.withCollabIn c).regions = s.regions := (rfl)
@[simp] theorem State.withCollabIn_decodeBits (c : List CollabResponse) (s : State) : (s.withCollabIn c).decodeBits = s.decodeBits := (rfl)
@[simp] theorem State.withCollabIn_collabIn (c : List CollabResponse) (s : State) : (s.withCollabIn c).collabIn = c := (rfl)
@[simp] theorem State.withCollabIn_draws (c : List CollabResponse) (s : State) : (s.withCollabIn c).draws = s.draws := (rfl)
@[simp] theorem State.withCollabIn_bus (c : List CollabResponse) (s : State) : (s.withCollabIn c).bus = s.bus := (rfl)

@[simp] theorem State.withInstalled_d (i : List Installation) (s : State) : (s.withInstalled i).d = s.d := (rfl)
@[simp] theorem State.withInstalled_a (i : List Installation) (s : State) : (s.withInstalled i).a = s.a := (rfl)
@[simp] theorem State.withInstalled_uspShadow (i : List Installation) (s : State) : (s.withInstalled i).uspShadow = s.uspShadow := (rfl)
@[simp] theorem State.withInstalled_sspShadow (i : List Installation) (s : State) : (s.withInstalled i).sspShadow = s.sspShadow := (rfl)
@[simp] theorem State.withInstalled_pc (i : List Installation) (s : State) : (s.withInstalled i).pc = s.pc := (rfl)
@[simp] theorem State.withInstalled_sup (i : List Installation) (s : State) : (s.withInstalled i).sup = s.sup := (rfl)
@[simp] theorem State.withInstalled_cc (i : List Installation) (s : State) : (s.withInstalled i).cc = s.cc := (rfl)
@[simp] theorem State.withInstalled_xsrc (i : List Installation) (s : State) : (s.withInstalled i).xsrc = s.xsrc := (rfl)
@[simp] theorem State.withInstalled_irqPending (i : List Installation) (s : State) : (s.withInstalled i).irqPending = s.irqPending := (rfl)
@[simp] theorem State.withInstalled_installed (i : List Installation) (s : State) : (s.withInstalled i).installed = i := (rfl)
@[simp] theorem State.withInstalled_mem (i : List Installation) (s : State) : (s.withInstalled i).mem = s.mem := (rfl)
@[simp] theorem State.withInstalled_regions (i : List Installation) (s : State) : (s.withInstalled i).regions = s.regions := (rfl)
@[simp] theorem State.withInstalled_decodeBits (i : List Installation) (s : State) : (s.withInstalled i).decodeBits = s.decodeBits := (rfl)
@[simp] theorem State.withInstalled_collabIn (i : List Installation) (s : State) : (s.withInstalled i).collabIn = s.collabIn := (rfl)
@[simp] theorem State.withInstalled_draws (i : List Installation) (s : State) : (s.withInstalled i).draws = s.draws := (rfl)
@[simp] theorem State.withInstalled_bus (i : List Installation) (s : State) : (s.withInstalled i).bus = s.bus := (rfl)

/-! ### Register reads after an update -/

@[simp] theorem State.writeD_areg (n : RegNum) (v : Word) (s : State) (k : RegNum) : (s.writeD n v).areg k = s.areg k := (rfl)
@[simp] theorem State.writeA_dreg (n : RegNum) (v : Word) (s : State) (k : RegNum) : (s.writeA n v).dreg k = s.dreg k := (rfl)
@[simp] theorem State.withPc_dreg (v : Word) (s : State) (k : RegNum) : (s.withPc v).dreg k = s.dreg k := (rfl)
@[simp] theorem State.withPc_areg (v : Word) (s : State) (k : RegNum) : (s.withPc v).areg k = s.areg k := (rfl)
@[simp] theorem State.withCc_dreg (r : CcRecord) (s : State) (k : RegNum) : (s.withCc r).dreg k = s.dreg k := (rfl)
@[simp] theorem State.withCc_areg (r : CcRecord) (s : State) (k : RegNum) : (s.withCc r).areg k = s.areg k := (rfl)
@[simp] theorem State.withXsrc_dreg (r : CcRecord) (s : State) (k : RegNum) : (s.withXsrc r).dreg k = s.dreg k := (rfl)
@[simp] theorem State.withXsrc_areg (r : CcRecord) (s : State) (k : RegNum) : (s.withXsrc r).areg k = s.areg k := (rfl)
@[simp] theorem State.withUspShadow_dreg (v : Word) (s : State) (k : RegNum) : (s.withUspShadow v).dreg k = s.dreg k := (rfl)
@[simp] theorem State.withUspShadow_areg (v : Word) (s : State) (k : RegNum) : (s.withUspShadow v).areg k = s.areg k := (rfl)
@[simp] theorem State.withSspShadow_dreg (v : Word) (s : State) (k : RegNum) : (s.withSspShadow v).dreg k = s.dreg k := (rfl)
@[simp] theorem State.withSspShadow_areg (v : Word) (s : State) (k : RegNum) : (s.withSspShadow v).areg k = s.areg k := (rfl)
@[simp] theorem State.withSup_dreg (b : Bool) (s : State) (k : RegNum) : (s.withSup b).dreg k = s.dreg k := (rfl)
@[simp] theorem State.withSup_areg (b : Bool) (s : State) (k : RegNum) : (s.withSup b).areg k = s.areg k := (rfl)
@[simp] theorem State.withIrqPending_dreg (b : Bool) (s : State) (k : RegNum) : (s.withIrqPending b).dreg k = s.dreg k := (rfl)
@[simp] theorem State.withIrqPending_areg (b : Bool) (s : State) (k : RegNum) : (s.withIrqPending b).areg k = s.areg k := (rfl)
@[simp] theorem State.withMem_dreg (l : List Host.Cell) (s : State) (k : RegNum) : (s.withMem l).dreg k = s.dreg k := (rfl)
@[simp] theorem State.withMem_areg (l : List Host.Cell) (s : State) (k : RegNum) : (s.withMem l).areg k = s.areg k := (rfl)
@[simp] theorem State.withDraws_dreg (j : Nat) (s : State) (k : RegNum) : (s.withDraws j).dreg k = s.dreg k := (rfl)
@[simp] theorem State.withDraws_areg (j : Nat) (s : State) (k : RegNum) : (s.withDraws j).areg k = s.areg k := (rfl)
@[simp] theorem State.withBus_dreg (b : List Request) (s : State) (k : RegNum) : (s.withBus b).dreg k = s.dreg k := (rfl)
@[simp] theorem State.withBus_areg (b : List Request) (s : State) (k : RegNum) : (s.withBus b).areg k = s.areg k := (rfl)
@[simp] theorem State.withCollabIn_dreg (c : List CollabResponse) (s : State) (k : RegNum) : (s.withCollabIn c).dreg k = s.dreg k := (rfl)
@[simp] theorem State.withCollabIn_areg (c : List CollabResponse) (s : State) (k : RegNum) : (s.withCollabIn c).areg k = s.areg k := (rfl)
@[simp] theorem State.withInstalled_dreg (i : List Installation) (s : State) (k : RegNum) : (s.withInstalled i).dreg k = s.dreg k := (rfl)
@[simp] theorem State.withInstalled_areg (i : List Installation) (s : State) (k : RegNum) : (s.withInstalled i).areg k = s.areg k := (rfl)

theorem State.writeD_dreg (n : RegNum) (v : Word) (s : State) (k : RegNum) :
    (s.writeD n v).dreg k = if k = n then v else s.dreg k := by
  simp only [State.dreg, State.writeD, Vector.getElem_set, BitVec.toNat_inj]
  simp [eq_comm]

theorem State.writeA_areg (n : RegNum) (v : Word) (s : State) (k : RegNum) :
    (s.writeA n v).areg k = if k = n then v else s.areg k := by
  simp only [State.areg, State.writeA, Vector.getElem_set, BitVec.toNat_inj]
  simp [eq_comm]

@[simp] theorem State.writeD_dreg_self (n : RegNum) (v : Word) (s : State) : (s.writeD n v).dreg n = v := by
  simp [State.writeD_dreg]

@[simp] theorem State.writeA_areg_self (n : RegNum) (v : Word) (s : State) : (s.writeA n v).areg n = v := by
  simp [State.writeA_areg]

theorem State.writeD_dreg_ne {n k : RegNum} (v : Word) (s : State) (h : k ≠ n) : (s.writeD n v).dreg k = s.dreg k := by
  simp [State.writeD_dreg, h]

theorem State.writeA_areg_ne {n k : RegNum} (v : Word) (s : State) (h : k ≠ n) : (s.writeA n v).areg k = s.areg k := by
  simp [State.writeA_areg, h]

/-! ### What a read of the address space or of the flags depends on -/

@[simp] theorem State.writeD_peek (n : RegNum) (v : Word) (s : State) (x : Word) : (s.writeD n v).peek x = s.peek x := (rfl)
@[simp] theorem State.writeD_decodeAddr (n : RegNum) (v : Word) (s : State) (x : Word) : (s.writeD n v).decodeAddr x = s.decodeAddr x := (rfl)
@[simp] theorem State.writeD_touched (n : RegNum) (v : Word) (s : State) (x : Word) (sz : Size) : (s.writeD n v).touched x sz = s.touched x sz := (rfl)
@[simp] theorem State.writeD_load (n : RegNum) (v : Word) (s : State) (x : Word) (sz : Size) : (s.writeD n v).load x sz = s.load x sz := (rfl)
@[simp] theorem State.writeD_granted (n : RegNum) (v : Word) (s : State) (fc : FunctionCode) (kind : AccessKind) (x : Word) (sz : Size) : (s.writeD n v).granted fc kind x sz = s.granted fc kind x sz := (rfl)
@[simp] theorem State.writeD_isOracle (n : RegNum) (v : Word) (s : State) (x : Word) (sz : Size) : (s.writeD n v).isOracle x sz = s.isOracle x sz := (rfl)
@[simp] theorem State.writeD_dataFc (n : RegNum) (v : Word) (s : State) : (s.writeD n v).dataFc = s.dataFc := (rfl)
@[simp] theorem State.writeD_programFc (n : RegNum) (v : Word) (s : State) : (s.writeD n v).programFc = s.programFc := (rfl)
@[simp] theorem State.writeD_pcrelFc (n : RegNum) (v : Word) (s : State) : (s.writeD n v).pcrelFc = s.pcrelFc := (rfl)
@[simp] theorem State.writeD_flags (n : RegNum) (v : Word) (s : State) : (s.writeD n v).flags = s.flags := (rfl)
@[simp] theorem State.writeD_sr (n : RegNum) (v : Word) (s : State) : (s.writeD n v).sr = s.sr := (rfl)
@[simp] theorem State.writeD_memReadFc (n : RegNum) (v : Word) (s : State) (m : MemMode) : memReadFc m (s.writeD n v) = memReadFc m s := by cases m <;> rfl
@[simp] theorem State.writeA_peek (n : RegNum) (v : Word) (s : State) (x : Word) : (s.writeA n v).peek x = s.peek x := (rfl)
@[simp] theorem State.writeA_decodeAddr (n : RegNum) (v : Word) (s : State) (x : Word) : (s.writeA n v).decodeAddr x = s.decodeAddr x := (rfl)
@[simp] theorem State.writeA_touched (n : RegNum) (v : Word) (s : State) (x : Word) (sz : Size) : (s.writeA n v).touched x sz = s.touched x sz := (rfl)
@[simp] theorem State.writeA_load (n : RegNum) (v : Word) (s : State) (x : Word) (sz : Size) : (s.writeA n v).load x sz = s.load x sz := (rfl)
@[simp] theorem State.writeA_granted (n : RegNum) (v : Word) (s : State) (fc : FunctionCode) (kind : AccessKind) (x : Word) (sz : Size) : (s.writeA n v).granted fc kind x sz = s.granted fc kind x sz := (rfl)
@[simp] theorem State.writeA_isOracle (n : RegNum) (v : Word) (s : State) (x : Word) (sz : Size) : (s.writeA n v).isOracle x sz = s.isOracle x sz := (rfl)
@[simp] theorem State.writeA_dataFc (n : RegNum) (v : Word) (s : State) : (s.writeA n v).dataFc = s.dataFc := (rfl)
@[simp] theorem State.writeA_programFc (n : RegNum) (v : Word) (s : State) : (s.writeA n v).programFc = s.programFc := (rfl)
@[simp] theorem State.writeA_pcrelFc (n : RegNum) (v : Word) (s : State) : (s.writeA n v).pcrelFc = s.pcrelFc := (rfl)
@[simp] theorem State.writeA_flags (n : RegNum) (v : Word) (s : State) : (s.writeA n v).flags = s.flags := (rfl)
@[simp] theorem State.writeA_sr (n : RegNum) (v : Word) (s : State) : (s.writeA n v).sr = s.sr := (rfl)
@[simp] theorem State.writeA_memReadFc (n : RegNum) (v : Word) (s : State) (m : MemMode) : memReadFc m (s.writeA n v) = memReadFc m s := by cases m <;> rfl
@[simp] theorem State.withPc_peek (v : Word) (s : State) (x : Word) : (s.withPc v).peek x = s.peek x := (rfl)
@[simp] theorem State.withPc_decodeAddr (v : Word) (s : State) (x : Word) : (s.withPc v).decodeAddr x = s.decodeAddr x := (rfl)
@[simp] theorem State.withPc_touched (v : Word) (s : State) (x : Word) (sz : Size) : (s.withPc v).touched x sz = s.touched x sz := (rfl)
@[simp] theorem State.withPc_load (v : Word) (s : State) (x : Word) (sz : Size) : (s.withPc v).load x sz = s.load x sz := (rfl)
@[simp] theorem State.withPc_granted (v : Word) (s : State) (fc : FunctionCode) (kind : AccessKind) (x : Word) (sz : Size) : (s.withPc v).granted fc kind x sz = s.granted fc kind x sz := (rfl)
@[simp] theorem State.withPc_isOracle (v : Word) (s : State) (x : Word) (sz : Size) : (s.withPc v).isOracle x sz = s.isOracle x sz := (rfl)
@[simp] theorem State.withPc_dataFc (v : Word) (s : State) : (s.withPc v).dataFc = s.dataFc := (rfl)
@[simp] theorem State.withPc_programFc (v : Word) (s : State) : (s.withPc v).programFc = s.programFc := (rfl)
@[simp] theorem State.withPc_pcrelFc (v : Word) (s : State) : (s.withPc v).pcrelFc = s.pcrelFc := (rfl)
@[simp] theorem State.withPc_flags (v : Word) (s : State) : (s.withPc v).flags = s.flags := (rfl)
@[simp] theorem State.withPc_sr (v : Word) (s : State) : (s.withPc v).sr = s.sr := (rfl)
@[simp] theorem State.withPc_rreg (v : Word) (s : State) (k : BitVec 4) : (s.withPc v).rreg k = s.rreg k := (rfl)
@[simp] theorem State.withPc_memReadFc (v : Word) (s : State) (m : MemMode) : memReadFc m (s.withPc v) = memReadFc m s := by cases m <;> rfl
@[simp] theorem State.withCc_peek (r : CcRecord) (s : State) (x : Word) : (s.withCc r).peek x = s.peek x := (rfl)
@[simp] theorem State.withCc_decodeAddr (r : CcRecord) (s : State) (x : Word) : (s.withCc r).decodeAddr x = s.decodeAddr x := (rfl)
@[simp] theorem State.withCc_touched (r : CcRecord) (s : State) (x : Word) (sz : Size) : (s.withCc r).touched x sz = s.touched x sz := (rfl)
@[simp] theorem State.withCc_load (r : CcRecord) (s : State) (x : Word) (sz : Size) : (s.withCc r).load x sz = s.load x sz := (rfl)
@[simp] theorem State.withCc_granted (r : CcRecord) (s : State) (fc : FunctionCode) (kind : AccessKind) (x : Word) (sz : Size) : (s.withCc r).granted fc kind x sz = s.granted fc kind x sz := (rfl)
@[simp] theorem State.withCc_isOracle (r : CcRecord) (s : State) (x : Word) (sz : Size) : (s.withCc r).isOracle x sz = s.isOracle x sz := (rfl)
@[simp] theorem State.withCc_dataFc (r : CcRecord) (s : State) : (s.withCc r).dataFc = s.dataFc := (rfl)
@[simp] theorem State.withCc_programFc (r : CcRecord) (s : State) : (s.withCc r).programFc = s.programFc := (rfl)
@[simp] theorem State.withCc_pcrelFc (r : CcRecord) (s : State) : (s.withCc r).pcrelFc = s.pcrelFc := (rfl)
@[simp] theorem State.withCc_rreg (r : CcRecord) (s : State) (k : BitVec 4) : (s.withCc r).rreg k = s.rreg k := (rfl)
@[simp] theorem State.withCc_memAddress (r : CcRecord) (s : State) (m : MemMode) (sz : Size) (off : Nat) (ext : Word) : memAddress m sz off ext (s.withCc r) = memAddress m sz off ext s := by cases m <;> rfl
@[simp] theorem State.withCc_memReadFc (r : CcRecord) (s : State) (m : MemMode) : memReadFc m (s.withCc r) = memReadFc m s := by cases m <;> rfl
@[simp] theorem State.withXsrc_peek (r : CcRecord) (s : State) (x : Word) : (s.withXsrc r).peek x = s.peek x := (rfl)
@[simp] theorem State.withXsrc_decodeAddr (r : CcRecord) (s : State) (x : Word) : (s.withXsrc r).decodeAddr x = s.decodeAddr x := (rfl)
@[simp] theorem State.withXsrc_touched (r : CcRecord) (s : State) (x : Word) (sz : Size) : (s.withXsrc r).touched x sz = s.touched x sz := (rfl)
@[simp] theorem State.withXsrc_load (r : CcRecord) (s : State) (x : Word) (sz : Size) : (s.withXsrc r).load x sz = s.load x sz := (rfl)
@[simp] theorem State.withXsrc_granted (r : CcRecord) (s : State) (fc : FunctionCode) (kind : AccessKind) (x : Word) (sz : Size) : (s.withXsrc r).granted fc kind x sz = s.granted fc kind x sz := (rfl)
@[simp] theorem State.withXsrc_isOracle (r : CcRecord) (s : State) (x : Word) (sz : Size) : (s.withXsrc r).isOracle x sz = s.isOracle x sz := (rfl)
@[simp] theorem State.withXsrc_dataFc (r : CcRecord) (s : State) : (s.withXsrc r).dataFc = s.dataFc := (rfl)
@[simp] theorem State.withXsrc_programFc (r : CcRecord) (s : State) : (s.withXsrc r).programFc = s.programFc := (rfl)
@[simp] theorem State.withXsrc_pcrelFc (r : CcRecord) (s : State) : (s.withXsrc r).pcrelFc = s.pcrelFc := (rfl)
@[simp] theorem State.withXsrc_rreg (r : CcRecord) (s : State) (k : BitVec 4) : (s.withXsrc r).rreg k = s.rreg k := (rfl)
@[simp] theorem State.withXsrc_memAddress (r : CcRecord) (s : State) (m : MemMode) (sz : Size) (off : Nat) (ext : Word) : memAddress m sz off ext (s.withXsrc r) = memAddress m sz off ext s := by cases m <;> rfl
@[simp] theorem State.withXsrc_memReadFc (r : CcRecord) (s : State) (m : MemMode) : memReadFc m (s.withXsrc r) = memReadFc m s := by cases m <;> rfl
@[simp] theorem State.withUspShadow_peek (v : Word) (s : State) (x : Word) : (s.withUspShadow v).peek x = s.peek x := (rfl)
@[simp] theorem State.withUspShadow_decodeAddr (v : Word) (s : State) (x : Word) : (s.withUspShadow v).decodeAddr x = s.decodeAddr x := (rfl)
@[simp] theorem State.withUspShadow_touched (v : Word) (s : State) (x : Word) (sz : Size) : (s.withUspShadow v).touched x sz = s.touched x sz := (rfl)
@[simp] theorem State.withUspShadow_load (v : Word) (s : State) (x : Word) (sz : Size) : (s.withUspShadow v).load x sz = s.load x sz := (rfl)
@[simp] theorem State.withUspShadow_granted (v : Word) (s : State) (fc : FunctionCode) (kind : AccessKind) (x : Word) (sz : Size) : (s.withUspShadow v).granted fc kind x sz = s.granted fc kind x sz := (rfl)
@[simp] theorem State.withUspShadow_isOracle (v : Word) (s : State) (x : Word) (sz : Size) : (s.withUspShadow v).isOracle x sz = s.isOracle x sz := (rfl)
@[simp] theorem State.withUspShadow_dataFc (v : Word) (s : State) : (s.withUspShadow v).dataFc = s.dataFc := (rfl)
@[simp] theorem State.withUspShadow_programFc (v : Word) (s : State) : (s.withUspShadow v).programFc = s.programFc := (rfl)
@[simp] theorem State.withUspShadow_pcrelFc (v : Word) (s : State) : (s.withUspShadow v).pcrelFc = s.pcrelFc := (rfl)
@[simp] theorem State.withUspShadow_flags (v : Word) (s : State) : (s.withUspShadow v).flags = s.flags := (rfl)
@[simp] theorem State.withUspShadow_sr (v : Word) (s : State) : (s.withUspShadow v).sr = s.sr := (rfl)
@[simp] theorem State.withUspShadow_rreg (v : Word) (s : State) (k : BitVec 4) : (s.withUspShadow v).rreg k = s.rreg k := (rfl)
@[simp] theorem State.withUspShadow_memAddress (v : Word) (s : State) (m : MemMode) (sz : Size) (off : Nat) (ext : Word) : memAddress m sz off ext (s.withUspShadow v) = memAddress m sz off ext s := by cases m <;> rfl
@[simp] theorem State.withUspShadow_memReadFc (v : Word) (s : State) (m : MemMode) : memReadFc m (s.withUspShadow v) = memReadFc m s := by cases m <;> rfl
@[simp] theorem State.withSspShadow_peek (v : Word) (s : State) (x : Word) : (s.withSspShadow v).peek x = s.peek x := (rfl)
@[simp] theorem State.withSspShadow_decodeAddr (v : Word) (s : State) (x : Word) : (s.withSspShadow v).decodeAddr x = s.decodeAddr x := (rfl)
@[simp] theorem State.withSspShadow_touched (v : Word) (s : State) (x : Word) (sz : Size) : (s.withSspShadow v).touched x sz = s.touched x sz := (rfl)
@[simp] theorem State.withSspShadow_load (v : Word) (s : State) (x : Word) (sz : Size) : (s.withSspShadow v).load x sz = s.load x sz := (rfl)
@[simp] theorem State.withSspShadow_granted (v : Word) (s : State) (fc : FunctionCode) (kind : AccessKind) (x : Word) (sz : Size) : (s.withSspShadow v).granted fc kind x sz = s.granted fc kind x sz := (rfl)
@[simp] theorem State.withSspShadow_isOracle (v : Word) (s : State) (x : Word) (sz : Size) : (s.withSspShadow v).isOracle x sz = s.isOracle x sz := (rfl)
@[simp] theorem State.withSspShadow_dataFc (v : Word) (s : State) : (s.withSspShadow v).dataFc = s.dataFc := (rfl)
@[simp] theorem State.withSspShadow_programFc (v : Word) (s : State) : (s.withSspShadow v).programFc = s.programFc := (rfl)
@[simp] theorem State.withSspShadow_pcrelFc (v : Word) (s : State) : (s.withSspShadow v).pcrelFc = s.pcrelFc := (rfl)
@[simp] theorem State.withSspShadow_flags (v : Word) (s : State) : (s.withSspShadow v).flags = s.flags := (rfl)
@[simp] theorem State.withSspShadow_sr (v : Word) (s : State) : (s.withSspShadow v).sr = s.sr := (rfl)
@[simp] theorem State.withSspShadow_rreg (v : Word) (s : State) (k : BitVec 4) : (s.withSspShadow v).rreg k = s.rreg k := (rfl)
@[simp] theorem State.withSspShadow_memAddress (v : Word) (s : State) (m : MemMode) (sz : Size) (off : Nat) (ext : Word) : memAddress m sz off ext (s.withSspShadow v) = memAddress m sz off ext s := by cases m <;> rfl
@[simp] theorem State.withSspShadow_memReadFc (v : Word) (s : State) (m : MemMode) : memReadFc m (s.withSspShadow v) = memReadFc m s := by cases m <;> rfl
@[simp] theorem State.withSup_peek (b : Bool) (s : State) (x : Word) : (s.withSup b).peek x = s.peek x := (rfl)
@[simp] theorem State.withSup_decodeAddr (b : Bool) (s : State) (x : Word) : (s.withSup b).decodeAddr x = s.decodeAddr x := (rfl)
@[simp] theorem State.withSup_touched (b : Bool) (s : State) (x : Word) (sz : Size) : (s.withSup b).touched x sz = s.touched x sz := (rfl)
@[simp] theorem State.withSup_load (b : Bool) (s : State) (x : Word) (sz : Size) : (s.withSup b).load x sz = s.load x sz := (rfl)
@[simp] theorem State.withSup_granted (b : Bool) (s : State) (fc : FunctionCode) (kind : AccessKind) (x : Word) (sz : Size) : (s.withSup b).granted fc kind x sz = s.granted fc kind x sz := (rfl)
@[simp] theorem State.withSup_isOracle (b : Bool) (s : State) (x : Word) (sz : Size) : (s.withSup b).isOracle x sz = s.isOracle x sz := (rfl)
@[simp] theorem State.withSup_flags (b : Bool) (s : State) : (s.withSup b).flags = s.flags := (rfl)
@[simp] theorem State.withSup_rreg (b : Bool) (s : State) (k : BitVec 4) : (s.withSup b).rreg k = s.rreg k := (rfl)
@[simp] theorem State.withSup_memAddress (b : Bool) (s : State) (m : MemMode) (sz : Size) (off : Nat) (ext : Word) : memAddress m sz off ext (s.withSup b) = memAddress m sz off ext s := by cases m <;> rfl
@[simp] theorem State.withIrqPending_peek (b : Bool) (s : State) (x : Word) : (s.withIrqPending b).peek x = s.peek x := (rfl)
@[simp] theorem State.withIrqPending_decodeAddr (b : Bool) (s : State) (x : Word) : (s.withIrqPending b).decodeAddr x = s.decodeAddr x := (rfl)
@[simp] theorem State.withIrqPending_touched (b : Bool) (s : State) (x : Word) (sz : Size) : (s.withIrqPending b).touched x sz = s.touched x sz := (rfl)
@[simp] theorem State.withIrqPending_load (b : Bool) (s : State) (x : Word) (sz : Size) : (s.withIrqPending b).load x sz = s.load x sz := (rfl)
@[simp] theorem State.withIrqPending_granted (b : Bool) (s : State) (fc : FunctionCode) (kind : AccessKind) (x : Word) (sz : Size) : (s.withIrqPending b).granted fc kind x sz = s.granted fc kind x sz := (rfl)
@[simp] theorem State.withIrqPending_isOracle (b : Bool) (s : State) (x : Word) (sz : Size) : (s.withIrqPending b).isOracle x sz = s.isOracle x sz := (rfl)
@[simp] theorem State.withIrqPending_dataFc (b : Bool) (s : State) : (s.withIrqPending b).dataFc = s.dataFc := (rfl)
@[simp] theorem State.withIrqPending_programFc (b : Bool) (s : State) : (s.withIrqPending b).programFc = s.programFc := (rfl)
@[simp] theorem State.withIrqPending_pcrelFc (b : Bool) (s : State) : (s.withIrqPending b).pcrelFc = s.pcrelFc := (rfl)
@[simp] theorem State.withIrqPending_flags (b : Bool) (s : State) : (s.withIrqPending b).flags = s.flags := (rfl)
@[simp] theorem State.withIrqPending_sr (b : Bool) (s : State) : (s.withIrqPending b).sr = s.sr := (rfl)
@[simp] theorem State.withIrqPending_rreg (b : Bool) (s : State) (k : BitVec 4) : (s.withIrqPending b).rreg k = s.rreg k := (rfl)
@[simp] theorem State.withIrqPending_memAddress (b : Bool) (s : State) (m : MemMode) (sz : Size) (off : Nat) (ext : Word) : memAddress m sz off ext (s.withIrqPending b) = memAddress m sz off ext s := by cases m <;> rfl
@[simp] theorem State.withIrqPending_memReadFc (b : Bool) (s : State) (m : MemMode) : memReadFc m (s.withIrqPending b) = memReadFc m s := by cases m <;> rfl
@[simp] theorem State.withMem_decodeAddr (l : List Host.Cell) (s : State) (x : Word) : (s.withMem l).decodeAddr x = s.decodeAddr x := (rfl)
@[simp] theorem State.withMem_touched (l : List Host.Cell) (s : State) (x : Word) (sz : Size) : (s.withMem l).touched x sz = s.touched x sz := (rfl)
@[simp] theorem State.withMem_granted (l : List Host.Cell) (s : State) (fc : FunctionCode) (kind : AccessKind) (x : Word) (sz : Size) : (s.withMem l).granted fc kind x sz = s.granted fc kind x sz := (rfl)
@[simp] theorem State.withMem_isOracle (l : List Host.Cell) (s : State) (x : Word) (sz : Size) : (s.withMem l).isOracle x sz = s.isOracle x sz := (rfl)
@[simp] theorem State.withMem_dataFc (l : List Host.Cell) (s : State) : (s.withMem l).dataFc = s.dataFc := (rfl)
@[simp] theorem State.withMem_programFc (l : List Host.Cell) (s : State) : (s.withMem l).programFc = s.programFc := (rfl)
@[simp] theorem State.withMem_pcrelFc (l : List Host.Cell) (s : State) : (s.withMem l).pcrelFc = s.pcrelFc := (rfl)
@[simp] theorem State.withMem_flags (l : List Host.Cell) (s : State) : (s.withMem l).flags = s.flags := (rfl)
@[simp] theorem State.withMem_sr (l : List Host.Cell) (s : State) : (s.withMem l).sr = s.sr := (rfl)
@[simp] theorem State.withMem_rreg (l : List Host.Cell) (s : State) (k : BitVec 4) : (s.withMem l).rreg k = s.rreg k := (rfl)
@[simp] theorem State.withMem_memAddress (l : List Host.Cell) (s : State) (m : MemMode) (sz : Size) (off : Nat) (ext : Word) : memAddress m sz off ext (s.withMem l) = memAddress m sz off ext s := by cases m <;> rfl
@[simp] theorem State.withMem_memReadFc (l : List Host.Cell) (s : State) (m : MemMode) : memReadFc m (s.withMem l) = memReadFc m s := by cases m <;> rfl
@[simp] theorem State.withDraws_peek (j : Nat) (s : State) (x : Word) : (s.withDraws j).peek x = s.peek x := (rfl)
@[simp] theorem State.withDraws_decodeAddr (j : Nat) (s : State) (x : Word) : (s.withDraws j).decodeAddr x = s.decodeAddr x := (rfl)
@[simp] theorem State.withDraws_touched (j : Nat) (s : State) (x : Word) (sz : Size) : (s.withDraws j).touched x sz = s.touched x sz := (rfl)
@[simp] theorem State.withDraws_load (j : Nat) (s : State) (x : Word) (sz : Size) : (s.withDraws j).load x sz = s.load x sz := (rfl)
@[simp] theorem State.withDraws_granted (j : Nat) (s : State) (fc : FunctionCode) (kind : AccessKind) (x : Word) (sz : Size) : (s.withDraws j).granted fc kind x sz = s.granted fc kind x sz := (rfl)
@[simp] theorem State.withDraws_isOracle (j : Nat) (s : State) (x : Word) (sz : Size) : (s.withDraws j).isOracle x sz = s.isOracle x sz := (rfl)
@[simp] theorem State.withDraws_dataFc (j : Nat) (s : State) : (s.withDraws j).dataFc = s.dataFc := (rfl)
@[simp] theorem State.withDraws_programFc (j : Nat) (s : State) : (s.withDraws j).programFc = s.programFc := (rfl)
@[simp] theorem State.withDraws_pcrelFc (j : Nat) (s : State) : (s.withDraws j).pcrelFc = s.pcrelFc := (rfl)
@[simp] theorem State.withDraws_flags (j : Nat) (s : State) : (s.withDraws j).flags = s.flags := (rfl)
@[simp] theorem State.withDraws_sr (j : Nat) (s : State) : (s.withDraws j).sr = s.sr := (rfl)
@[simp] theorem State.withDraws_rreg (j : Nat) (s : State) (k : BitVec 4) : (s.withDraws j).rreg k = s.rreg k := (rfl)
@[simp] theorem State.withDraws_memAddress (j : Nat) (s : State) (m : MemMode) (sz : Size) (off : Nat) (ext : Word) : memAddress m sz off ext (s.withDraws j) = memAddress m sz off ext s := by cases m <;> rfl
@[simp] theorem State.withDraws_memReadFc (j : Nat) (s : State) (m : MemMode) : memReadFc m (s.withDraws j) = memReadFc m s := by cases m <;> rfl
@[simp] theorem State.withBus_peek (b : List Request) (s : State) (x : Word) : (s.withBus b).peek x = s.peek x := (rfl)
@[simp] theorem State.withBus_decodeAddr (b : List Request) (s : State) (x : Word) : (s.withBus b).decodeAddr x = s.decodeAddr x := (rfl)
@[simp] theorem State.withBus_touched (b : List Request) (s : State) (x : Word) (sz : Size) : (s.withBus b).touched x sz = s.touched x sz := (rfl)
@[simp] theorem State.withBus_load (b : List Request) (s : State) (x : Word) (sz : Size) : (s.withBus b).load x sz = s.load x sz := (rfl)
@[simp] theorem State.withBus_granted (b : List Request) (s : State) (fc : FunctionCode) (kind : AccessKind) (x : Word) (sz : Size) : (s.withBus b).granted fc kind x sz = s.granted fc kind x sz := (rfl)
@[simp] theorem State.withBus_isOracle (b : List Request) (s : State) (x : Word) (sz : Size) : (s.withBus b).isOracle x sz = s.isOracle x sz := (rfl)
@[simp] theorem State.withBus_dataFc (b : List Request) (s : State) : (s.withBus b).dataFc = s.dataFc := (rfl)
@[simp] theorem State.withBus_programFc (b : List Request) (s : State) : (s.withBus b).programFc = s.programFc := (rfl)
@[simp] theorem State.withBus_pcrelFc (b : List Request) (s : State) : (s.withBus b).pcrelFc = s.pcrelFc := (rfl)
@[simp] theorem State.withBus_flags (b : List Request) (s : State) : (s.withBus b).flags = s.flags := (rfl)
@[simp] theorem State.withBus_sr (b : List Request) (s : State) : (s.withBus b).sr = s.sr := (rfl)
@[simp] theorem State.withBus_rreg (b : List Request) (s : State) (k : BitVec 4) : (s.withBus b).rreg k = s.rreg k := (rfl)
@[simp] theorem State.withBus_memAddress (b : List Request) (s : State) (m : MemMode) (sz : Size) (off : Nat) (ext : Word) : memAddress m sz off ext (s.withBus b) = memAddress m sz off ext s := by cases m <;> rfl
@[simp] theorem State.withBus_memReadFc (b : List Request) (s : State) (m : MemMode) : memReadFc m (s.withBus b) = memReadFc m s := by cases m <;> rfl
@[simp] theorem State.withCollabIn_peek (c : List CollabResponse) (s : State) (x : Word) : (s.withCollabIn c).peek x = s.peek x := (rfl)
@[simp] theorem State.withCollabIn_decodeAddr (c : List CollabResponse) (s : State) (x : Word) : (s.withCollabIn c).decodeAddr x = s.decodeAddr x := (rfl)
@[simp] theorem State.withCollabIn_touched (c : List CollabResponse) (s : State) (x : Word) (sz : Size) : (s.withCollabIn c).touched x sz = s.touched x sz := (rfl)
@[simp] theorem State.withCollabIn_load (c : List CollabResponse) (s : State) (x : Word) (sz : Size) : (s.withCollabIn c).load x sz = s.load x sz := (rfl)
@[simp] theorem State.withCollabIn_granted (c : List CollabResponse) (s : State) (fc : FunctionCode) (kind : AccessKind) (x : Word) (sz : Size) : (s.withCollabIn c).granted fc kind x sz = s.granted fc kind x sz := (rfl)
@[simp] theorem State.withCollabIn_isOracle (c : List CollabResponse) (s : State) (x : Word) (sz : Size) : (s.withCollabIn c).isOracle x sz = s.isOracle x sz := (rfl)
@[simp] theorem State.withCollabIn_dataFc (c : List CollabResponse) (s : State) : (s.withCollabIn c).dataFc = s.dataFc := (rfl)
@[simp] theorem State.withCollabIn_programFc (c : List CollabResponse) (s : State) : (s.withCollabIn c).programFc = s.programFc := (rfl)
@[simp] theorem State.withCollabIn_pcrelFc (c : List CollabResponse) (s : State) : (s.withCollabIn c).pcrelFc = s.pcrelFc := (rfl)
@[simp] theorem State.withCollabIn_flags (c : List CollabResponse) (s : State) : (s.withCollabIn c).flags = s.flags := (rfl)
@[simp] theorem State.withCollabIn_sr (c : List CollabResponse) (s : State) : (s.withCollabIn c).sr = s.sr := (rfl)
@[simp] theorem State.withCollabIn_rreg (c : List CollabResponse) (s : State) (k : BitVec 4) : (s.withCollabIn c).rreg k = s.rreg k := (rfl)
@[simp] theorem State.withCollabIn_memAddress (c : List CollabResponse) (s : State) (m : MemMode) (sz : Size) (off : Nat) (ext : Word) : memAddress m sz off ext (s.withCollabIn c) = memAddress m sz off ext s := by cases m <;> rfl
@[simp] theorem State.withCollabIn_memReadFc (c : List CollabResponse) (s : State) (m : MemMode) : memReadFc m (s.withCollabIn c) = memReadFc m s := by cases m <;> rfl
@[simp] theorem State.withInstalled_peek (i : List Installation) (s : State) (x : Word) : (s.withInstalled i).peek x = s.peek x := (rfl)
@[simp] theorem State.withInstalled_decodeAddr (i : List Installation) (s : State) (x : Word) : (s.withInstalled i).decodeAddr x = s.decodeAddr x := (rfl)
@[simp] theorem State.withInstalled_touched (i : List Installation) (s : State) (x : Word) (sz : Size) : (s.withInstalled i).touched x sz = s.touched x sz := (rfl)
@[simp] theorem State.withInstalled_load (i : List Installation) (s : State) (x : Word) (sz : Size) : (s.withInstalled i).load x sz = s.load x sz := (rfl)
@[simp] theorem State.withInstalled_granted (i : List Installation) (s : State) (fc : FunctionCode) (kind : AccessKind) (x : Word) (sz : Size) : (s.withInstalled i).granted fc kind x sz = s.granted fc kind x sz := (rfl)
@[simp] theorem State.withInstalled_isOracle (i : List Installation) (s : State) (x : Word) (sz : Size) : (s.withInstalled i).isOracle x sz = s.isOracle x sz := (rfl)
@[simp] theorem State.withInstalled_dataFc (i : List Installation) (s : State) : (s.withInstalled i).dataFc = s.dataFc := (rfl)
@[simp] theorem State.withInstalled_programFc (i : List Installation) (s : State) : (s.withInstalled i).programFc = s.programFc := (rfl)
@[simp] theorem State.withInstalled_pcrelFc (i : List Installation) (s : State) : (s.withInstalled i).pcrelFc = s.pcrelFc := (rfl)
@[simp] theorem State.withInstalled_flags (i : List Installation) (s : State) : (s.withInstalled i).flags = s.flags := (rfl)
@[simp] theorem State.withInstalled_sr (i : List Installation) (s : State) : (s.withInstalled i).sr = s.sr := (rfl)
@[simp] theorem State.withInstalled_rreg (i : List Installation) (s : State) (k : BitVec 4) : (s.withInstalled i).rreg k = s.rreg k := (rfl)
@[simp] theorem State.withInstalled_memAddress (i : List Installation) (s : State) (m : MemMode) (sz : Size) (off : Nat) (ext : Word) : memAddress m sz off ext (s.withInstalled i) = memAddress m sz off ext s := by cases m <;> rfl
@[simp] theorem State.withInstalled_memReadFc (i : List Installation) (s : State) (m : MemMode) : memReadFc m (s.withInstalled i) = memReadFc m s := by cases m <;> rfl

end Sys2Proof.Machine
end

