-- ==== Sys2Proof/Laws/Memory.lean ====
section
/-! SUPPORT. The laws of memory: the canonical form is kept, a byte reads as it was written, every other byte stays; and
the same for requests of one, two and four bytes. -/

namespace Sys2Proof.Machine

/-! ### The list of bytes -/

theorem memoryRead_memoryWrite_ne (m : List Host.Cell) {p q : Nat} (v : Byte) (h : q ≠ p) :
    memoryRead (memoryWrite m p v) q = memoryRead m q := by
  induction m with
  | nil => by_cases hv : v = memoryDefault <;> simp [memoryWrite, memoryRead, hv, Ne.symm h]
  | cons c m ih =>
    obtain ⟨k, b⟩ := c
    by_cases h1 : p < k
    · by_cases hv : v = memoryDefault <;> simp [memoryWrite, memoryRead, h1, hv, Ne.symm h]
    · by_cases h2 : p = k
      · subst h2
        by_cases hv : v = memoryDefault <;> simp [memoryWrite, memoryRead, hv, Ne.symm h]
      · simp [memoryWrite, memoryRead, h1, h2, ih]

/-- An address below every listed one is not listed. -/
theorem memoryRead_of_lt {m : List Host.Cell} {lo p : Nat} (hw : memoryWfFrom lo m = true) (h : p < lo) :
    memoryRead m p = memoryDefault := by
  induction m generalizing lo with
  | nil => rfl
  | cons c m ih =>
    obtain ⟨k, b⟩ := c
    simp only [memoryWfFrom, Bool.and_eq_true, decide_eq_true_eq] at hw
    have hk : k ≠ p := by omega
    simp [memoryRead, hk, ih hw.2 (by omega)]

theorem memoryRead_memoryWrite_self {m : List Host.Cell} {lo : Nat} (p : Nat) (v : Byte)
    (hw : memoryWfFrom lo m = true) : memoryRead (memoryWrite m p v) p = v := by
  induction m generalizing lo with
  | nil => by_cases hv : v = memoryDefault <;> simp [memoryWrite, memoryRead, hv]
  | cons c m ih =>
    obtain ⟨k, b⟩ := c
    have hw' := hw
    simp only [memoryWfFrom, Bool.and_eq_true, decide_eq_true_eq] at hw
    by_cases h1 : p < k
    · by_cases hv : v = memoryDefault
      · have hk : k ≠ p := by omega
        simp [memoryWrite, memoryRead, h1, hv, hk, memoryRead_of_lt hw.2 (show p < k + 1 by omega)]
      · simp [memoryWrite, memoryRead, h1, hv]
    · by_cases h2 : p = k
      · subst h2
        by_cases hv : v = memoryDefault
        · simp [memoryWrite, hv, memoryRead_of_lt hw.2 (show p < p + 1 by omega)]
        · simp [memoryWrite, memoryRead, hv]
      · simp [memoryWrite, memoryRead, h1, h2, Ne.symm h2, ih hw.2]

theorem memoryWfFrom_mono {m : List Host.Cell} {lo lo' : Nat} (h : lo' ≤ lo) (hw : memoryWfFrom lo m = true) :
    memoryWfFrom lo' m = true := by
  cases m with
  | nil => rfl
  | cons c m =>
    obtain ⟨k, b⟩ := c
    simp only [memoryWfFrom, Bool.and_eq_true, decide_eq_true_eq] at hw ⊢
    exact ⟨⟨⟨by omega, hw.1.1.2⟩, hw.1.2⟩, hw.2⟩

theorem memoryWrite_wfFrom {m : List Host.Cell} {lo p : Nat} (v : Byte) (hw : memoryWfFrom lo m = true) (hlo : lo ≤ p)
    (hp : p < 2 ^ 32) : memoryWfFrom lo (memoryWrite m p v) = true := by
  induction m generalizing lo with
  | nil =>
    by_cases hv : v = memoryDefault
    · simp [memoryWrite, memoryWfFrom, hv]
    · simp [memoryWrite, memoryWfFrom, hv, hlo]; omega
  | cons c m ih =>
    obtain ⟨k, b⟩ := c
    have hw' := hw
    simp only [memoryWfFrom, Bool.and_eq_true, decide_eq_true_eq] at hw
    obtain ⟨⟨⟨h1, h2⟩, h3⟩, h4⟩ := hw
    by_cases hlt : p < k
    · by_cases hv : v = memoryDefault
      · simpa [memoryWrite, hlt, hv] using hw'
      · simp only [memoryWrite, hlt, hv, if_true, if_false, memoryWfFrom, Bool.and_eq_true, decide_eq_true_eq]
        exact ⟨⟨⟨hlo, hp⟩, by simpa using hv⟩, ⟨⟨by omega, h2⟩, h3⟩, h4⟩
    · by_cases heq : p = k
      · subst heq
        by_cases hv : v = memoryDefault
        · simpa [memoryWrite, hv] using memoryWfFrom_mono (show lo ≤ p + 1 by omega) h4
        · simp only [memoryWrite, hlt, hv, if_true, if_false, memoryWfFrom, Bool.and_eq_true, decide_eq_true_eq]
          exact ⟨⟨⟨h1, h2⟩, by simpa using hv⟩, h4⟩
      · simp only [memoryWrite, hlt, heq, if_false, memoryWfFrom, Bool.and_eq_true, decide_eq_true_eq]
        exact ⟨⟨⟨h1, h2⟩, h3⟩, ih h4 (by omega)⟩

/-- Every write keeps the canonical form. -/
theorem memoryWrite_wf {m : List Host.Cell} {p : Nat} (v : Byte) (hw : memoryWf m = true) (hp : p < 2 ^ 32) :
    memoryWf (memoryWrite m p v) = true := memoryWrite_wfFrom v hw (Nat.zero_le _) hp

/-! ### Bytes of the address space -/

theorem State.decodeAddr_lt (s : State) (a : Word) : s.decodeAddr a < 2 ^ 32 :=
  lt_of_le_of_lt (Nat.mod_le _ _) a.isLt

@[simp] theorem State.poke_d (s : State) (a : Word) (v : Byte) : (s.poke a v).d = s.d := (rfl)

theorem State.poke_eq (s : State) (a : Word) (v : Byte) :
    s.poke a v = s.withMem (memoryWrite s.mem (s.decodeAddr a) v) := (rfl)

theorem State.poke_peek_ne (s : State) {a x : Word} (v : Byte) (h : s.decodeAddr x ≠ s.decodeAddr a) :
    (s.poke a v).peek x = s.peek x := memoryRead_memoryWrite_ne _ _ h

/-- The same with the addresses decoded by another state of the same address space. -/
theorem State.poke_peek_ne_of (s t : State) (ht : t.decodeBits = s.decodeBits) {a x : Word} (v : Byte)
    (h : s.decodeAddr x ≠ s.decodeAddr a) : (t.poke a v).peek x = t.peek x := by
  apply State.poke_peek_ne
  simpa [State.decodeAddr, ht] using h

theorem State.poke_peek_self (s : State) (a : Word) (v : Byte) (hw : memoryWf s.mem = true) :
    (s.poke a v).peek a = v := memoryRead_memoryWrite_self _ _ hw

theorem State.poke_wf (s : State) (a : Word) (v : Byte) (hw : memoryWf s.mem = true) :
    memoryWf (s.poke a v).mem = true := memoryWrite_wf v hw (s.decodeAddr_lt a)

@[simp] theorem State.poke_decodeAddr (s : State) (a x : Word) (v : Byte) :
    (s.poke a v).decodeAddr x = s.decodeAddr x := (rfl)

/-! ### Values in memory order -/

theorem beValue_lt (l : List Byte) : beValue l < 256 ^ l.length := by
  induction l with
  | nil => simp [beValue]
  | cons b bs ih =>
    have hb := b.isLt
    simp only [beValue, List.length_cons, pow_succ]
    nlinarith [Nat.pos_of_ne_zero (show 256 ^ bs.length ≠ 0 by positivity)]

theorem beValue_b (b0 : Byte) : beValue [b0] = b0.toNat := by simp [beValue]

theorem beValue_w (b0 b1 : Byte) : beValue [b0, b1] = b0.toNat * 256 + b1.toNat := by simp [beValue]

theorem beValue_l (b0 b1 b2 b3 : Byte) :
    beValue [b0, b1, b2, b3] = b0.toNat * 16777216 + b1.toNat * 65536 + b2.toNat * 256 + b3.toNat := by
  simp [beValue]; ring

theorem State.load_b (s : State) (a : Word) :
    s.load a .b = BitVec.ofNat 32 (beValue [s.peek (byteAddr a 0)]) := (rfl)

theorem State.load_w (s : State) (a : Word) :
    s.load a .w = BitVec.ofNat 32 (beValue [s.peek (byteAddr a 0), s.peek (byteAddr a 1)]) := (rfl)

theorem State.load_l (s : State) (a : Word) :
    s.load a .l = BitVec.ofNat 32 (beValue [s.peek (byteAddr a 0), s.peek (byteAddr a 1), s.peek (byteAddr a 2),
      s.peek (byteAddr a 3)]) := (rfl)

theorem State.store_b (s : State) (a v : Word) : s.store a .b v = s.poke (byteAddr a 0) (beByte .b v 0) := (rfl)

theorem State.store_w (s : State) (a v : Word) :
    s.store a .w v = (s.poke (byteAddr a 0) (beByte .w v 0)).poke (byteAddr a 1) (beByte .w v 1) := (rfl)

theorem State.store_l (s : State) (a v : Word) :
    s.store a .l v = (((s.poke (byteAddr a 0) (beByte .l v 0)).poke (byteAddr a 1) (beByte .l v 1)).poke
      (byteAddr a 2) (beByte .l v 2)).poke (byteAddr a 3) (beByte .l v 3) := (rfl)

/-- A store changes the memory alone. -/
theorem State.store_eq (s : State) (a : Word) (sz : Size) (v : Word) :
    s.store a sz v = s.withMem (s.store a sz v).mem := by cases sz <;> rfl

theorem State.store_wf (s : State) (a : Word) (sz : Size) (v : Word) (hw : memoryWf s.mem = true) :
    memoryWf (s.store a sz v).mem = true := by
  cases sz <;> simp only [State.store_b, State.store_w, State.store_l] <;>
    repeat first | exact hw | apply State.poke_wf

@[simp] theorem State.store_decodeAddr (s : State) (a x : Word) (sz : Size) (v : Word) :
    (s.store a sz v).decodeAddr x = s.decodeAddr x := by cases sz <;> rfl

theorem State.touched_b (s : State) (a : Word) : s.touched a .b = [s.decodeAddr (byteAddr a 0)] := (rfl)

theorem State.touched_w (s : State) (a : Word) :
    s.touched a .w = [s.decodeAddr (byteAddr a 0), s.decodeAddr (byteAddr a 1)] := (rfl)

theorem State.touched_l (s : State) (a : Word) :
    s.touched a .l = [s.decodeAddr (byteAddr a 0), s.decodeAddr (byteAddr a 1), s.decodeAddr (byteAddr a 2),
      s.decodeAddr (byteAddr a 3)] := (rfl)

/-- A store leaves every byte outside the request as it was. -/
theorem State.store_peek_ne (s : State) {a x : Word} {sz : Size} (v : Word) (h : s.decodeAddr x ∉ s.touched a sz) :
    (s.store a sz v).peek x = s.peek x := by
  cases sz
  · rw [State.touched_b] at h
    simp only [List.mem_cons, List.not_mem_nil, or_false] at h
    rw [State.store_b, State.poke_peek_ne _ _ h]
  · rw [State.touched_w] at h
    simp only [List.mem_cons, List.not_mem_nil, or_false, not_or] at h
    rw [State.store_w, State.poke_peek_ne_of s _ ?_ _ h.2, State.poke_peek_ne _ _ h.1]
    rfl
  · rw [State.touched_l] at h
    simp only [List.mem_cons, List.not_mem_nil, or_false, not_or] at h
    rw [State.store_l, State.poke_peek_ne_of s _ ?_ _ h.2.2.2, State.poke_peek_ne_of s _ ?_ _ h.2.2.1,
      State.poke_peek_ne_of s _ ?_ _ h.2.1, State.poke_peek_ne _ _ h.1]
    all_goals rfl

/-- Where at least two address bits are decoded, the bytes of a long word are four different bytes. -/
theorem State.decodeAddr_byteAddr_ne (s : State) (a : Word) {j k : Nat} (hd : 2 ≤ s.decodeBits) (hj : j < 4)
    (hk : k < 4) (h : j ≠ k) : s.decodeAddr (byteAddr a j) ≠ s.decodeAddr (byteAddr a k) := by
  have hdvd4 : (4 : Nat) ∣ 2 ^ s.decodeBits := by
    obtain ⟨n, hn⟩ := Nat.exists_eq_add_of_le hd
    rw [hn, pow_add]
    exact Dvd.intro _ rfl
  intro he
  have h4 : (byteAddr a j).toNat % 4 = (byteAddr a k).toNat % 4 := by
    have := congrArg (· % 4) he
    simpa [State.decodeAddr, Nat.mod_mod_of_dvd _ hdvd4] using this
  simp only [byteAddr, BitVec.toNat_add, BitVec.toNat_ofNat] at h4
  omega

/-- A byte of a stored value reads as that byte of the value (20_memory.md R53, R54). -/
theorem State.store_peek_byte (s : State) (a : Word) (sz : Size) (v : Word) {k : Nat} (hw : memoryWf s.mem = true)
    (hd : 2 ≤ s.decodeBits) (hk : k < bytes sz) : (s.store a sz v).peek (byteAddr a k) = beByte sz v k := by
  have ne (j k : Nat) (t : State) (ht : t.decodeBits = s.decodeBits) (u : Byte) (hj : j < 4) (hk : k < 4)
      (h : j ≠ k) : (t.poke (byteAddr a k) u).peek (byteAddr a j) = t.peek (byteAddr a j) :=
    State.poke_peek_ne_of s t ht u (State.decodeAddr_byteAddr_ne s a hd hj hk h)
  have hw1 := fun sz => State.poke_wf s (byteAddr a 0) (beByte sz v 0) hw
  have hw2 := fun sz => State.poke_wf _ (byteAddr a 1) (beByte sz v 1) (hw1 sz)
  have hw3 := fun sz => State.poke_wf _ (byteAddr a 2) (beByte sz v 2) (hw2 sz)
  cases sz
  · obtain rfl : k = 0 := by simp [bytes] at hk; omega
    exact State.poke_peek_self _ _ _ hw
  · have : k = 0 ∨ k = 1 := by simp [bytes] at hk; omega
    rw [State.store_w]
    rcases this with rfl | rfl
    · rw [ne 0 1 _ ?_ _ (by omega) (by omega) (by omega), State.poke_peek_self _ _ _ hw]
      all_goals rfl
    · rw [State.poke_peek_self _ _ _ (hw1 _)]
  · have : k = 0 ∨ k = 1 ∨ k = 2 ∨ k = 3 := by simp [bytes] at hk; omega
    rw [State.store_l]
    rcases this with rfl | rfl | rfl | rfl
    · rw [ne 0 3 _ ?_ _ (by omega) (by omega) (by omega), ne 0 2 _ ?_ _ (by omega) (by omega) (by omega),
        ne 0 1 _ ?_ _ (by omega) (by omega) (by omega), State.poke_peek_self _ _ _ hw]
      all_goals rfl
    · rw [ne 1 3 _ ?_ _ (by omega) (by omega) (by omega), ne 1 2 _ ?_ _ (by omega) (by omega) (by omega),
        State.poke_peek_self _ _ _ (hw1 _)]
      all_goals rfl
    · rw [ne 2 3 _ ?_ _ (by omega) (by omega) (by omega), State.poke_peek_self _ _ _ (hw2 _)]
      all_goals rfl
    · rw [State.poke_peek_self _ _ _ (hw3 _)]

theorem beByte_toNat (sz : Size) (v : Word) (k : Nat) :
    (beByte sz v k).toNat = v.toNat / 2 ^ (8 * (bytes sz - 1 - k)) % 256 := by
  simp [beByte, BitVec.extractLsb'_toNat, Nat.shiftRight_eq_div_pow]

theorem getSized_toNat (sz : Size) (v : Word) : (getSized sz v).toNat = v.toNat % 2 ^ bits sz := by
  have hv := v.isLt
  cases sz
  · simpa [getSized, mask, bits] using Nat.and_two_pow_sub_one_eq_mod v.toNat 8
  · simpa [getSized, mask, bits] using Nat.and_two_pow_sub_one_eq_mod v.toNat 16
  · simpa [getSized, mask, bits] using Nat.and_two_pow_sub_one_eq_mod v.toNat 32

/-- A stored value is loaded back, masked to its size (20_memory.md R54). -/
theorem State.load_store (s : State) (a : Word) (sz : Size) (v : Word) (hw : memoryWf s.mem = true)
    (hd : 2 ≤ s.decodeBits) : (s.store a sz v).load a sz = getSized sz v := by
  apply BitVec.eq_of_toNat_eq
  have hv := v.isLt
  rw [getSized_toNat]
  cases sz
  · rw [State.load_b, State.store_peek_byte s a .b v hw hd (by simp [bytes]), beValue_b]
    simp only [BitVec.toNat_ofNat, beByte_toNat, bytes, bits]
    omega
  · rw [State.load_w, State.store_peek_byte s a .w v hw hd (by simp [bytes]),
      State.store_peek_byte s a .w v hw hd (by simp [bytes]), beValue_w]
    simp only [BitVec.toNat_ofNat, beByte_toNat, bytes, bits]
    omega
  · rw [State.load_l, State.store_peek_byte s a .l v hw hd (by simp [bytes]),
      State.store_peek_byte s a .l v hw hd (by simp [bytes]), State.store_peek_byte s a .l v hw hd (by simp [bytes]),
      State.store_peek_byte s a .l v hw hd (by simp [bytes]), beValue_l]
    simp only [BitVec.toNat_ofNat, beByte_toNat, bytes, bits]
    omega

/-- A loaded value has no bit above its size. -/
theorem State.load_toNat_lt (s : State) (a : Word) (sz : Size) : (s.load a sz).toNat < 2 ^ bits sz := by
  have h := beValue_lt ((List.range (bytes sz)).map fun k => s.peek (byteAddr a k))
  simp only [List.length_map, List.length_range] at h
  simp only [State.load, BitVec.toNat_ofNat]
  cases sz
  · simp only [bits, bytes] at h ⊢
    omega
  · simp only [bits, bytes] at h ⊢
    omega
  · simp only [bits, bytes] at h ⊢
    omega

theorem getSized_of_lt {sz : Size} {v : Word} (h : v.toNat < 2 ^ bits sz) : getSized sz v = v := by
  apply BitVec.eq_of_toNat_eq
  rw [getSized_toNat, Nat.mod_eq_of_lt h]

@[simp] theorem getSized_load (s : State) (a : Word) (sz : Size) : getSized sz (s.load a sz) = s.load a sz :=
  getSized_of_lt (s.load_toNat_lt a sz)

@[simp] theorem getSized_getSized (sz : Size) (v : Word) : getSized sz (getSized sz v) = getSized sz v := by
  apply getSized_of_lt
  rw [getSized_toNat]
  exact Nat.mod_lt _ (by positivity)

end Sys2Proof.Machine
end

