-- ==== Sys2Proof/Laws/Exec.lean ====
section
/-! SUPPORT. How a meaning runs: the sequencing of meanings, and one lemma for each shared operation that says what it
answers where its requests succeed and where they are rejected. -/

namespace Sys2Proof.Machine

/-! ### Sequencing -/

theorem bind_run {α β : Type} (x : Exec α) (f : α → Exec β) (s : State) :
    (x >>= f) s = match x s with
      | .ok a t => f a t
      | .error e t => .error e t := by
  simp only [bind, EStateM.bind]
  cases x s <;> rfl

theorem bind_ok {α β : Type} {x : Exec α} {f : α → Exec β} {s t : State} {a : α} (h : x s = .ok a t) :
    (x >>= f) s = f a t := by rw [bind_run, h]

theorem bind_error {α β : Type} {x : Exec α} {f : α → Exec β} {s t : State} {e : Stop} (h : x s = .error e t) :
    (x >>= f) s = .error e t := by rw [bind_run, h]

@[simp] theorem pure_run {α : Type} (a : α) (s : State) : (pure a : Exec α) s = .ok a s := (rfl)

@[simp] theorem reads_run {α : Type} (f : State → α) (s : State) : reads f s = .ok (f s) s := (rfl)

@[simp] theorem modifies_run (f : State → State) (s : State) : modifies f s = .ok () (f s) := (rfl)

@[simp] theorem raise_run {α : Type} (e : Stop) (s : State) : (raise e : Exec α) s = .error e s := (rfl)

@[simp] theorem advance_run (n : Nat) (s : State) : advance n s = .ok () (s.withPc (s.pc + BitVec.ofNat 32 n)) := (rfl)

/-! ### The record of requests changes nothing else -/

@[simp] theorem withBus_withBus (s : State) (b c : List Request) : (s.withBus b).withBus c = s.withBus c := (rfl)

@[simp] theorem withBus_bus_self (s : State) : s.withBus s.bus = s := (rfl)

@[simp] theorem withBus_extReadable (s : State) (b : List Request) (ea : Ea) (sz : Size) (off : Nat) :
    extReadable (s.withBus b) ea sz off = extReadable s ea sz off := (rfl)

@[simp] theorem withBus_extValue (s : State) (b : List Request) (ea : Ea) (sz : Size) (off : Nat) :
    extValue (s.withBus b) ea sz off = extValue s ea sz off := (rfl)

@[simp] theorem withBus_extRequests (s : State) (b : List Request) (ea : Ea) (sz : Size) (off : Nat) :
    extRequests (s.withBus b) ea sz off = extRequests s ea sz off := (rfl)

@[simp] theorem withBus_operandAddr (s : State) (b : List Request) (m : MemMode) (sz : Size) (off : Nat) :
    operandAddr (s.withBus b) m sz off = operandAddr s m sz off := by simp [operandAddr]

@[simp] theorem withBus_readable (s : State) (b : List Request) (fc : FunctionCode) (a : Word) (sz : Size) :
    (s.withBus b).readable fc a sz = s.readable fc a sz := (rfl)

@[simp] theorem withBus_writable (s : State) (b : List Request) (fc : FunctionCode) (a : Word) (sz : Size) :
    (s.withBus b).writable fc a sz = s.writable fc a sz := (rfl)

@[simp] theorem withBus_codeAddr (s : State) (b : List Request) (off : Nat) :
    (s.withBus b).codeAddr off = s.codeAddr off := (rfl)

@[simp] theorem withBus_operandReadable (s : State) (b : List Request) (ea : Ea) (sz : Size) (off : Nat) :
    operandReadable (s.withBus b) ea sz off = operandReadable s ea sz off := by
  rcases ea with _ | _ | m | _
  · rfl
  · rfl
  · cases m <;> rfl
  · rfl

@[simp] theorem withBus_operandWritable (s : State) (b : List Request) (ea : Ea) (sz : Size) (off : Nat) :
    operandWritable (s.withBus b) ea sz off = operandWritable s ea sz off := by
  rcases ea with _ | _ | m | _
  · rfl
  · rfl
  · cases m <;> rfl
  · rfl

@[simp] theorem withBus_operandValue (s : State) (b : List Request) (ea : Ea) (sz : Size) (off : Nat) :
    operandValue (s.withBus b) ea sz off = operandValue s ea sz off := by
  rcases ea with _ | _ | m | _
  · rfl
  · rfl
  · cases m <;> rfl
  · rfl

@[simp] theorem withBus_readRequests (s : State) (b : List Request) (ea : Ea) (sz : Size) (off : Nat) :
    readRequests (s.withBus b) ea sz off = readRequests s ea sz off := by
  rcases ea with _ | _ | m | _
  · rfl
  · rfl
  · cases m <;> rfl
  · rfl

@[simp] theorem withBus_writeRequests (s : State) (b : List Request) (ea : Ea) (sz : Size) (off : Nat) (v : Word) :
    writeRequests (s.withBus b) ea sz off v = writeRequests s ea sz off v := by
  rcases ea with _ | _ | m | _
  · rfl
  · rfl
  · cases m <;> rfl
  · rfl

@[simp] theorem withBus_sp (s : State) (b : List Request) : (s.withBus b).sp = s.sp := (rfl)

@[simp] theorem withBus_branchReadable (s : State) (b : List Request) (disp8 : BitVec 8) :
    branchReadable (s.withBus b) disp8 = branchReadable s disp8 := (rfl)

@[simp] theorem withBus_test (s : State) (b : List Request) (c : Cond) : (s.withBus b).test c = s.test c := (rfl)

/-! ### Requests -/

theorem memRead_ok {fc : FunctionCode} {a : Word} {sz : Size} {s : State} (h : s.readable fc a sz = true) :
    memRead fc a sz s = .ok (s.load a sz) (s.withBus (s.bus ++ [.get fc a sz])) := by
  simp only [State.readable, Bool.and_eq_true, Bool.not_eq_true'] at h
  simp [memRead, h.1, h.2, State.logRequest]

/-- A rejected read delivers no value and changes nothing but the record of requests (20_memory.md R61). -/
theorem memRead_rejected {fc : FunctionCode} {a : Word} {sz : Size} {s : State} (h : s.granted fc .read a sz = false) :
    memRead fc a sz s = .error (.busError a fc .read) (s.withBus (s.bus ++ [.get fc a sz])) := by
  simp [memRead, h, State.logRequest]

theorem memWrite_ok {fc : FunctionCode} {a v : Word} {sz : Size} {s : State} (h : s.writable fc a sz = true) :
    memWrite fc a sz v s = .ok () ((s.withBus (s.bus ++ [.put fc a sz (getSized sz v)])).store a sz v) := by
  simp only [State.writable] at h
  simp [memWrite, h, State.logRequest]

/-- A rejected write writes nothing (20_memory.md R61). -/
theorem memWrite_rejected {fc : FunctionCode} {a v : Word} {sz : Size} {s : State}
    (h : s.granted fc .write a sz = false) :
    memWrite fc a sz v s =
      .error (.busError a fc .write) (s.withBus (s.bus ++ [.put fc a sz (getSized sz v)])) := by
  simp [memWrite, h, State.logRequest]

@[simp] theorem fetchSize_w : fetchSize .w = .w := rfl

@[simp] theorem fetchSize_l : fetchSize .l = .l := rfl

/-- What a fetch of any size delivers; at byte size the whole word (20_memory.md R56). -/
theorem fetch_run {off : Nat} {sz : Size} {s : State}
    (h : s.readable s.programFc (s.codeAddr off) (fetchSize sz) = true) :
    fetch off sz s = .ok (s.load (s.codeAddr off) (fetchSize sz))
      (s.withBus (s.bus ++ [.get s.programFc (s.codeAddr off) (fetchSize sz)])) := memRead_ok h

/-- The fetch of a word or a long word. -/
theorem fetch_ok {off : Nat} {sz : Size} {s : State} (h : s.readable s.programFc (s.codeAddr off) sz = true)
    (hsz : sz ≠ .b := by decide) :
    fetch off sz s = .ok (s.load (s.codeAddr off) sz) (s.withBus (s.bus ++ [.get s.programFc (s.codeAddr off) sz])) := by
  cases sz with
  | b => exact absurd rfl hsz
  | w => exact fetch_run h
  | l => exact fetch_run h

/-! ### The machine's operand forms in the terms of statements -/

theorem shiftCount_eq (c : ShiftCount) (s : State) : shiftCount c s = countValue c s := by cases c <;> rfl

theorem bitSize_eq (e : Ea) : bitSize e = bitOperandSize e := by cases e <;> rfl

theorem sext16_eq (v : Word) : sext16 v = (v.setWidth 16).signExtend 32 := rfl

/-! ### Resolvers -/

theorem eaExtensionSize_cases (ea : Ea) (sz : Size) :
    eaExtensionSize ea sz = 0 ∨ eaExtensionSize ea sz = 2 ∨ eaExtensionSize ea sz = 4 := by
  rcases ea with _ | _ | m | _
  · simp [eaExtensionSize]
  · simp [eaExtensionSize]
  · cases m <;> simp [eaExtensionSize]
  · cases sz <;> simp [eaExtensionSize]

theorem construct_ok {ea : Ea} {sz : Size} {off : Nat} {s : State} (h : extReadable s ea sz off = true) :
    construct ea sz off s =
      .ok ⟨ea, sz, off, extValue s ea sz off⟩ (s.withBus (s.bus ++ extRequests s ea sz off)) := by
  unfold construct extValue extRequests
  unfold extReadable at h
  rcases eaExtensionSize_cases ea sz with he | he | he <;> simp only [he] at h ⊢
  · simp
  · simp [bind_run, fetch_ok h]
  · simp [bind_run, fetch_ok h]

theorem Resolver.get_ok {ea : Ea} {sz : Size} {off : Nat} {s : State} (h : operandReadable s ea sz off = true) :
    (Resolver.mk ea sz off (extValue s ea sz off)).get s =
      .ok (operandValue s ea sz off) (s.withBus (s.bus ++ readRequests s ea sz off)) := by
  cases ea with
  | dn n => simp [Resolver.get, operandValue, readRequests]
  | an n => simp [Resolver.get, operandValue, readRequests]
  | imm => simp [Resolver.get, operandValue, readRequests]
  | mem m => exact memRead_ok h

/-- Construction and reading in a state that differs from `s` in the record of requests alone. -/
theorem construct_withBus_ok {ea : Ea} {sz : Size} {off : Nat} {s : State} (h : extReadable s ea sz off = true)
    (b : List Request) :
    construct ea sz off (s.withBus b) =
      .ok ⟨ea, sz, off, extValue s ea sz off⟩ (s.withBus (b ++ extRequests s ea sz off)) := by
  have h' : extReadable (s.withBus b) ea sz off = true := by simpa using h
  simpa using construct_ok h'

theorem Resolver.get_withBus_ok {ea : Ea} {sz : Size} {off : Nat} {s : State}
    (h : operandReadable s ea sz off = true) (b : List Request) :
    (Resolver.mk ea sz off (extValue s ea sz off)).get (s.withBus b) =
      .ok (operandValue s ea sz off) (s.withBus (b ++ readRequests s ea sz off)) := by
  have h' : operandReadable (s.withBus b) ea sz off = true := by simpa using h
  simpa using Resolver.get_ok h'

@[simp] theorem operandValue_masked (s : State) (ea : Ea) (sz : Size) (off : Nat) :
    getSized sz (operandValue s ea sz off) = operandValue s ea sz off := by
  cases ea <;> simp [operandValue]

@[simp] theorem Resolver.extensionSize_mk (ea : Ea) (sz : Size) (off : Nat) (ext : Word) :
    (Resolver.mk ea sz off ext).extensionSize = eaExtensionSize ea sz := (rfl)

@[simp] theorem Resolver.address_run (m : MemMode) (sz : Size) (off : Nat) (s t : State) :
    (Resolver.mk (.mem m) sz off (extValue s (.mem m) sz off)).address t =
      .ok (memAddress m sz off (extValue s (.mem m) sz off) t) t := (rfl)

/-- The state after `put`. -/
def afterPut (ea : Ea) (sz : Size) (off : Nat) (ext v : Word) (s : State) : State :=
  match ea with
  | .dn n => s.writeD n (putSized sz (s.dreg n) v)
  | .an n => s.writeA n (addressValue sz v)
  | .imm => s
  | .mem m =>
    (s.withBus (s.bus ++ [.put s.dataFc (memAddress m sz off ext s) sz (getSized sz v)])).store
      (memAddress m sz off ext s) sz v

theorem Resolver.put_ok {ea : Ea} {sz : Size} {off : Nat} {ext v : Word} {s : State}
    (h : ∀ m, ea = .mem m → s.writable s.dataFc (memAddress m sz off ext s) sz = true) :
    (Resolver.mk ea sz off ext).put v s = .ok () (afterPut ea sz off ext v s) := by
  cases ea with
  | dn n => rfl
  | an n => rfl
  | imm => rfl
  | mem m => exact memWrite_ok (h m rfl)

/-- The state after `finish`. -/
def afterFinish (ea : Ea) (sz : Size) (s : State) : State :=
  match ea with
  | .mem (.postInc n) => s.writeA n (s.areg n + stepSize sz n)
  | .mem (.preDec n) => s.writeA n (s.areg n - stepSize sz n)
  | _ => s

@[simp] theorem Resolver.finish_run (ea : Ea) (sz : Size) (off : Nat) (ext : Word) (s : State) :
    (Resolver.mk ea sz off ext).finish s = .ok () (afterFinish ea sz s) := by
  rcases ea with _ | _ | m | _
  · rfl
  · rfl
  · cases m <;> rfl
  · rfl

theorem afterFinish_areg (ea : Ea) (sz : Size) (s : State) (n : RegNum) :
    (afterFinish ea sz s).areg n = s.areg n + finishDelta ea sz n := by
  rcases ea with _ | _ | m | _
  · simp [afterFinish, finishDelta]
  · simp [afterFinish, finishDelta]
  · cases m <;> simp [afterFinish, finishDelta, State.writeA_areg] <;> split <;> simp_all [sub_eq_add_neg]
  · simp [afterFinish, finishDelta]

/-- `finish` touches an address register only (20_memory.md R63). -/
theorem afterFinish_eq (ea : Ea) (sz : Size) (s : State) :
    afterFinish ea sz s = { s with a := (afterFinish ea sz s).a } := by
  rcases ea with _ | _ | m | _
  · rfl
  · rfl
  · cases m <;> rfl
  · rfl

/-! ### Outcomes -/

theorem runBase_ok {i : Instr} {body : Exec Unit} {s t : State} (hw : i.wf = true) (h : body s = .ok () t) :
    runBase i body s = .next t := by simp [runBase, hw, h, outcomeOf]

theorem runBase_error {i : Instr} {body : Exec Unit} {s t : State} {e : Stop} (hw : i.wf = true)
    (h : body s = .error e t) : runBase i body s = .fault (faultOf (some (encode i)) s.pc t e) := by
  simp [runBase, hw, h, outcomeOf]

/-- What a base handler's next state comes from. -/
theorem runBase_next {i : Instr} {body : Exec Unit} {s t : State} (h : runBase i body s = .next t) :
    i.wf = true ∧ body s = .ok () t := by
  unfold runBase at h
  split at h
  · next hw =>
    refine ⟨hw, ?_⟩
    cases hb : body s with
    | ok a u => rw [hb] at h; cases h; rfl
    | error e u => rw [hb] at h; cases h
  · cases h

@[simp] theorem faultOf_left (op : Option Half) (pc : Word) (t : State) (e : Stop) : (faultOf op pc t e).left = t := by
  cases e <;> rfl

end Sys2Proof.Machine
end

