-- ==== Sys2Proof/Laws/Frames.lean ====
section
/-! SUPPORT. Frames of the shared operations: what a store, a `put` and a `finish` leave unchanged, what a written operand
holds, and the flags of each setter in the terms of the claims. -/

namespace Sys2Proof.Machine

/-! ### A store changes memory alone -/

@[simp] theorem State.store_d (s : State) (a : Word) (sz : Size) (v : Word) : (s.store a sz v).d = s.d := by
  cases sz <;> rfl

@[simp] theorem State.store_a (s : State) (a : Word) (sz : Size) (v : Word) : (s.store a sz v).a = s.a := by
  cases sz <;> rfl

@[simp] theorem State.store_uspShadow (s : State) (a : Word) (sz : Size) (v : Word) : (s.store a sz v).uspShadow = s.uspShadow := by
  cases sz <;> rfl

@[simp] theorem State.store_sspShadow (s : State) (a : Word) (sz : Size) (v : Word) : (s.store a sz v).sspShadow = s.sspShadow := by
  cases sz <;> rfl

@[simp] theorem State.store_pc (s : State) (a : Word) (sz : Size) (v : Word) : (s.store a sz v).pc = s.pc := by
  cases sz <;> rfl

@[simp] theorem State.store_sup (s : State) (a : Word) (sz : Size) (v : Word) : (s.store a sz v).sup = s.sup := by
  cases sz <;> rfl

@[simp] theorem State.store_cc (s : State) (a : Word) (sz : Size) (v : Word) : (s.store a sz v).cc = s.cc := by
  cases sz <;> rfl

@[simp] theorem State.store_xsrc (s : State) (a : Word) (sz : Size) (v : Word) : (s.store a sz v).xsrc = s.xsrc := by
  cases sz <;> rfl

@[simp] theorem State.store_irqPending (s : State) (a : Word) (sz : Size) (v : Word) : (s.store a sz v).irqPending = s.irqPending := by
  cases sz <;> rfl

@[simp] theorem State.store_installed (s : State) (a : Word) (sz : Size) (v : Word) : (s.store a sz v).installed = s.installed := by
  cases sz <;> rfl

@[simp] theorem State.store_regions (s : State) (a : Word) (sz : Size) (v : Word) : (s.store a sz v).regions = s.regions := by
  cases sz <;> rfl

@[simp] theorem State.store_decodeBits (s : State) (a : Word) (sz : Size) (v : Word) : (s.store a sz v).decodeBits = s.decodeBits := by
  cases sz <;> rfl

@[simp] theorem State.store_collabIn (s : State) (a : Word) (sz : Size) (v : Word) : (s.store a sz v).collabIn = s.collabIn := by
  cases sz <;> rfl

@[simp] theorem State.store_draws (s : State) (a : Word) (sz : Size) (v : Word) : (s.store a sz v).draws = s.draws := by
  cases sz <;> rfl

@[simp] theorem State.store_bus (s : State) (a : Word) (sz : Size) (v : Word) : (s.store a sz v).bus = s.bus := by
  cases sz <;> rfl

@[simp] theorem State.store_dreg (s : State) (a : Word) (sz : Size) (v : Word) (n : RegNum) :
    (s.store a sz v).dreg n = s.dreg n := by simp [State.dreg]

@[simp] theorem State.store_areg (s : State) (a : Word) (sz : Size) (v : Word) (n : RegNum) :
    (s.store a sz v).areg n = s.areg n := by simp [State.areg]

@[simp] theorem State.store_flags (s : State) (a : Word) (sz : Size) (v : Word) :
    (s.store a sz v).flags = s.flags := by simp [State.flags]

@[simp] theorem State.store_dataFc (s : State) (a : Word) (sz : Size) (v : Word) :
    (s.store a sz v).dataFc = s.dataFc := by simp [State.dataFc]

/-- A read of the byte depends on memory and on the decoded address bits alone. -/
theorem State.peek_congr {s t : State} (hm : t.mem = s.mem) (hb : t.decodeBits = s.decodeBits) (x : Word) :
    t.peek x = s.peek x := by simp [State.peek, State.decodeAddr, hm, hb]

theorem State.load_congr {s t : State} (hm : t.mem = s.mem) (hb : t.decodeBits = s.decodeBits) (a : Word)
    (sz : Size) : t.load a sz = s.load a sz := by simp [State.load, State.peek_congr hm hb]

theorem State.dreg_congr {s t : State} (hd : t.d = s.d) (n : RegNum) : t.dreg n = s.dreg n := by
  simp [State.dreg, hd]

theorem State.areg_congr {s t : State} (ha : t.a = s.a) (n : RegNum) : t.areg n = s.areg n := by
  simp [State.areg, ha]

theorem State.flags_congr {s t : State} (hc : t.cc = s.cc) (hx : t.xsrc = s.xsrc) : t.flags = s.flags := by
  simp [State.flags, hc, hx]

theorem State.poke_mem_congr {s t : State} (hm : t.mem = s.mem) (hb : t.decodeBits = s.decodeBits) (a : Word)
    (v : Byte) : (t.poke a v).mem = (s.poke a v).mem := by simp [State.poke, State.decodeAddr, hm, hb]

/-- What a store leaves in memory depends on memory and on the decoded address bits alone. -/
theorem State.store_mem_congr {s t : State} (hm : t.mem = s.mem) (hb : t.decodeBits = s.decodeBits) (a : Word)
    (sz : Size) (v : Word) : (t.store a sz v).mem = (s.store a sz v).mem := by
  have hp : ∀ (u : State) (a : Word) (v : Byte), (u.poke a v).decodeBits = u.decodeBits := fun _ _ _ => rfl
  cases sz
  · exact State.poke_mem_congr hm hb _ _
  · exact State.poke_mem_congr (State.poke_mem_congr hm hb _ _) (by simp only [hp, hb]) _ _
  · exact State.poke_mem_congr (State.poke_mem_congr (State.poke_mem_congr (State.poke_mem_congr hm hb _ _)
      (by simp only [hp, hb]) _ _) (by simp only [hp, hb]) _ _) (by simp only [hp, hb]) _ _

/-! ### `finish` changes address registers alone (41_addressing_modes.md R163) -/

@[simp] theorem afterFinish_d (ea : Ea) (sz : Size) (s : State) : (afterFinish ea sz s).d = s.d := by
  rw [afterFinish_eq]

@[simp] theorem afterFinish_mem (ea : Ea) (sz : Size) (s : State) : (afterFinish ea sz s).mem = s.mem := by
  rw [afterFinish_eq]

@[simp] theorem afterFinish_uspShadow (ea : Ea) (sz : Size) (s : State) : (afterFinish ea sz s).uspShadow = s.uspShadow := by
  rw [afterFinish_eq]

@[simp] theorem afterFinish_sspShadow (ea : Ea) (sz : Size) (s : State) : (afterFinish ea sz s).sspShadow = s.sspShadow := by
  rw [afterFinish_eq]

@[simp] theorem afterFinish_pc (ea : Ea) (sz : Size) (s : State) : (afterFinish ea sz s).pc = s.pc := by
  rw [afterFinish_eq]

@[simp] theorem afterFinish_sup (ea : Ea) (sz : Size) (s : State) : (afterFinish ea sz s).sup = s.sup := by
  rw [afterFinish_eq]

@[simp] theorem afterFinish_cc (ea : Ea) (sz : Size) (s : State) : (afterFinish ea sz s).cc = s.cc := by
  rw [afterFinish_eq]

@[simp] theorem afterFinish_xsrc (ea : Ea) (sz : Size) (s : State) : (afterFinish ea sz s).xsrc = s.xsrc := by
  rw [afterFinish_eq]

@[simp] theorem afterFinish_irqPending (ea : Ea) (sz : Size) (s : State) : (afterFinish ea sz s).irqPending = s.irqPending := by
  rw [afterFinish_eq]

@[simp] theorem afterFinish_installed (ea : Ea) (sz : Size) (s : State) : (afterFinish ea sz s).installed = s.installed := by
  rw [afterFinish_eq]

@[simp] theorem afterFinish_regions (ea : Ea) (sz : Size) (s : State) : (afterFinish ea sz s).regions = s.regions := by
  rw [afterFinish_eq]

@[simp] theorem afterFinish_decodeBits (ea : Ea) (sz : Size) (s : State) : (afterFinish ea sz s).decodeBits = s.decodeBits := by
  rw [afterFinish_eq]

@[simp] theorem afterFinish_collabIn (ea : Ea) (sz : Size) (s : State) : (afterFinish ea sz s).collabIn = s.collabIn := by
  rw [afterFinish_eq]

@[simp] theorem afterFinish_draws (ea : Ea) (sz : Size) (s : State) : (afterFinish ea sz s).draws = s.draws := by
  rw [afterFinish_eq]

@[simp] theorem afterFinish_bus (ea : Ea) (sz : Size) (s : State) : (afterFinish ea sz s).bus = s.bus := by
  rw [afterFinish_eq]

@[simp] theorem afterFinish_dreg (ea : Ea) (sz : Size) (s : State) (n : RegNum) :
    (afterFinish ea sz s).dreg n = s.dreg n := State.dreg_congr (by simp) n

@[simp] theorem afterFinish_peek (ea : Ea) (sz : Size) (s : State) (x : Word) :
    (afterFinish ea sz s).peek x = s.peek x := State.peek_congr (by simp) (by simp) x

@[simp] theorem afterFinish_load (ea : Ea) (sz : Size) (s : State) (a : Word) (n : Size) :
    (afterFinish ea sz s).load a n = s.load a n := State.load_congr (by simp) (by simp) a n

@[simp] theorem afterFinish_flags (ea : Ea) (sz : Size) (s : State) : (afterFinish ea sz s).flags = s.flags :=
  State.flags_congr (by simp) (by simp)

/-! ### `put` writes its operand alone (41_addressing_modes.md R164 to R174) -/

@[simp] theorem afterPut_uspShadow (ea : Ea) (sz : Size) (off : Nat) (ext v : Word) (s : State) :
    (afterPut ea sz off ext v s).uspShadow = s.uspShadow := by cases ea <;> simp [afterPut]

@[simp] theorem afterPut_sspShadow (ea : Ea) (sz : Size) (off : Nat) (ext v : Word) (s : State) :
    (afterPut ea sz off ext v s).sspShadow = s.sspShadow := by cases ea <;> simp [afterPut]

@[simp] theorem afterPut_pc (ea : Ea) (sz : Size) (off : Nat) (ext v : Word) (s : State) :
    (afterPut ea sz off ext v s).pc = s.pc := by cases ea <;> simp [afterPut]

@[simp] theorem afterPut_sup (ea : Ea) (sz : Size) (off : Nat) (ext v : Word) (s : State) :
    (afterPut ea sz off ext v s).sup = s.sup := by cases ea <;> simp [afterPut]

@[simp] theorem afterPut_cc (ea : Ea) (sz : Size) (off : Nat) (ext v : Word) (s : State) :
    (afterPut ea sz off ext v s).cc = s.cc := by cases ea <;> simp [afterPut]

@[simp] theorem afterPut_xsrc (ea : Ea) (sz : Size) (off : Nat) (ext v : Word) (s : State) :
    (afterPut ea sz off ext v s).xsrc = s.xsrc := by cases ea <;> simp [afterPut]

@[simp] theorem afterPut_irqPending (ea : Ea) (sz : Size) (off : Nat) (ext v : Word) (s : State) :
    (afterPut ea sz off ext v s).irqPending = s.irqPending := by cases ea <;> simp [afterPut]

@[simp] theorem afterPut_installed (ea : Ea) (sz : Size) (off : Nat) (ext v : Word) (s : State) :
    (afterPut ea sz off ext v s).installed = s.installed := by cases ea <;> simp [afterPut]

@[simp] theorem afterPut_regions (ea : Ea) (sz : Size) (off : Nat) (ext v : Word) (s : State) :
    (afterPut ea sz off ext v s).regions = s.regions := by cases ea <;> simp [afterPut]

@[simp] theorem afterPut_decodeBits (ea : Ea) (sz : Size) (off : Nat) (ext v : Word) (s : State) :
    (afterPut ea sz off ext v s).decodeBits = s.decodeBits := by cases ea <;> simp [afterPut]

@[simp] theorem afterPut_collabIn (ea : Ea) (sz : Size) (off : Nat) (ext v : Word) (s : State) :
    (afterPut ea sz off ext v s).collabIn = s.collabIn := by cases ea <;> simp [afterPut]

@[simp] theorem afterPut_draws (ea : Ea) (sz : Size) (off : Nat) (ext v : Word) (s : State) :
    (afterPut ea sz off ext v s).draws = s.draws := by cases ea <;> simp [afterPut]

@[simp] theorem afterPut_flags (ea : Ea) (sz : Size) (off : Nat) (ext v : Word) (s : State) :
    (afterPut ea sz off ext v s).flags = s.flags := State.flags_congr (by simp) (by simp)

/-- No operand but an address register changes one. -/
theorem afterPut_areg {ea : Ea} (h : isDataAlterable ea = true) (sz : Size) (off : Nat) (ext v : Word) (s : State)
    (n : RegNum) : (afterPut ea sz off ext v s).areg n = s.areg n := by
  cases ea with
  | an k => cases h
  | dn k => simp [afterPut]
  | imm => rfl
  | mem m => simp [afterPut]

/-- The request a `put` issues. -/
theorem afterPut_bus (ea : Ea) (sz : Size) (off : Nat) (v : Word) (s : State) :
    (afterPut ea sz off (extValue s ea sz off) v s).bus = s.bus ++ writeRequests s ea sz off v := by
  cases ea <;> simp [afterPut, writeRequests, operandAddr]

/-- A write that `s` accepts is accepted in a state that agrees with it on the operand's address and the mode. -/
theorem Resolver.put_run {ea : Ea} {sz : Size} {off : Nat} {v : Word} {s u : State}
    (h : operandWritable s ea sz off = true) (hg : ∀ a, u.writable u.dataFc a sz = s.writable s.dataFc a sz)
    (ha : ∀ m, memAddress m sz off (extValue s ea sz off) u = memAddress m sz off (extValue s ea sz off) s) :
    (Resolver.mk ea sz off (extValue s ea sz off)).put v u =
      .ok () (afterPut ea sz off (extValue s ea sz off) v u) := by
  apply Resolver.put_ok
  rintro m rfl
  rw [ha, hg]
  exact h

/-- An operand written in a state that agrees with `s` on what its address and its contents depend on. -/
theorem wrote_afterPut {ea : Ea} {sz : Size} {off : Nat} {v : Word} {s u : State} (hea : isDataAlterable ea = true)
    (hd : u.d = s.d) (hm : u.mem = s.mem) (hb : u.decodeBits = s.decodeBits)
    (ha : ∀ m, memAddress m sz off (extValue s ea sz off) u = memAddress m sz off (extValue s ea sz off) s) :
    Wrote ea sz off v s (afterPut ea sz off (extValue s ea sz off) v u) := by
  cases ea with
  | an k => cases hea
  | imm => cases hea
  | dn k =>
    refine ⟨by simp [afterPut, State.dreg_congr hd], fun n hn => ?_, fun x => ?_⟩
    · simp [afterPut, State.writeD_dreg, hn, State.dreg_congr hd]
    · simp [afterPut, State.peek_congr hm hb]
  | mem m =>
    simp only [Wrote, afterPut, ha, operandAddr]
    refine ⟨fun n => by simp [State.dreg_congr hd], fun ho => ?_, fun x hx => ?_⟩
    · rw [State.load_store]
      · simpa [hm] using ho.1
      · simpa [hb] using ho.2
    · rw [State.store_peek_ne]
      · simp [State.peek_congr hm hb]
      · simpa [State.decodeAddr, State.touched, hb] using hx

/-- What `Wrote` says depends on the data registers and the bytes of the state after alone. -/
theorem Wrote.congr {ea : Ea} {sz : Size} {off : Nat} {v : Word} {s t u : State} (h : Wrote ea sz off v s t)
    (hd : u.d = t.d) (hm : u.mem = t.mem) (hb : u.decodeBits = t.decodeBits) : Wrote ea sz off v s u := by
  cases ea with
  | an k => cases h
  | imm => cases h
  | dn k =>
    obtain ⟨h1, h2, h3⟩ := h
    exact ⟨(State.dreg_congr hd k).trans h1, fun n hn => (State.dreg_congr hd n).trans (h2 n hn),
      fun x => (State.peek_congr hm hb x).trans (h3 x)⟩
  | mem m =>
    obtain ⟨h1, h2, h3⟩ := h
    exact ⟨fun n => (State.dreg_congr hd n).trans (h1 n), fun ho => (State.load_congr hm hb _ _).trans (h2 ho),
      fun x hx => (State.peek_congr hm hb x).trans (h3 x hx)⟩

/-- The end of a meaning that writes an operand: `put`, `finish`, and the pc past the instruction, in a state that differs
from `s` in the condition-code records, the free values drawn and the record of requests alone. -/
theorem put_finish_advance {ea : Ea} {sz : Size} {off : Nat} {v : Word} {s : State} (c x : CcRecord) (k : Nat)
    (b : List Request) (n : Nat) (hea : isDataAlterable ea = true) (hw : operandWritable s ea sz off = true) :
    ∃ t, (do
        (Resolver.mk ea sz off (extValue s ea sz off)).put v
        (Resolver.mk ea sz off (extValue s ea sz off)).finish
        advance n) ((((s.withCc c).withXsrc x).withDraws k).withBus b) = .ok () t ∧
      Wrote ea sz off v s t ∧ t.cc = c ∧ t.xsrc = x ∧ (∀ i, t.areg i = s.areg i + finishDelta ea sz i) ∧
      t.pc = s.pc + BitVec.ofNat 32 n ∧ t.bus = b ++ writeRequests s ea sz off v ∧ SameSystem s t ∧ t.draws = k := by
  generalize hu : (((s.withCc c).withXsrc x).withDraws k).withBus b = u
  refine ⟨(afterFinish ea sz (afterPut ea sz off (extValue s ea sz off) v u)).withPc (s.pc + BitVec.ofNat 32 n),
    ?_, ?_⟩
  · rw [bind_ok (Resolver.put_run hw (by subst hu; intro a; rfl) (by subst hu; simp)),
      bind_ok (Resolver.finish_run _ _ _ _ _), advance_run]
    subst hu
    simp
  · refine ⟨(wrote_afterPut (u := u) hea (by subst hu; rfl) (by subst hu; rfl) (by subst hu; rfl)
      (by subst hu; simp)).congr (by simp) (by simp) (by simp), ?_⟩
    have hb : (afterPut ea sz off (extValue s ea sz off) v u).bus = b ++ writeRequests s ea sz off v := by
      subst hu
      cases ea <;> simp [afterPut, writeRequests, operandAddr]
    refine ⟨?_, ?_, ?_, ?_, ?_, ?_, ?_⟩
    · simp [← hu]
    · simp [← hu]
    · intro i
      simp [afterFinish_areg, afterPut_areg hea, ← hu]
    · simp
    · simpa using hb
    · simp [SameSystem, SameHost, ← hu]
    · simp [← hu]

/-- The setters replace the condition-code records alone; the unspecified one draws a free value as well. -/
theorem setCcShift_eq (tag : Strategy) (sz : Size) (r v : Word) (count : Nat) (s : State) :
    setCcShift tag sz r v count s =
      (s.withCc (setCcShift tag sz r v count s).cc).withXsrc (setCcShift tag sz r v count s).xsrc := by
  unfold setCcShift
  split <;> rfl

/-- The sequence of every instruction that reads its destination operand, computes from it and writes it back: `f` the
computation, `setf` the setter. -/
theorem readModifyWrite {sz : Size} {dst : Ea} {off : Nat} {s : State} (b : List Request) (setf : Word → State → State)
    (f : Word → Word) (c x : CcRecord) (k : Nat) (h1 : extReadable s dst sz off = true)
    (h2 : operandReadable s dst sz off = true) (h3 : operandWritable s dst sz off = true)
    (hda : isDataAlterable dst = true)
    (hs : ∀ b, setf (operandValue s dst sz off) (s.withBus b) =
      (((s.withCc c).withXsrc x).withDraws k).withBus b) :
    ∃ t, (do
        let rd ← construct dst sz off
        let v ← rd.get
        modifies (setf v)
        rd.put (f v)
        rd.finish
        advance (off + rd.extensionSize)) (s.withBus b) = .ok () t ∧
      Wrote dst sz off (f (operandValue s dst sz off)) s t ∧ t.cc = c ∧ t.xsrc = x ∧
      (∀ n, t.areg n = s.areg n + finishDelta dst sz n) ∧
      t.pc = s.pc + BitVec.ofNat 32 (off + eaExtensionSize dst sz) ∧
      t.bus = b ++ extRequests s dst sz off ++ readRequests s dst sz off ++
        writeRequests s dst sz off (f (operandValue s dst sz off)) ∧
      SameSystem s t ∧ t.draws = k := by
  rw [bind_ok (construct_withBus_ok h1 _), bind_ok (Resolver.get_withBus_ok h2 _), bind_ok (modifies_run _ _), hs]
  exact put_finish_advance c x k _ _ hda h3

/-- A destination that must be in memory is one that can be written as data. -/
theorem isDataAlterable_of_memory {ea : Ea} (h : isMemoryAlterable ea = true) : isDataAlterable ea = true := by
  rcases ea with _ | _ | m | _ <;> simp_all [isMemoryAlterable, isDataAlterable, isAlterable, isMemory, isData]

/-! ### Branch displacements, pushes and pops -/

theorem branchDisp_ok {disp8 : BitVec 8} {s : State} (h : branchReadable s disp8 = true) :
    branchDisp disp8 s = .ok (branchValue s disp8) (s.withBus (s.bus ++ branchRequests s disp8)) := by
  unfold branchDisp branchValue branchRequests
  by_cases h0 : disp8 = 0#8
  · have hr : s.readable s.programFc (s.codeAddr 2) .w = true := by simpa [branchReadable, h0] using h
    simp [h0, bind_run, fetch_ok hr, sext16]
  · simp [h0]

theorem pushLong_ok {v : Word} {s : State} (h : s.writable s.dataFc (s.sp - 4#32) .l = true) :
    pushLong v s = .ok () (((s.withBus (s.bus ++ [.put s.dataFc (s.sp - 4#32) .l v])).store (s.sp - 4#32) .l v).writeA
      spReg (s.sp - 4#32)) := by
  have hm : getSized .l v = v := getSized_of_lt v.isLt
  unfold pushLong
  simp only [State.sp] at h ⊢
  rw [bind_ok (reads_run _ _), bind_ok (reads_run _ _), bind_ok (memWrite_ok h), hm]
  rfl

/-- A rejected push changes nothing but the record of requests (46_program_control.md R242). -/
theorem pushLong_rejected {v : Word} {s : State} (h : s.granted s.dataFc .write (s.sp - 4#32) .l = false) :
    pushLong v s = .error (.busError (s.sp - 4#32) s.dataFc .write)
      (s.withBus (s.bus ++ [.put s.dataFc (s.sp - 4#32) .l (getSized .l v)])) := by
  unfold pushLong
  simp only [State.sp] at h ⊢
  rw [bind_ok (reads_run _ _), bind_ok (reads_run _ _), bind_error (memWrite_rejected h)]

/-- What is pushed is what memory holds there afterwards. -/
theorem push_load (s : State) (b : List Request) (a v : Word) (ho : SpaceOk s) :
    ((s.withBus b).store a .l v).load a .l = v := by
  rw [State.load_store (s.withBus b) a .l v ho.1 ho.2]
  exact getSized_of_lt v.isLt

theorem popLong_ok {s : State} (h : s.readable s.dataFc s.sp .l = true) :
    popLong s = .ok (s.load s.sp .l)
      ((s.withBus (s.bus ++ [.get s.dataFc s.sp .l])).writeA spReg (s.sp + 4#32)) := by
  unfold popLong
  simp only [State.sp] at h ⊢
  rw [bind_ok (reads_run _ _), bind_ok (reads_run _ _), bind_ok (memRead_ok h)]
  rfl

theorem popFrame_ok {s : State} (h1 : s.readable s.dataFc s.sp .w = true)
    (h2 : s.readable s.dataFc (s.sp + 2#32) .l = true) :
    popFrame s = .ok (s.load s.sp .w, s.load (s.sp + 2#32) .l)
      ((s.withBus (s.bus ++ [.get s.dataFc s.sp .w, .get s.dataFc (s.sp + 2#32) .l])).writeA spReg
        (s.sp + 6#32)) := by
  unfold popFrame
  simp only [State.sp] at h1 h2 ⊢
  rw [bind_ok (reads_run _ _), bind_ok (reads_run _ _), bind_ok (memRead_ok h1),
    bind_ok (memRead_ok (s := s.withBus _) (by simpa using h2))]
  simp [bind_run]

/-! ### The status word -/

theorem setSupervisorState_cc (b : Bool) (s : State) : (s.setSupervisorState b).cc = s.cc := by
  unfold State.setSupervisorState; split <;> [rfl; split <;> rfl]

theorem setSupervisorState_xsrc (b : Bool) (s : State) : (s.setSupervisorState b).xsrc = s.xsrc := by
  unfold State.setSupervisorState; split <;> [rfl; split <;> rfl]

theorem setSupervisorState_sup (b : Bool) (s : State) : (s.setSupervisorState b).sup = b := by
  unfold State.setSupervisorState; split <;> [exact Eq.symm ‹_›; split <;> rfl]

/-- A change of mode writes the mode, the shadow slots and A[7] alone. -/
theorem setSupervisorState_eq (b : Bool) (s : State) :
    ∃ u v w, s.setSupervisorState b = (((s.withUspShadow u).withSspShadow v).writeA spReg w).withSup b := by
  unfold State.setSupervisorState
  split
  · refine ⟨s.uspShadow, s.sspShadow, s.areg spReg, ?_⟩
    subst b
    cases s
    simp [State.withUspShadow, State.withSspShadow, State.writeA, State.withSup, State.areg, spReg]
  · split
    · exact ⟨s.uspShadow, s.areg spReg, s.uspShadow, rfl⟩
    · exact ⟨s.areg spReg, s.sspShadow, s.sspShadow, rfl⟩

/-- Every register but A[7] is kept by a change of mode (10_state.md R24). -/
theorem setSupervisorState_areg (b : Bool) (s : State) {n : RegNum} (h : n ≠ spReg) :
    (s.setSupervisorState b).areg n = s.areg n := by
  obtain ⟨u, v, w, he⟩ := setSupervisorState_eq b s
  rw [he]
  simp [State.writeA_areg, h]

/-- Both stack pointers are kept by a change of mode (10_state.md R24). -/
theorem setSupervisorState_usp (b : Bool) (s : State) : (s.setSupervisorState b).usp = s.usp := by
  unfold State.setSupervisorState
  split
  · rfl
  · split <;> simp_all [State.usp]

theorem setSupervisorState_ssp (b : Bool) (s : State) : (s.setSupervisorState b).ssp = s.ssp := by
  unfold State.setSupervisorState
  split
  · rfl
  · split <;> simp_all [State.ssp]


@[simp] theorem setSupervisorState_d (b : Bool) (s : State) : (s.setSupervisorState b).d = s.d := by
  obtain ⟨u, v, w, he⟩ := setSupervisorState_eq b s
  rw [he]
  simp

@[simp] theorem setSupervisorState_pc (b : Bool) (s : State) : (s.setSupervisorState b).pc = s.pc := by
  obtain ⟨u, v, w, he⟩ := setSupervisorState_eq b s
  rw [he]
  simp

@[simp] theorem setSupervisorState_irqPending (b : Bool) (s : State) : (s.setSupervisorState b).irqPending = s.irqPending := by
  obtain ⟨u, v, w, he⟩ := setSupervisorState_eq b s
  rw [he]
  simp

@[simp] theorem setSupervisorState_installed (b : Bool) (s : State) : (s.setSupervisorState b).installed = s.installed := by
  obtain ⟨u, v, w, he⟩ := setSupervisorState_eq b s
  rw [he]
  simp

@[simp] theorem setSupervisorState_mem (b : Bool) (s : State) : (s.setSupervisorState b).mem = s.mem := by
  obtain ⟨u, v, w, he⟩ := setSupervisorState_eq b s
  rw [he]
  simp

@[simp] theorem setSupervisorState_regions (b : Bool) (s : State) : (s.setSupervisorState b).regions = s.regions := by
  obtain ⟨u, v, w, he⟩ := setSupervisorState_eq b s
  rw [he]
  simp

@[simp] theorem setSupervisorState_decodeBits (b : Bool) (s : State) : (s.setSupervisorState b).decodeBits = s.decodeBits := by
  obtain ⟨u, v, w, he⟩ := setSupervisorState_eq b s
  rw [he]
  simp

@[simp] theorem setSupervisorState_collabIn (b : Bool) (s : State) : (s.setSupervisorState b).collabIn = s.collabIn := by
  obtain ⟨u, v, w, he⟩ := setSupervisorState_eq b s
  rw [he]
  simp

@[simp] theorem setSupervisorState_draws (b : Bool) (s : State) : (s.setSupervisorState b).draws = s.draws := by
  obtain ⟨u, v, w, he⟩ := setSupervisorState_eq b s
  rw [he]
  simp

@[simp] theorem setSupervisorState_bus (b : Bool) (s : State) : (s.setSupervisorState b).bus = s.bus := by
  obtain ⟨u, v, w, he⟩ := setSupervisorState_eq b s
  rw [he]
  simp

@[simp] theorem setSupervisorState_dreg (b : Bool) (s : State) (n : RegNum) :
    (s.setSupervisorState b).dreg n = s.dreg n := State.dreg_congr (by simp) n

@[simp] theorem setSupervisorState_peek (b : Bool) (s : State) (x : Word) :
    (s.setSupervisorState b).peek x = s.peek x := State.peek_congr (by simp) (by simp) x

@[simp] theorem setSupervisorState_flags (b : Bool) (s : State) : (s.setSupervisorState b).flags = s.flags :=
  State.flags_congr (setSupervisorState_cc b s) (setSupervisorState_xsrc b s)

/-! ### The setters' flags in the terms of the claims -/

theorem setCc_flags (sz : Size) (v : Word) (s : State) (hv : getSized sz v = v) :
    (setCc sz v s).flags = moveFlags s sz v := by
  simp [setCc, moveFlags, State.flags, flagN, flagZ, flagV, flagC, hv]

theorem setCcAsAdd_flags (sz : Size) (d v : Word) (s : State) :
    (setCcAsAdd sz (add sz d v) d v s).flags = addFlags sz d v := by
  rfl

theorem setCcSub_flags (sz : Size) (d v : Word) (s : State) :
    (setCcSub sz (sub sz d v) d v s).flags = subFlags sz d v := by
  rfl

theorem setCcCmp_flags (sz : Size) (d v : Word) (s : State) :
    (setCcCmp sz (sub sz d v) d v s).flags = cmpFlags s sz d v := by
  rfl

/-- The flags of a shift record whose carry is `c`; `count` fits a word. -/
theorem setCcShift_flags (tag : Strategy) (htag : tag = .shiftAsr ∨ tag = .shiftLsr ∨ tag = .shiftLsl) (sz : Size)
    (r v : Word) (count : Nat) (hc : count < 2 ^ 32) (s : State) :
    (setCcShift tag sz r v count s).flags = shiftFlags s sz r count (shiftCarry tag (bits sz) v count) := by
  have hn : count % 4294967296 = count := Nat.mod_eq_of_lt hc
  unfold setCcShift
  rcases htag with rfl | rfl | rfl <;> by_cases h0 : count = 0 <;>
    simp [h0, hn, setBoth, shiftFlags, State.flags, flagX, flagN, flagZ, flagV, flagC]

theorem shiftCount_lt (c : ShiftCount) (s : State) : shiftCount c s < 64 := by
  cases c with
  | imm q => have := q.isLt; simp only [shiftCount, quickValue]; split <;> omega
  | reg n => exact Nat.mod_lt _ (by omega)

end Sys2Proof.Machine
end

