-- ==== Sys2Proof/Laws/Logic.lean ====
section
/-! SUPPORT. Two ways to reason about a meaning piece by piece: a relation that every piece keeps between the state before
and the state left (`Keeps`), and a relation between two states that every piece keeps (`Relates`). -/

namespace Sys2Proof.Machine

/-! ### From the state before to the state left -/

/-- The state a meaning leaves, whether it goes on or ends the step. -/
def resultState {α : Type} : EStateM.Result Stop State α → State
  | .ok _ t => t
  | .error _ t => t

/-- However the meaning ends, the state it leaves is related to the state before. -/
def Keeps (R : State → State → Prop) {α : Type} (x : Exec α) : Prop := ∀ s, R s (resultState (x s))

variable {R : State → State → Prop} {α β : Type}

theorem Keeps.pure (hr : ∀ s, R s s) (a : α) : Keeps R (pure a : Exec α) := fun s => hr s

theorem Keeps.reads (hr : ∀ s, R s s) (f : State → α) : Keeps R (reads f) := fun s => hr s

theorem Keeps.raise (hr : ∀ s, R s s) (e : Stop) : Keeps R (raise e : Exec α) := fun s => hr s

theorem Keeps.modifies {f : State → State} (h : ∀ s, R s (f s)) : Keeps R (modifies f) := h

theorem Keeps.bind (ht : ∀ a b c, R a b → R b c → R a c) {x : Exec α} {f : α → Exec β} (hx : Keeps R x)
    (hf : ∀ a, Keeps R (f a)) : Keeps R (x >>= f) := by
  intro s
  have h := hx s
  rw [bind_run]
  cases hs : x s with
  | ok a u =>
    rw [hs] at h
    exact ht _ _ _ h (hf a u)
  | error e u =>
    rw [hs] at h
    exact h

theorem Keeps.ite {p : Prop} [Decidable p] {x y : Exec α} (hx : Keeps R x) (hy : Keeps R y) :
    Keeps R (if p then x else y) := by split <;> assumption

/-- A read changes the record of requests and the count of free values alone. -/
theorem memRead_keeps (h : ∀ s b k, R s ((s.withBus b).withDraws k)) (fc : FunctionCode) (a : Word) (sz : Size) :
    Keeps R (memRead fc a sz) := by
  intro s
  unfold memRead
  simp only
  split
  · split
    · exact h _ _ _
    · exact h s (s.bus ++ [.get fc a sz]) s.draws
  · exact h s (s.bus ++ [.get fc a sz]) s.draws

/-- A write changes the record of requests, and memory where it is accepted. -/
theorem memWrite_keeps (hb : ∀ s b, R s (s.withBus b)) (hs : ∀ s b a sz v, R s ((s.withBus b).store a sz v))
    (fc : FunctionCode) (a : Word) (sz : Size) (v : Word) : Keeps R (memWrite fc a sz v) := by
  intro s
  unfold memWrite
  simp only
  split
  · exact hs _ _ _ _ _
  · exact hb _ _

/-- What a step that goes on or ends in a fault of a base handler leaves. -/
theorem runBase_keeps {i : Instr} {body : Exec Unit} {s t : State} (h : Keeps R body)
    (hrun : runBase i body s = .next t) : R s t := by
  obtain ⟨-, hb⟩ := runBase_next hrun
  have := h s
  rwa [hb] at this

/-! ### Two runs side by side -/

/-- Two results of a meaning: both go on with one value, or both end for one reason, in related states. -/
def SameResult (R : State → State → Prop) {α : Type} (x y : EStateM.Result Stop State α) : Prop :=
  match x, y with
  | .ok a s, .ok b t => a = b ∧ R s t
  | .error e s, .error f t => e = f ∧ R s t
  | _, _ => False

/-- From related states the meaning gives the same result in related states. -/
def Relates (R : State → State → Prop) {α : Type} (x : Exec α) : Prop :=
  ∀ s t, R s t → SameResult R (x s) (x t)

theorem Relates.pure (a : α) : Relates R (pure a : Exec α) := fun _ _ h => ⟨rfl, h⟩

theorem Relates.reads {f : State → α} (hf : ∀ s t, R s t → f s = f t) : Relates R (reads f) :=
  fun s t h => ⟨hf s t h, h⟩

theorem Relates.raise (e : Stop) : Relates R (raise e : Exec α) := fun _ _ h => ⟨rfl, h⟩

theorem Relates.modifies {f : State → State} (hf : ∀ s t, R s t → R (f s) (f t)) : Relates R (modifies f) :=
  fun s t h => ⟨rfl, hf s t h⟩

theorem Relates.bind {x : Exec α} {f : α → Exec β} (hx : Relates R x) (hf : ∀ a, Relates R (f a)) :
    Relates R (x >>= f) := by
  intro s t h
  have hr := hx s t h
  rw [bind_run, bind_run]
  cases hs : x s <;> cases ht : x t <;> simp only [hs, ht, SameResult] at hr ⊢
  · obtain ⟨rfl, hr⟩ := hr
    exact hf _ _ _ hr
  · exact hr

theorem Relates.ite {p : Prop} [Decidable p] {x y : Exec α} (hx : Relates R x) (hy : Relates R y) :
    Relates R (if p then x else y) := by split <;> assumption

/-- The outcomes of two base handlers' runs. -/
theorem runBase_relates {i : Instr} {body : Exec Unit} {s t : State} (h : Relates R body) (hr : R s t)
    (hpc : t.pc = s.pc) (hfc : ∀ s t, R s t → t.programFc = s.programFc) : RelOutcome R (runBase i body s) (runBase i body t) := by
  unfold runBase
  split
  · have hb := h s t hr
    cases hs : body s <;> cases ht : body t <;> simp only [hs, ht, SameResult] at hb
    · exact hb.2
    · obtain ⟨rfl, hb⟩ := hb
      refine ⟨?_, by simpa using hb⟩
      rename_i e u w
      cases e <;> simp [faultOf, diagnosticOf, hfc _ _ hb, hpc]
  · exact ⟨by simp [diagnosticOf, hpc, hfc _ _ hr], hr⟩

end Sys2Proof.Machine
end

