-- ==== Sys2Proof/Laws/Meanings.lean ====
section
/-! SUPPORT. One lemma for each meaning, in the logic of `Keeps` and `Relates`: a relation closed under what meanings are
made of is kept by every base instruction. -/

namespace Sys2Proof.Machine

/-! ### Relations between the state before and the state left -/

/-- A relation closed under what the meanings of unprivileged instructions are made of. -/
structure KeepsBasics (R : State → State → Prop) : Prop where
  refl : ∀ s, R s s
  trans : ∀ a b c, R a b → R b c → R a c
  bus : ∀ s b k, R s ((s.withBus b).withDraws k)
  store : ∀ s b a sz v, R s ((s.withBus b).store a sz v)
  writeD : ∀ n v s, R s (s.writeD n v)
  writeA : ∀ n v s, R s (s.writeA n v)
  pc : ∀ v s, R s (s.withPc v)
  cc : ∀ c s, R s (s.withCc c)
  xsrc : ∀ c s, R s (s.withXsrc c)

namespace KeepsBasics

variable {R : State → State → Prop} (h : KeepsBasics R)
include h

theorem draws (k : Nat) (s : State) : R s (s.withDraws k) := h.bus s s.bus k

theorem pure {α : Type} (a : α) : Keeps R (Pure.pure a : Exec α) := Keeps.pure h.refl a

theorem reads {α : Type} (f : State → α) : Keeps R (reads f) := Keeps.reads h.refl f

theorem bind {α β : Type} {x : Exec α} {f : α → Exec β} (hx : Keeps R x) (hf : ∀ a, Keeps R (f a)) :
    Keeps R (x >>= f) := Keeps.bind h.trans hx hf

theorem memRead (fc : FunctionCode) (a : Word) (sz : Size) : Keeps R (memRead fc a sz) := memRead_keeps h.bus fc a sz

theorem memWrite (fc : FunctionCode) (a : Word) (sz : Size) (v : Word) : Keeps R (memWrite fc a sz v) :=
  memWrite_keeps (fun s b => h.bus s b s.draws) h.store fc a sz v

theorem fetch (off : Nat) (sz : Size) : Keeps R (fetch off sz) := fun s => h.memRead _ _ _ s

theorem construct (ea : Ea) (sz : Size) (off : Nat) : Keeps R (construct ea sz off) := by
  unfold Machine.construct
  split
  · exact h.pure _
  · exact h.bind (h.fetch _ _) fun _ => h.pure _
  · exact h.bind (h.fetch _ _) fun _ => h.pure _

theorem get (r : Resolver) : Keeps R r.get := by
  unfold Resolver.get
  split
  · exact h.reads _
  · exact h.reads _
  · exact h.pure _
  · exact fun s => h.memRead _ _ _ s

theorem put (r : Resolver) (v : Word) : Keeps R (r.put v) := by
  unfold Resolver.put
  split
  · exact Keeps.modifies fun s => h.writeD _ _ s
  · exact Keeps.modifies fun s => h.writeA _ _ s
  · exact h.pure _
  · exact fun s => h.memWrite _ _ _ _ s

theorem finish (r : Resolver) : Keeps R r.finish := by
  unfold Resolver.finish
  split
  · exact Keeps.modifies fun s => h.writeA _ _ s
  · exact Keeps.modifies fun s => h.writeA _ _ s
  · exact h.pure _

theorem address (r : Resolver) : Keeps R r.address := by
  unfold Resolver.address
  split
  · exact h.reads _
  · exact h.pure _

theorem advance (n : Nat) : Keeps R (advance n) := Keeps.modifies fun s => h.pc _ s

theorem setPc (f : State → Word) : Keeps R (modifies fun s => s.withPc (f s)) := Keeps.modifies fun s => h.pc _ s

theorem setD (n : RegNum) (f : State → Word) : Keeps R (modifies fun s => s.writeD n (f s)) :=
  Keeps.modifies fun s => h.writeD _ _ s

theorem setA (n : RegNum) (f : State → Word) : Keeps R (modifies fun s => s.writeA n (f s)) :=
  Keeps.modifies fun s => h.writeA _ _ s

theorem setCc (sz : Size) (r : Word) : Keeps R (modifies (setCc sz r)) := Keeps.modifies fun s => h.cc _ s

theorem setBoth (r : CcRecord) (s : State) : R s (setBoth r s) := h.trans _ _ _ (h.cc _ s) (h.xsrc _ _)

theorem setCcAsAdd (sz : Size) (r d v : Word) : Keeps R (modifies (setCcAsAdd sz r d v)) :=
  Keeps.modifies fun s => h.setBoth _ s

theorem setCcSub (sz : Size) (r d v : Word) : Keeps R (modifies (setCcSub sz r d v)) :=
  Keeps.modifies fun s => h.setBoth _ s

theorem setCcCmp (sz : Size) (r d v : Word) : Keeps R (modifies (setCcCmp sz r d v)) :=
  Keeps.modifies fun s => h.cc _ s

theorem setCcShift (tag : Strategy) (sz : Size) (r v : Word) (c : Nat) :
    Keeps R (modifies (setCcShift tag sz r v c)) := by
  refine Keeps.modifies fun s => ?_
  unfold Machine.setCcShift
  simp only
  split
  · exact h.cc _ s
  · exact h.setBoth _ s

theorem setCcUnspecified : Keeps R (modifies setCcUnspecified) :=
  Keeps.modifies fun s => h.trans _ _ _ (h.setBoth _ s) (h.draws _ _)

theorem setUnspecified (sz : Size) (r v : Word) (c : Nat) : Keeps R (modifies (setUnspecified sz r v c)) :=
  h.setCcUnspecified

theorem branchDisp (disp8 : BitVec 8) : Keeps R (branchDisp disp8) := by
  unfold Machine.branchDisp
  split
  · exact h.bind (h.fetch _ _) fun _ => h.pure _
  · exact h.pure _

theorem pushLong (v : Word) : Keeps R (pushLong v) :=
  h.bind (h.reads _) fun _ => h.bind (h.reads _) fun _ => h.bind (h.memWrite _ _ _ _) fun _ => h.setA _ _

theorem popLong : Keeps R popLong :=
  h.bind (h.reads _) fun _ => h.bind (h.reads _) fun _ => h.bind (h.memRead _ _ _) fun _ =>
    h.bind (h.setA _ _) fun _ => h.pure _

theorem popFrame : Keeps R popFrame :=
  h.bind (h.reads _) fun _ => h.bind (h.reads _) fun _ => h.bind (h.memRead _ _ _) fun _ =>
    h.bind (h.memRead _ _ _) fun _ => h.bind (h.setA _ _) fun _ => h.pure _

theorem requireSupervisor (op : Half) : Keeps R (requireSupervisor op) := by
  intro s
  unfold Machine.requireSupervisor
  split <;> exact h.refl _

/-! ### The meanings -/

theorem move (sz : Size) (src dst : Ea) : Keeps R (move sz src dst) :=
  h.bind (h.construct _ _ _) fun _ => h.bind (h.construct _ _ _) fun _ => h.bind (h.get _) fun _ =>
    h.bind (h.setCc _ _) fun _ => h.bind (h.put _ _) fun _ => h.bind (h.finish _) fun _ =>
      h.bind (h.finish _) fun _ => h.advance _

theorem movea (sz : Size) (src : Ea) (an : RegNum) : Keeps R (movea sz src an) :=
  h.bind (h.construct _ _ _) fun _ => h.bind (h.get _) fun _ => h.bind (h.setA _ _) fun _ =>
    h.bind (h.finish _) fun _ => h.advance _

theorem moveqBody (dn : RegNum) (data : BitVec 8) : Keeps R (moveqBody dn data) :=
  h.bind (h.setD _ _) fun _ => h.bind (h.setCc _ _) fun _ => h.advance _

theorem moveFromSrBody (dst : Ea) : Keeps R (moveFromSrBody dst) :=
  h.bind (h.construct _ _ _) fun _ => h.bind (h.reads _) fun _ => h.bind (h.put _ _) fun _ =>
    h.bind (h.finish _) fun _ => h.advance _

theorem arithToReg {f : Size → Word → Word → Word} {setf : Size → Word → Word → Word → State → State} {sz : Size}
    (hs : ∀ r d v, Keeps R (modifies (setf sz r d v))) (src : Ea) (dn : RegNum) :
    Keeps R (arithToReg f setf sz src dn) :=
  h.bind (h.construct _ _ _) fun _ => h.bind (h.get _) fun _ => h.bind (h.reads _) fun _ =>
    h.bind (hs _ _ _) fun _ => h.bind (h.setD _ _) fun _ => h.bind (h.finish _) fun _ => h.advance _

theorem arithToMem {f : Size → Word → Word → Word} {setf : Size → Word → Word → Word → State → State} {sz : Size}
    (hs : ∀ r d v, Keeps R (modifies (setf sz r d v))) (dn : RegNum) (dst : Ea) :
    Keeps R (arithToMem f setf sz dn dst) :=
  h.bind (h.construct _ _ _) fun _ => h.bind (h.get _) fun _ => h.bind (h.reads _) fun _ =>
    h.bind (hs _ _ _) fun _ => h.bind (h.put _ _) fun _ => h.bind (h.finish _) fun _ => h.advance _

theorem cmpToReg (sz : Size) (src : Ea) (dn : RegNum) : Keeps R (cmpToReg sz src dn) :=
  h.bind (h.construct _ _ _) fun _ => h.bind (h.get _) fun _ => h.bind (h.reads _) fun _ =>
    h.bind (h.setCcCmp _ _ _ _) fun _ => h.bind (h.finish _) fun _ => h.advance _

theorem addq (sz : Size) (q : BitVec 3) (dst : Ea) : Keeps R (addq sz q dst) := by
  unfold Machine.addq
  simp only
  split
  · exact h.bind (h.setA _ _) fun _ => h.advance _
  · exact h.bind (h.construct _ _ _) fun _ => h.bind (h.get _) fun _ => h.bind (h.setCcAsAdd _ _ _ _) fun _ =>
      h.bind (h.put _ _) fun _ => h.bind (h.finish _) fun _ => h.advance _

theorem shiftReg {f : Size → Word → Nat → Word} {setf : Size → Word → Word → Nat → State → State} {sz : Size}
    (hs : ∀ r v c, Keeps R (modifies (setf sz r v c))) (count : ShiftCount) (dn : RegNum) :
    Keeps R (shiftReg f setf sz count dn) :=
  h.bind (h.reads _) fun _ => h.bind (h.reads _) fun _ => h.bind (hs _ _ _) fun _ => h.bind (h.setD _ _) fun _ =>
    h.advance _

theorem shiftMem {f : Size → Word → Nat → Word} {setf : Size → Word → Word → Nat → State → State}
    (hs : ∀ r v c, Keeps R (modifies (setf .w r v c))) (dst : Ea) : Keeps R (shiftMem f setf dst) :=
  h.bind (h.construct _ _ _) fun _ => h.bind (h.get _) fun _ => h.bind (hs _ _ _) fun _ => h.bind (h.put _ _) fun _ =>
    h.bind (h.finish _) fun _ => h.advance _

theorem bitOp (g : Word → Nat → Word) (bn : Nat) (dst : Ea) (off : Nat) : Keeps R (bitOp g bn dst off) :=
  h.bind (h.construct _ _ _) fun _ => h.bind (h.get _) fun _ => h.bind h.setCcUnspecified fun _ =>
    h.bind (h.put _ _) fun _ => h.bind (h.finish _) fun _ => h.advance _

theorem bitDynamic (g : Word → Nat → Word) (dn : RegNum) (dst : Ea) : Keeps R (bitDynamic g dn dst) :=
  h.bind (h.reads _) fun _ => h.bitOp _ _ _ _

theorem bitStatic (g : Word → Nat → Word) (dst : Ea) : Keeps R (bitStatic g dst) :=
  h.bind (h.fetch _ _) fun _ => h.bitOp _ _ _ _

theorem sccBody (cond : Cond) (dst : Ea) : Keeps R (sccBody cond dst) :=
  h.bind (h.construct _ _ _) fun _ => h.bind (h.reads _) fun _ => h.bind (h.put _ _) fun _ =>
    h.bind (h.finish _) fun _ => h.advance _

theorem dbccBody (cond : Cond) (dn : RegNum) : Keeps R (dbccBody cond dn) :=
  h.bind (h.fetch _ _) fun _ => h.bind (h.reads _) fun _ => Keeps.ite (h.advance _)
    (h.bind (h.reads _) fun _ => h.bind (h.setD _ _) fun _ => Keeps.ite (h.advance _) (h.setPc _))

theorem braBody (disp8 : BitVec 8) : Keeps R (braBody disp8) := h.bind (h.branchDisp _) fun _ => h.setPc _

theorem bsrBody (disp8 : BitVec 8) : Keeps R (bsrBody disp8) :=
  h.bind (h.branchDisp _) fun _ => h.bind (h.reads _) fun _ => h.bind (h.pushLong _) fun _ => h.setPc _

theorem bccBody (cond : Cond) (disp8 : BitVec 8) : Keeps R (bccBody cond disp8) :=
  h.bind (h.branchDisp _) fun _ => h.bind (h.reads _) fun _ => Keeps.ite (h.setPc _) (h.advance _)

theorem jmpBody (dst : Ea) : Keeps R (jmpBody dst) :=
  h.bind (h.construct _ _ _) fun _ => h.bind (h.address _) fun _ => h.setPc _

theorem jsrBody (dst : Ea) : Keeps R (jsrBody dst) :=
  h.bind (h.construct _ _ _) fun _ => h.bind (h.address _) fun _ => h.bind (h.reads _) fun _ =>
    h.bind (h.pushLong _) fun _ => h.setPc _

theorem rtsBody : Keeps R rtsBody := h.bind h.popLong fun _ => h.setPc _

/-- The two privileged meanings need the relation closed under `set_sr` as well. -/
theorem moveToSrBody (hsr : ∀ v s, R s (setSr v s)) (src : Ea) : Keeps R (moveToSrBody src) :=
  h.bind (h.requireSupervisor _) fun _ => h.bind (h.construct _ _ _) fun _ => h.bind (h.get _) fun _ =>
    h.bind (h.finish _) fun _ => h.bind (Keeps.modifies (hsr _)) fun _ => h.advance _

theorem rteBody (hsr : ∀ v s, R s (setSr v s)) : Keeps R rteBody :=
  h.bind (h.requireSupervisor _) fun _ => h.bind h.popFrame fun _ => h.bind (Keeps.modifies (hsr _)) fun _ => h.setPc _

/-- Every instruction that is not privileged, the collaborators' slot apart: a next state is related to the one before. -/
theorem exec {i : Instr} {s t : State} (hrun : exec i s = .next t) (h1 : ∀ src, i ≠ .moveToSr src) (h2 : i ≠ .rte)
    (h3 : ∀ n, i ≠ .trap n) : R s t := by
  cases i with
  | moveB src dst => exact runBase_keeps (i := .moveB src dst) (h.move .b src dst) hrun
  | moveL src dst => exact runBase_keeps (i := .moveL src dst) (h.move .l src dst) hrun
  | moveW src dst => exact runBase_keeps (i := .moveW src dst) (h.move .w src dst) hrun
  | moveaL src an => exact runBase_keeps (i := .moveaL src an) (h.movea .l src an) hrun
  | moveaW src an => exact runBase_keeps (i := .moveaW src an) (h.movea .w src an) hrun
  | moveq dn data => exact runBase_keeps (i := .moveq dn data) (h.moveqBody dn data) hrun
  | moveFromSr dst => exact runBase_keeps (i := .moveFromSr dst) (h.moveFromSrBody dst) hrun
  | moveToSr src => exact absurd rfl (h1 src)
  | addBEaDn src dn => exact runBase_keeps (i := .addBEaDn src dn) (h.arithToReg (fun r d v => h.setCcAsAdd .b r d v) src dn) hrun
  | addWEaDn src dn => exact runBase_keeps (i := .addWEaDn src dn) (h.arithToReg (fun r d v => h.setCcAsAdd .w r d v) src dn) hrun
  | addLEaDn src dn => exact runBase_keeps (i := .addLEaDn src dn) (h.arithToReg (fun r d v => h.setCcAsAdd .l r d v) src dn) hrun
  | addBDnEa dn dst => exact runBase_keeps (i := .addBDnEa dn dst) (h.arithToMem (fun r d v => h.setCcAsAdd .b r d v) dn dst) hrun
  | addWDnEa dn dst => exact runBase_keeps (i := .addWDnEa dn dst) (h.arithToMem (fun r d v => h.setCcAsAdd .w r d v) dn dst) hrun
  | addLDnEa dn dst => exact runBase_keeps (i := .addLDnEa dn dst) (h.arithToMem (fun r d v => h.setCcAsAdd .l r d v) dn dst) hrun
  | subBEaDn src dn => exact runBase_keeps (i := .subBEaDn src dn) (h.arithToReg (fun r d v => h.setCcSub .b r d v) src dn) hrun
  | subWEaDn src dn => exact runBase_keeps (i := .subWEaDn src dn) (h.arithToReg (fun r d v => h.setCcSub .w r d v) src dn) hrun
  | subLEaDn src dn => exact runBase_keeps (i := .subLEaDn src dn) (h.arithToReg (fun r d v => h.setCcSub .l r d v) src dn) hrun
  | subBDnEa dn dst => exact runBase_keeps (i := .subBDnEa dn dst) (h.arithToMem (fun r d v => h.setCcSub .b r d v) dn dst) hrun
  | subWDnEa dn dst => exact runBase_keeps (i := .subWDnEa dn dst) (h.arithToMem (fun r d v => h.setCcSub .w r d v) dn dst) hrun
  | subLDnEa dn dst => exact runBase_keeps (i := .subLDnEa dn dst) (h.arithToMem (fun r d v => h.setCcSub .l r d v) dn dst) hrun
  | cmpB src dn => exact runBase_keeps (i := .cmpB src dn) (h.cmpToReg .b src dn) hrun
  | cmpW src dn => exact runBase_keeps (i := .cmpW src dn) (h.cmpToReg .w src dn) hrun
  | cmpL src dn => exact runBase_keeps (i := .cmpL src dn) (h.cmpToReg .l src dn) hrun
  | addqB q dst => exact runBase_keeps (i := .addqB q dst) (h.addq .b q dst) hrun
  | addqW q dst => exact runBase_keeps (i := .addqW q dst) (h.addq .w q dst) hrun
  | addqL q dst => exact runBase_keeps (i := .addqL q dst) (h.addq .l q dst) hrun
  | scc cond dst => exact runBase_keeps (i := .scc cond dst) (h.sccBody cond dst) hrun
  | dbcc cond dn => exact runBase_keeps (i := .dbcc cond dn) (h.dbccBody cond dn) hrun
  | bra disp8 => exact runBase_keeps (i := .bra disp8) (h.braBody disp8) hrun
  | bsr disp8 => exact runBase_keeps (i := .bsr disp8) (h.bsrBody disp8) hrun
  | bcc cond disp8 => exact runBase_keeps (i := .bcc cond disp8) (h.bccBody cond disp8) hrun
  | jmp dst => exact runBase_keeps (i := .jmp dst) (h.jmpBody dst) hrun
  | jsr dst => exact runBase_keeps (i := .jsr dst) (h.jsrBody dst) hrun
  | rts => exact runBase_keeps (i := .rts) (h.rtsBody ) hrun
  | rte => exact absurd rfl h2
  | asrB count dn => exact runBase_keeps (i := .asrB count dn) (h.shiftReg (fun r v c => h.setCcShift .shiftAsr .b r v c) count dn) hrun
  | asrW count dn => exact runBase_keeps (i := .asrW count dn) (h.shiftReg (fun r v c => h.setCcShift .shiftAsr .w r v c) count dn) hrun
  | asrL count dn => exact runBase_keeps (i := .asrL count dn) (h.shiftReg (fun r v c => h.setCcShift .shiftAsr .l r v c) count dn) hrun
  | lsrB count dn => exact runBase_keeps (i := .lsrB count dn) (h.shiftReg (fun r v c => h.setCcShift .shiftLsr .b r v c) count dn) hrun
  | lsrW count dn => exact runBase_keeps (i := .lsrW count dn) (h.shiftReg (fun r v c => h.setCcShift .shiftLsr .w r v c) count dn) hrun
  | lsrL count dn => exact runBase_keeps (i := .lsrL count dn) (h.shiftReg (fun r v c => h.setCcShift .shiftLsr .l r v c) count dn) hrun
  | lslB count dn => exact runBase_keeps (i := .lslB count dn) (h.shiftReg (fun r v c => h.setCcShift .shiftLsl .b r v c) count dn) hrun
  | lslW count dn => exact runBase_keeps (i := .lslW count dn) (h.shiftReg (fun r v c => h.setCcShift .shiftLsl .w r v c) count dn) hrun
  | lslL count dn => exact runBase_keeps (i := .lslL count dn) (h.shiftReg (fun r v c => h.setCcShift .shiftLsl .l r v c) count dn) hrun
  | rorB count dn => exact runBase_keeps (i := .rorB count dn) (h.shiftReg (fun r v c => h.setUnspecified .b r v c) count dn) hrun
  | rorW count dn => exact runBase_keeps (i := .rorW count dn) (h.shiftReg (fun r v c => h.setUnspecified .w r v c) count dn) hrun
  | rorL count dn => exact runBase_keeps (i := .rorL count dn) (h.shiftReg (fun r v c => h.setUnspecified .l r v c) count dn) hrun
  | rolB count dn => exact runBase_keeps (i := .rolB count dn) (h.shiftReg (fun r v c => h.setUnspecified .b r v c) count dn) hrun
  | rolW count dn => exact runBase_keeps (i := .rolW count dn) (h.shiftReg (fun r v c => h.setUnspecified .w r v c) count dn) hrun
  | rolL count dn => exact runBase_keeps (i := .rolL count dn) (h.shiftReg (fun r v c => h.setUnspecified .l r v c) count dn) hrun
  | asrMem dst => exact runBase_keeps (i := .asrMem dst) (h.shiftMem (fun r v c => h.setCcShift .shiftAsr .w r v c) dst) hrun
  | lsrMem dst => exact runBase_keeps (i := .lsrMem dst) (h.shiftMem (fun r v c => h.setCcShift .shiftLsr .w r v c) dst) hrun
  | lslMem dst => exact runBase_keeps (i := .lslMem dst) (h.shiftMem (fun r v c => h.setCcShift .shiftLsl .w r v c) dst) hrun
  | rorMem dst => exact runBase_keeps (i := .rorMem dst) (h.shiftMem (fun r v c => h.setUnspecified .w r v c) dst) hrun
  | rolMem dst => exact runBase_keeps (i := .rolMem dst) (h.shiftMem (fun r v c => h.setUnspecified .w r v c) dst) hrun
  | bsetDyn dn dst => exact runBase_keeps (i := .bsetDyn dn dst) (h.bitDynamic bset dn dst) hrun
  | bclrDyn dn dst => exact runBase_keeps (i := .bclrDyn dn dst) (h.bitDynamic bclr dn dst) hrun
  | bsetStatic dst => exact runBase_keeps (i := .bsetStatic dst) (h.bitStatic bset dst) hrun
  | bclrStatic dst => exact runBase_keeps (i := .bclrStatic dst) (h.bitStatic bclr dst) hrun
  | trap vector => exact absurd rfl (h3 vector)

/-- Every instruction but the collaborators' slot, for a relation closed under `set_sr` as well. -/
theorem exec_all {i : Instr} {s t : State} (hsr : ∀ v s, R s (setSr v s)) (hrun : Machine.exec i s = .next t)
    (h3 : ∀ n, i ≠ .trap n) : R s t := by
  by_cases h1 : ∃ src, i = .moveToSr src
  · obtain ⟨src, rfl⟩ := h1
    exact runBase_keeps (i := .moveToSr src) (h.moveToSrBody hsr src) hrun
  · by_cases h2 : i = .rte
    · subst h2
      exact runBase_keeps (i := .rte) (h.rteBody hsr) hrun
    · exact h.exec hrun (fun src he => h1 ⟨src, he⟩) h2 h3

end KeepsBasics

/-! ### Two runs side by side -/

/-- Two states that differ at most in what no meaning reads by itself, the condition-code records (whose flags agree), the
interrupt-pending flag and the shadow stack pointers. -/
structure Agree (s t : State) : Prop where
  eq : t = ((((s.withCc t.cc).withXsrc t.xsrc).withIrqPending t.irqPending).withUspShadow t.uspShadow).withSspShadow
    t.sspShadow
  flags : t.flags = s.flags

/-- A relation between two states closed under what meanings are made of. -/
structure RelatesBasics (R : State → State → Prop) : Prop where
  agree : ∀ s t, R s t → Agree s t
  bus : ∀ s t b k, R s t → R ((s.withBus b).withDraws k) ((t.withBus b).withDraws k)
  mem : ∀ s t m, R s t → R (s.withMem m) (t.withMem m)
  writeD : ∀ s t n v, R s t → R (s.writeD n v) (t.writeD n v)
  writeA : ∀ s t n v, R s t → R (s.writeA n v) (t.writeA n v)
  pc : ∀ s t v, R s t → R (s.withPc v) (t.withPc v)
  cc : ∀ s t c, R s t → R (s.withCc c) (t.withCc c)
  xsrc : ∀ s t c, R s t → R (s.withXsrc c) (t.withXsrc c)
  sup : ∀ s t b, R s t → R (s.setSupervisorState b) (t.setSupervisorState b)

namespace RelatesBasics

variable {R : State → State → Prop} (h : RelatesBasics R)
include h

/-- A read of the state that the records, the interrupt-pending flag and the shadow slots do not reach. -/
theorem reads {α : Type} {f : State → α}
    (hf : ∀ s c x i u v, f (((((s.withCc c).withXsrc x).withIrqPending i).withUspShadow u).withSspShadow v) = f s) :
    Relates R (reads f) :=
  Relates.reads fun s t hr => by rw [(h.agree s t hr).eq, hf]

/-- A read of the flags and the mode. -/
theorem readsFlags {α : Type} (f : Bool → Flags → α) : Relates R (Machine.reads fun s => f s.sup s.flags) :=
  Relates.reads fun s t hr => by
    have ha := h.agree s t hr
    have hs : t.sup = s.sup := by rw [ha.eq]; rfl
    rw [ha.flags, hs]

theorem setD (n : RegNum) {f : State → Word}
    (hf : ∀ s c x i u v, f (((((s.withCc c).withXsrc x).withIrqPending i).withUspShadow u).withSspShadow v) = f s) :
    Relates R (modifies fun s => s.writeD n (f s)) :=
  Relates.modifies fun s t hr => by
    have : f t = f s := by rw [(h.agree s t hr).eq, hf]
    rw [this]
    exact h.writeD _ _ _ _ hr

theorem setA (n : RegNum) {f : State → Word}
    (hf : ∀ s c x i u v, f (((((s.withCc c).withXsrc x).withIrqPending i).withUspShadow u).withSspShadow v) = f s) :
    Relates R (modifies fun s => s.writeA n (f s)) :=
  Relates.modifies fun s t hr => by
    have : f t = f s := by rw [(h.agree s t hr).eq, hf]
    rw [this]
    exact h.writeA _ _ _ _ hr

theorem setPc {f : State → Word}
    (hf : ∀ s c x i u v, f (((((s.withCc c).withXsrc x).withIrqPending i).withUspShadow u).withSspShadow v) = f s) :
    Relates R (modifies fun s => s.withPc (f s)) :=
  Relates.modifies fun s t hr => by
    have : f t = f s := by rw [(h.agree s t hr).eq, hf]
    rw [this]
    exact h.pc _ _ _ hr

theorem withBus (s t : State) (b : List Request) (hr : R s t) : R (s.withBus b) (t.withBus b) := by
  have hd : t.draws = s.draws := by rw [(h.agree s t hr).eq]; simp
  have := h.bus s t b s.draws hr
  rw [show (s.withBus b).withDraws s.draws = s.withBus b from rfl] at this
  rwa [← hd, show (t.withBus b).withDraws t.draws = t.withBus b from rfl] at this

theorem memRead (fc : FunctionCode) (a : Word) (sz : Size) : Relates R (memRead fc a sz) := by
  intro s t hr
  have ha := (h.agree s t hr).eq
  have hb : t.bus = s.bus := by rw [ha]; simp
  have hd : t.draws = s.draws := by rw [ha]; simp
  have hg : t.granted fc .read a sz = s.granted fc .read a sz := by rw [ha]; simp
  have ho : t.isOracle a sz = s.isOracle a sz := by rw [ha]; simp
  have hl : t.load a sz = s.load a sz := by rw [ha]; simp
  unfold Machine.memRead
  simp only [State.logRequest, hb, hd, hg, ho, hl]
  split
  · split
    · exact ⟨rfl, h.bus _ _ _ _ hr⟩
    · exact ⟨rfl, h.withBus _ _ _ hr⟩
  · exact ⟨rfl, h.withBus _ _ _ hr⟩

theorem memWrite (fc : FunctionCode) (a : Word) (sz : Size) (v : Word) : Relates R (memWrite fc a sz v) := by
  intro s t hr
  have ha := (h.agree s t hr).eq
  have hb : t.bus = s.bus := by rw [ha]; simp
  have hg : t.granted fc .write a sz = s.granted fc .write a sz := by rw [ha]; simp
  unfold Machine.memWrite
  simp only [State.logRequest, hb, hg]
  split
  · refine ⟨rfl, ?_⟩
    have hm : t.mem = s.mem := by rw [ha]; simp
    have hk : t.decodeBits = s.decodeBits := by rw [ha]; simp
    generalize s.bus ++ [Request.put fc a sz (getSized sz v)] = b
    rw [State.store_eq (s.withBus b), State.store_eq (t.withBus b),
      State.store_mem_congr (s := s.withBus b) (t := t.withBus b) hm hk]
    exact h.mem _ _ _ (h.withBus _ _ _ hr)
  · exact ⟨rfl, h.withBus _ _ _ hr⟩

theorem fetch (off : Nat) (sz : Size) : Relates R (fetch off sz) := by
  intro s t hr
  have hp : t.programFc = s.programFc := by rw [(h.agree s t hr).eq]; simp
  have hc : t.pc = s.pc := by rw [(h.agree s t hr).eq]; simp
  unfold Machine.fetch
  rw [hp, hc]
  exact h.memRead _ _ _ s t hr

theorem construct (ea : Ea) (sz : Size) (off : Nat) : Relates R (construct ea sz off) := by
  unfold Machine.construct
  split
  · exact Relates.pure _
  · exact Relates.bind (h.fetch _ _) fun _ => Relates.pure _
  · exact Relates.bind (h.fetch _ _) fun _ => Relates.pure _

theorem get (r : Resolver) : Relates R r.get := by
  unfold Resolver.get
  split
  · exact h.reads fun _ _ _ _ _ _ => rfl
  · exact h.reads fun _ _ _ _ _ _ => rfl
  · exact Relates.pure _
  · next m _ =>
    intro s t hr
    have ha := (h.agree s t hr).eq
    have h1 : memReadFc m t = memReadFc m s := by rw [ha]; simp
    have h2 : memAddress m r.sz r.off r.ext t = memAddress m r.sz r.off r.ext s := by rw [ha]; simp
    beta_reduce
    rw [h1, h2]
    exact h.memRead _ _ _ s t hr

theorem put (r : Resolver) (v : Word) : Relates R (r.put v) := by
  unfold Resolver.put
  split
  · exact h.setD _ fun _ _ _ _ _ _ => rfl
  · exact h.setA _ fun _ _ _ _ _ _ => rfl
  · exact Relates.pure _
  · next m _ =>
    intro s t hr
    have ha := (h.agree s t hr).eq
    have h1 : t.dataFc = s.dataFc := by rw [ha]; simp
    have h2 : memAddress m r.sz r.off r.ext t = memAddress m r.sz r.off r.ext s := by rw [ha]; simp
    beta_reduce
    rw [h1, h2]
    exact h.memWrite _ _ _ _ s t hr

theorem finish (r : Resolver) : Relates R r.finish := by
  unfold Resolver.finish
  split
  · exact h.setA _ fun _ _ _ _ _ _ => rfl
  · exact h.setA _ fun _ _ _ _ _ _ => rfl
  · exact Relates.pure _

theorem address (r : Resolver) : Relates R r.address := by
  unfold Resolver.address
  split
  · exact h.reads fun _ _ _ _ _ _ => by simp
  · exact Relates.pure _

theorem advance (n : Nat) : Relates R (advance n) := h.setPc fun _ _ _ _ _ _ => rfl

theorem setCc (sz : Size) (r : Word) : Relates R (modifies (setCc sz r)) := Relates.modifies fun _ _ hr => h.cc _ _ _ hr

theorem setBoth (r : CcRecord) (s t : State) (hr : R s t) : R (setBoth r s) (setBoth r t) :=
  h.xsrc _ _ _ (h.cc _ _ _ hr)

theorem setCcAsAdd (sz : Size) (r d v : Word) : Relates R (modifies (setCcAsAdd sz r d v)) :=
  Relates.modifies fun _ _ hr => h.setBoth _ _ _ hr

theorem setCcSub (sz : Size) (r d v : Word) : Relates R (modifies (setCcSub sz r d v)) :=
  Relates.modifies fun _ _ hr => h.setBoth _ _ _ hr

theorem setCcCmp (sz : Size) (r d v : Word) : Relates R (modifies (setCcCmp sz r d v)) :=
  Relates.modifies fun _ _ hr => h.cc _ _ _ hr

theorem setCcShift (tag : Strategy) (sz : Size) (r v : Word) (c : Nat) :
    Relates R (modifies (setCcShift tag sz r v c)) := by
  refine Relates.modifies fun s t hr => ?_
  unfold Machine.setCcShift
  simp only
  split
  · exact h.cc _ _ _ hr
  · exact h.setBoth _ _ _ hr

theorem setCcUnspecified : Relates R (modifies setCcUnspecified) := by
  refine Relates.modifies fun s t hr => ?_
  have ha := (h.agree s t hr).eq
  have hd : t.draws = s.draws := by rw [ha]; simp
  have hb : t.bus = s.bus := by rw [ha]; simp
  have := h.bus _ _ s.bus (s.draws + 1) (h.setBoth (literalRecord (Config.freeFlags s.draws)) _ _ hr)
  unfold Machine.setCcUnspecified
  rw [hd]
  rw [show ∀ (r : CcRecord) (k : Nat), (((Machine.setBoth r s).withBus s.bus).withDraws k) =
    (Machine.setBoth r s).withDraws k from fun _ _ => rfl] at this
  rw [← hb] at this
  exact this

theorem setUnspecified (sz : Size) (r v : Word) (c : Nat) : Relates R (modifies (setUnspecified sz r v c)) :=
  h.setCcUnspecified

theorem setSr (v : Half) : Relates R (modifies (setSr v)) :=
  Relates.modifies fun _ _ hr => h.sup _ _ _ (h.setBoth _ _ _ hr)

theorem branchDisp (disp8 : BitVec 8) : Relates R (branchDisp disp8) := by
  unfold Machine.branchDisp
  split
  · exact Relates.bind (h.fetch _ _) fun _ => Relates.pure _
  · exact Relates.pure _

theorem pushLong (v : Word) : Relates R (pushLong v) :=
  Relates.bind (h.reads fun _ _ _ _ _ _ => rfl) fun _ => Relates.bind (h.reads fun _ _ _ _ _ _ => rfl) fun _ =>
    Relates.bind (h.memWrite _ _ _ _) fun _ => h.setA _ fun _ _ _ _ _ _ => rfl

theorem popLong : Relates R popLong :=
  Relates.bind (h.reads fun _ _ _ _ _ _ => rfl) fun _ => Relates.bind (h.reads fun _ _ _ _ _ _ => rfl) fun _ =>
    Relates.bind (h.memRead _ _ _) fun _ => Relates.bind (h.setA _ fun _ _ _ _ _ _ => rfl) fun _ => Relates.pure _

theorem popFrame : Relates R popFrame :=
  Relates.bind (h.reads fun _ _ _ _ _ _ => rfl) fun _ => Relates.bind (h.reads fun _ _ _ _ _ _ => rfl) fun _ =>
    Relates.bind (h.memRead _ _ _) fun _ => Relates.bind (h.memRead _ _ _) fun _ =>
      Relates.bind (h.setA _ fun _ _ _ _ _ _ => rfl) fun _ => Relates.pure _

theorem requireSupervisor (op : Half) : Relates R (requireSupervisor op) := by
  intro s t hr
  have hs : t.sup = s.sup := by rw [(h.agree s t hr).eq]; simp
  have hp : t.pc = s.pc := by rw [(h.agree s t hr).eq]; simp
  unfold Machine.requireSupervisor
  rw [hs, hp]
  split
  · exact ⟨rfl, hr⟩
  · exact ⟨rfl, hr⟩

/-! ### The meanings -/

theorem move (sz : Size) (src dst : Ea) : Relates R (move sz src dst) :=
  Relates.bind (h.construct _ _ _) fun _ => Relates.bind (h.construct _ _ _) fun _ => Relates.bind (h.get _) fun _ =>
    Relates.bind (h.setCc _ _) fun _ => Relates.bind (h.put _ _) fun _ => Relates.bind (h.finish _) fun _ =>
      Relates.bind (h.finish _) fun _ => h.advance _

theorem movea (sz : Size) (src : Ea) (an : RegNum) : Relates R (movea sz src an) :=
  Relates.bind (h.construct _ _ _) fun _ => Relates.bind (h.get _) fun _ =>
    Relates.bind (h.setA _ fun _ _ _ _ _ _ => rfl) fun _ => Relates.bind (h.finish _) fun _ => h.advance _

theorem moveqBody (dn : RegNum) (data : BitVec 8) : Relates R (moveqBody dn data) :=
  Relates.bind (h.setD _ fun _ _ _ _ _ _ => rfl) fun _ => Relates.bind (h.setCc _ _) fun _ => h.advance _

theorem moveFromSrBody (dst : Ea) : Relates R (moveFromSrBody dst) :=
  Relates.bind (h.construct _ _ _) fun _ =>
    Relates.bind (h.readsFlags fun b f => (BitVec.ofNat 16 (b.toNat * 8192 + packFlags f)).setWidth 32) fun _ =>
      Relates.bind (h.put _ _) fun _ => Relates.bind (h.finish _) fun _ => h.advance _

theorem arithToReg {f : Size → Word → Word → Word} {setf : Size → Word → Word → Word → State → State} {sz : Size}
    (hs : ∀ r d v, Relates R (modifies (setf sz r d v))) (src : Ea) (dn : RegNum) :
    Relates R (arithToReg f setf sz src dn) :=
  Relates.bind (h.construct _ _ _) fun _ => Relates.bind (h.get _) fun _ =>
    Relates.bind (h.reads fun _ _ _ _ _ _ => rfl) fun _ => Relates.bind (hs _ _ _) fun _ =>
      Relates.bind (h.setD _ fun _ _ _ _ _ _ => rfl) fun _ => Relates.bind (h.finish _) fun _ => h.advance _

theorem arithToMem {f : Size → Word → Word → Word} {setf : Size → Word → Word → Word → State → State} {sz : Size}
    (hs : ∀ r d v, Relates R (modifies (setf sz r d v))) (dn : RegNum) (dst : Ea) :
    Relates R (arithToMem f setf sz dn dst) :=
  Relates.bind (h.construct _ _ _) fun _ => Relates.bind (h.get _) fun _ =>
    Relates.bind (h.reads fun _ _ _ _ _ _ => rfl) fun _ => Relates.bind (hs _ _ _) fun _ =>
      Relates.bind (h.put _ _) fun _ => Relates.bind (h.finish _) fun _ => h.advance _

theorem cmpToReg (sz : Size) (src : Ea) (dn : RegNum) : Relates R (cmpToReg sz src dn) :=
  Relates.bind (h.construct _ _ _) fun _ => Relates.bind (h.get _) fun _ =>
    Relates.bind (h.reads fun _ _ _ _ _ _ => rfl) fun _ => Relates.bind (h.setCcCmp _ _ _ _) fun _ =>
      Relates.bind (h.finish _) fun _ => h.advance _

theorem addq (sz : Size) (q : BitVec 3) (dst : Ea) : Relates R (addq sz q dst) := by
  unfold Machine.addq
  simp only
  split
  · exact Relates.bind (h.setA _ fun _ _ _ _ _ _ => rfl) fun _ => h.advance _
  · exact Relates.bind (h.construct _ _ _) fun _ => Relates.bind (h.get _) fun _ =>
      Relates.bind (h.setCcAsAdd _ _ _ _) fun _ => Relates.bind (h.put _ _) fun _ =>
        Relates.bind (h.finish _) fun _ => h.advance _

theorem shiftReg {f : Size → Word → Nat → Word} {setf : Size → Word → Word → Nat → State → State} {sz : Size}
    (hs : ∀ r v c, Relates R (modifies (setf sz r v c))) (count : ShiftCount) (dn : RegNum) :
    Relates R (shiftReg f setf sz count dn) :=
  Relates.bind (h.reads fun _ _ _ _ _ _ => by cases count <;> rfl) fun _ =>
    Relates.bind (h.reads fun _ _ _ _ _ _ => rfl) fun _ => Relates.bind (hs _ _ _) fun _ =>
      Relates.bind (h.setD _ fun _ _ _ _ _ _ => rfl) fun _ => h.advance _

theorem shiftMem {f : Size → Word → Nat → Word} {setf : Size → Word → Word → Nat → State → State}
    (hs : ∀ r v c, Relates R (modifies (setf .w r v c))) (dst : Ea) : Relates R (shiftMem f setf dst) :=
  Relates.bind (h.construct _ _ _) fun _ => Relates.bind (h.get _) fun _ => Relates.bind (hs _ _ _) fun _ =>
    Relates.bind (h.put _ _) fun _ => Relates.bind (h.finish _) fun _ => h.advance _

theorem bitOp (g : Word → Nat → Word) (bn : Nat) (dst : Ea) (off : Nat) : Relates R (bitOp g bn dst off) :=
  Relates.bind (h.construct _ _ _) fun _ => Relates.bind (h.get _) fun _ => Relates.bind h.setCcUnspecified fun _ =>
    Relates.bind (h.put _ _) fun _ => Relates.bind (h.finish _) fun _ => h.advance _

theorem bitDynamic (g : Word → Nat → Word) (dn : RegNum) (dst : Ea) : Relates R (bitDynamic g dn dst) :=
  Relates.bind (h.reads fun _ _ _ _ _ _ => rfl) fun _ => h.bitOp _ _ _ _

theorem bitStatic (g : Word → Nat → Word) (dst : Ea) : Relates R (bitStatic g dst) :=
  Relates.bind (h.fetch _ _) fun _ => h.bitOp _ _ _ _

theorem sccBody (cond : Cond) (dst : Ea) : Relates R (sccBody cond dst) :=
  Relates.bind (h.construct _ _ _) fun _ => Relates.bind (h.readsFlags fun _ f => testCond cond f) fun _ =>
    Relates.bind (h.put _ _) fun _ => Relates.bind (h.finish _) fun _ => h.advance _

theorem dbccBody (cond : Cond) (dn : RegNum) : Relates R (dbccBody cond dn) :=
  Relates.bind (h.fetch _ _) fun _ => Relates.bind (h.readsFlags fun _ f => testCond cond f) fun _ =>
    Relates.ite (h.advance _) (Relates.bind (h.reads fun _ _ _ _ _ _ => rfl) fun _ =>
      Relates.bind (h.setD _ fun _ _ _ _ _ _ => rfl) fun _ =>
        Relates.ite (h.advance _) (h.setPc fun _ _ _ _ _ _ => rfl))

theorem braBody (disp8 : BitVec 8) : Relates R (braBody disp8) :=
  Relates.bind (h.branchDisp _) fun _ => h.setPc fun _ _ _ _ _ _ => rfl

theorem bsrBody (disp8 : BitVec 8) : Relates R (bsrBody disp8) :=
  Relates.bind (h.branchDisp _) fun _ => Relates.bind (h.reads fun _ _ _ _ _ _ => rfl) fun _ =>
    Relates.bind (h.pushLong _) fun _ => h.setPc fun _ _ _ _ _ _ => rfl

theorem bccBody (cond : Cond) (disp8 : BitVec 8) : Relates R (bccBody cond disp8) :=
  Relates.bind (h.branchDisp _) fun _ => Relates.bind (h.readsFlags fun _ f => testCond cond f) fun _ =>
    Relates.ite (h.setPc fun _ _ _ _ _ _ => rfl) (h.advance _)

theorem jmpBody (dst : Ea) : Relates R (jmpBody dst) :=
  Relates.bind (h.construct _ _ _) fun _ => Relates.bind (h.address _) fun _ => h.setPc fun _ _ _ _ _ _ => rfl

theorem jsrBody (dst : Ea) : Relates R (jsrBody dst) :=
  Relates.bind (h.construct _ _ _) fun _ => Relates.bind (h.address _) fun _ =>
    Relates.bind (h.reads fun _ _ _ _ _ _ => rfl) fun _ => Relates.bind (h.pushLong _) fun _ =>
      h.setPc fun _ _ _ _ _ _ => rfl

theorem rtsBody : Relates R rtsBody := Relates.bind h.popLong fun _ => h.setPc fun _ _ _ _ _ _ => rfl

theorem moveToSrBody (src : Ea) : Relates R (moveToSrBody src) :=
  Relates.bind (h.requireSupervisor _) fun _ => Relates.bind (h.construct _ _ _) fun _ =>
    Relates.bind (h.get _) fun _ => Relates.bind (h.finish _) fun _ => Relates.bind (h.setSr _) fun _ => h.advance _

theorem rteBody : Relates R rteBody :=
  Relates.bind (h.requireSupervisor _) fun _ => Relates.bind h.popFrame fun _ => Relates.bind (h.setSr _) fun _ =>
    h.setPc fun _ _ _ _ _ _ => rfl

theorem runBase {i : Instr} {body : Exec Unit} {s t : State} (hb : Relates R body) (hr : R s t) :
    RelOutcome R (runBase i body s) (runBase i body t) := by
  have hp : t.pc = s.pc := by rw [(h.agree s t hr).eq]; simp
  have hf : ∀ s t, R s t → t.programFc = s.programFc := fun s t hr => by rw [(h.agree s t hr).eq]; simp
  exact runBase_relates hb hr hp hf

/-- Every base instruction, the collaborators' slot apart: from related states, related outcomes. -/
theorem exec {i : Instr} {s t : State} (hr : R s t) (h3 : ∀ n, i ≠ .trap n) : RelOutcome R (exec i s) (exec i t) := by
  cases i with
  | moveB src dst => exact h.runBase (i := .moveB src dst) (h.move .b src dst) hr
  | moveL src dst => exact h.runBase (i := .moveL src dst) (h.move .l src dst) hr
  | moveW src dst => exact h.runBase (i := .moveW src dst) (h.move .w src dst) hr
  | moveaL src an => exact h.runBase (i := .moveaL src an) (h.movea .l src an) hr
  | moveaW src an => exact h.runBase (i := .moveaW src an) (h.movea .w src an) hr
  | moveq dn data => exact h.runBase (i := .moveq dn data) (h.moveqBody dn data) hr
  | moveFromSr dst => exact h.runBase (i := .moveFromSr dst) (h.moveFromSrBody dst) hr
  | moveToSr src => exact h.runBase (i := .moveToSr src) (h.moveToSrBody src) hr
  | addBEaDn src dn => exact h.runBase (i := .addBEaDn src dn) (h.arithToReg (fun r d v => h.setCcAsAdd .b r d v) src dn) hr
  | addWEaDn src dn => exact h.runBase (i := .addWEaDn src dn) (h.arithToReg (fun r d v => h.setCcAsAdd .w r d v) src dn) hr
  | addLEaDn src dn => exact h.runBase (i := .addLEaDn src dn) (h.arithToReg (fun r d v => h.setCcAsAdd .l r d v) src dn) hr
  | addBDnEa dn dst => exact h.runBase (i := .addBDnEa dn dst) (h.arithToMem (fun r d v => h.setCcAsAdd .b r d v) dn dst) hr
  | addWDnEa dn dst => exact h.runBase (i := .addWDnEa dn dst) (h.arithToMem (fun r d v => h.setCcAsAdd .w r d v) dn dst) hr
  | addLDnEa dn dst => exact h.runBase (i := .addLDnEa dn dst) (h.arithToMem (fun r d v => h.setCcAsAdd .l r d v) dn dst) hr
  | subBEaDn src dn => exact h.runBase (i := .subBEaDn src dn) (h.arithToReg (fun r d v => h.setCcSub .b r d v) src dn) hr
  | subWEaDn src dn => exact h.runBase (i := .subWEaDn src dn) (h.arithToReg (fun r d v => h.setCcSub .w r d v) src dn) hr
  | subLEaDn src dn => exact h.runBase (i := .subLEaDn src dn) (h.arithToReg (fun r d v => h.setCcSub .l r d v) src dn) hr
  | subBDnEa dn dst => exact h.runBase (i := .subBDnEa dn dst) (h.arithToMem (fun r d v => h.setCcSub .b r d v) dn dst) hr
  | subWDnEa dn dst => exact h.runBase (i := .subWDnEa dn dst) (h.arithToMem (fun r d v => h.setCcSub .w r d v) dn dst) hr
  | subLDnEa dn dst => exact h.runBase (i := .subLDnEa dn dst) (h.arithToMem (fun r d v => h.setCcSub .l r d v) dn dst) hr
  | cmpB src dn => exact h.runBase (i := .cmpB src dn) (h.cmpToReg .b src dn) hr
  | cmpW src dn => exact h.runBase (i := .cmpW src dn) (h.cmpToReg .w src dn) hr
  | cmpL src dn => exact h.runBase (i := .cmpL src dn) (h.cmpToReg .l src dn) hr
  | addqB q dst => exact h.runBase (i := .addqB q dst) (h.addq .b q dst) hr
  | addqW q dst => exact h.runBase (i := .addqW q dst) (h.addq .w q dst) hr
  | addqL q dst => exact h.runBase (i := .addqL q dst) (h.addq .l q dst) hr
  | scc cond dst => exact h.runBase (i := .scc cond dst) (h.sccBody cond dst) hr
  | dbcc cond dn => exact h.runBase (i := .dbcc cond dn) (h.dbccBody cond dn) hr
  | bra disp8 => exact h.runBase (i := .bra disp8) (h.braBody disp8) hr
  | bsr disp8 => exact h.runBase (i := .bsr disp8) (h.bsrBody disp8) hr
  | bcc cond disp8 => exact h.runBase (i := .bcc cond disp8) (h.bccBody cond disp8) hr
  | jmp dst => exact h.runBase (i := .jmp dst) (h.jmpBody dst) hr
  | jsr dst => exact h.runBase (i := .jsr dst) (h.jsrBody dst) hr
  | rts => exact h.runBase (i := .rts) (h.rtsBody ) hr
  | rte => exact h.runBase (i := .rte) (h.rteBody ) hr
  | asrB count dn => exact h.runBase (i := .asrB count dn) (h.shiftReg (fun r v c => h.setCcShift .shiftAsr .b r v c) count dn) hr
  | asrW count dn => exact h.runBase (i := .asrW count dn) (h.shiftReg (fun r v c => h.setCcShift .shiftAsr .w r v c) count dn) hr
  | asrL count dn => exact h.runBase (i := .asrL count dn) (h.shiftReg (fun r v c => h.setCcShift .shiftAsr .l r v c) count dn) hr
  | lsrB count dn => exact h.runBase (i := .lsrB count dn) (h.shiftReg (fun r v c => h.setCcShift .shiftLsr .b r v c) count dn) hr
  | lsrW count dn => exact h.runBase (i := .lsrW count dn) (h.shiftReg (fun r v c => h.setCcShift .shiftLsr .w r v c) count dn) hr
  | lsrL count dn => exact h.runBase (i := .lsrL count dn) (h.shiftReg (fun r v c => h.setCcShift .shiftLsr .l r v c) count dn) hr
  | lslB count dn => exact h.runBase (i := .lslB count dn) (h.shiftReg (fun r v c => h.setCcShift .shiftLsl .b r v c) count dn) hr
  | lslW count dn => exact h.runBase (i := .lslW count dn) (h.shiftReg (fun r v c => h.setCcShift .shiftLsl .w r v c) count dn) hr
  | lslL count dn => exact h.runBase (i := .lslL count dn) (h.shiftReg (fun r v c => h.setCcShift .shiftLsl .l r v c) count dn) hr
  | rorB count dn => exact h.runBase (i := .rorB count dn) (h.shiftReg (fun r v c => h.setUnspecified .b r v c) count dn) hr
  | rorW count dn => exact h.runBase (i := .rorW count dn) (h.shiftReg (fun r v c => h.setUnspecified .w r v c) count dn) hr
  | rorL count dn => exact h.runBase (i := .rorL count dn) (h.shiftReg (fun r v c => h.setUnspecified .l r v c) count dn) hr
  | rolB count dn => exact h.runBase (i := .rolB count dn) (h.shiftReg (fun r v c => h.setUnspecified .b r v c) count dn) hr
  | rolW count dn => exact h.runBase (i := .rolW count dn) (h.shiftReg (fun r v c => h.setUnspecified .w r v c) count dn) hr
  | rolL count dn => exact h.runBase (i := .rolL count dn) (h.shiftReg (fun r v c => h.setUnspecified .l r v c) count dn) hr
  | asrMem dst => exact h.runBase (i := .asrMem dst) (h.shiftMem (fun r v c => h.setCcShift .shiftAsr .w r v c) dst) hr
  | lsrMem dst => exact h.runBase (i := .lsrMem dst) (h.shiftMem (fun r v c => h.setCcShift .shiftLsr .w r v c) dst) hr
  | lslMem dst => exact h.runBase (i := .lslMem dst) (h.shiftMem (fun r v c => h.setCcShift .shiftLsl .w r v c) dst) hr
  | rorMem dst => exact h.runBase (i := .rorMem dst) (h.shiftMem (fun r v c => h.setUnspecified .w r v c) dst) hr
  | rolMem dst => exact h.runBase (i := .rolMem dst) (h.shiftMem (fun r v c => h.setUnspecified .w r v c) dst) hr
  | bsetDyn dn dst => exact h.runBase (i := .bsetDyn dn dst) (h.bitDynamic bset dn dst) hr
  | bclrDyn dn dst => exact h.runBase (i := .bclrDyn dn dst) (h.bitDynamic bclr dn dst) hr
  | bsetStatic dst => exact h.runBase (i := .bsetStatic dst) (h.bitStatic bset dst) hr
  | bclrStatic dst => exact h.runBase (i := .bclrStatic dst) (h.bitStatic bclr dst) hr
  | trap vector => exact absurd rfl (h3 vector)

end RelatesBasics

end Sys2Proof.Machine
end

