-- ==== Sys2Proof/Laws/PerInstr.lean ====
section
/-! SUPPORT. Statements made per instruction, each about the instruction as syntax: its opcode word agrees with the mask and
the match of its row of spec/opcode_table.json (30_encoding.md R85, R104), whatever its operands. -/

namespace Sys2Proof

/-! ### A word masked, field by field -/

theorem word43333_append (line : BitVec 4) (r9 : BitVec 3) (m6 : BitVec 3) (m3 : BitVec 3) (r0 : BitVec 3) :
    word43333 line r9 m6 m3 r0 = line ++ r9 ++ m6 ++ m3 ++ r0 := by
  have := line.isLt
  have := r9.isLt
  have := m6.isLt
  have := m3.isLt
  have := r0.isLt
  apply BitVec.eq_of_toNat_eq
  simp only [BitVec.toNat_append, word43333, BitVec.toNat_ofNat]
  rw [← Nat.shiftLeft_add_eq_or_of_lt (by omega),
    ← Nat.shiftLeft_add_eq_or_of_lt (by omega),
    ← Nat.shiftLeft_add_eq_or_of_lt (by omega),
    ← Nat.shiftLeft_add_eq_or_of_lt (by omega)]
  simp only [Nat.shiftLeft_eq]
  omega

theorem word43333_and (line line' : BitVec 4) (r9 r9' : BitVec 3) (m6 m6' : BitVec 3) (m3 m3' : BitVec 3) (r0 r0' : BitVec 3) :
    word43333 line r9 m6 m3 r0 &&& word43333 line' r9' m6' m3' r0' =
      word43333 (line &&& line') (r9 &&& r9') (m6 &&& m6') (m3 &&& m3') (r0 &&& r0') := by
  simp only [word43333_append]
  exact BitVec.and_append.trans (by simp only [BitVec.and_append])

theorem word448_append (line : BitVec 4) (cond : BitVec 4) (disp8 : BitVec 8) :
    word448 line cond disp8 = line ++ cond ++ disp8 := by
  have := line.isLt
  have := cond.isLt
  have := disp8.isLt
  apply BitVec.eq_of_toNat_eq
  simp only [BitVec.toNat_append, word448, BitVec.toNat_ofNat]
  rw [← Nat.shiftLeft_add_eq_or_of_lt (by omega),
    ← Nat.shiftLeft_add_eq_or_of_lt (by omega)]
  simp only [Nat.shiftLeft_eq]
  omega

theorem word448_and (line line' : BitVec 4) (cond cond' : BitVec 4) (disp8 disp8' : BitVec 8) :
    word448 line cond disp8 &&& word448 line' cond' disp8' =
      word448 (line &&& line') (cond &&& cond') (disp8 &&& disp8') := by
  simp only [word448_append]
  exact BitVec.and_append.trans (by simp only [BitVec.and_append])

theorem word4318_append (line : BitVec 4) (r9 : BitVec 3) (b8 : BitVec 1) (data : BitVec 8) :
    word4318 line r9 b8 data = line ++ r9 ++ b8 ++ data := by
  have := line.isLt
  have := r9.isLt
  have := b8.isLt
  have := data.isLt
  apply BitVec.eq_of_toNat_eq
  simp only [BitVec.toNat_append, word4318, BitVec.toNat_ofNat]
  rw [← Nat.shiftLeft_add_eq_or_of_lt (by omega),
    ← Nat.shiftLeft_add_eq_or_of_lt (by omega),
    ← Nat.shiftLeft_add_eq_or_of_lt (by omega)]
  simp only [Nat.shiftLeft_eq]
  omega

theorem word4318_and (line line' : BitVec 4) (r9 r9' : BitVec 3) (b8 b8' : BitVec 1) (data data' : BitVec 8) :
    word4318 line r9 b8 data &&& word4318 line' r9' b8' data' =
      word4318 (line &&& line') (r9 &&& r9') (b8 &&& b8') (data &&& data') := by
  simp only [word4318_append]
  exact BitVec.and_append.trans (by simp only [BitVec.and_append])

theorem word44233_append (line : BitVec 4) (cond : BitVec 4) (s6 : BitVec 2) (m3 : BitVec 3) (r0 : BitVec 3) :
    word44233 line cond s6 m3 r0 = line ++ cond ++ s6 ++ m3 ++ r0 := by
  have := line.isLt
  have := cond.isLt
  have := s6.isLt
  have := m3.isLt
  have := r0.isLt
  apply BitVec.eq_of_toNat_eq
  simp only [BitVec.toNat_append, word44233, BitVec.toNat_ofNat]
  rw [← Nat.shiftLeft_add_eq_or_of_lt (by omega),
    ← Nat.shiftLeft_add_eq_or_of_lt (by omega),
    ← Nat.shiftLeft_add_eq_or_of_lt (by omega),
    ← Nat.shiftLeft_add_eq_or_of_lt (by omega)]
  simp only [Nat.shiftLeft_eq]
  omega

theorem word44233_and (line line' : BitVec 4) (cond cond' : BitVec 4) (s6 s6' : BitVec 2) (m3 m3' : BitVec 3) (r0 r0' : BitVec 3) :
    word44233 line cond s6 m3 r0 &&& word44233 line' cond' s6' m3' r0' =
      word44233 (line &&& line') (cond &&& cond') (s6 &&& s6') (m3 &&& m3') (r0 &&& r0') := by
  simp only [word44233_append]
  exact BitVec.and_append.trans (by simp only [BitVec.and_append])

theorem word4312123_append (line : BitVec 4) (r9 : BitVec 3) (dir : BitVec 1) (size : BitVec 2) (ir : BitVec 1) (type : BitVec 2) (r0 : BitVec 3) :
    word4312123 line r9 dir size ir type r0 = line ++ r9 ++ dir ++ size ++ ir ++ type ++ r0 := by
  have := line.isLt
  have := r9.isLt
  have := dir.isLt
  have := size.isLt
  have := ir.isLt
  have := type.isLt
  have := r0.isLt
  apply BitVec.eq_of_toNat_eq
  simp only [BitVec.toNat_append, word4312123, BitVec.toNat_ofNat]
  rw [← Nat.shiftLeft_add_eq_or_of_lt (by omega),
    ← Nat.shiftLeft_add_eq_or_of_lt (by omega),
    ← Nat.shiftLeft_add_eq_or_of_lt (by omega),
    ← Nat.shiftLeft_add_eq_or_of_lt (by omega),
    ← Nat.shiftLeft_add_eq_or_of_lt (by omega),
    ← Nat.shiftLeft_add_eq_or_of_lt (by omega)]
  simp only [Nat.shiftLeft_eq]
  omega

theorem word4312123_and (line line' : BitVec 4) (r9 r9' : BitVec 3) (dir dir' : BitVec 1) (size size' : BitVec 2) (ir ir' : BitVec 1) (type type' : BitVec 2) (r0 r0' : BitVec 3) :
    word4312123 line r9 dir size ir type r0 &&& word4312123 line' r9' dir' size' ir' type' r0' =
      word4312123 (line &&& line') (r9 &&& r9') (dir &&& dir') (size &&& size') (ir &&& ir') (type &&& type') (r0 &&& r0') := by
  simp only [word4312123_append]
  exact BitVec.and_append.trans (by simp only [BitVec.and_append])

theorem wordC4_append (hi : BitVec 12) (vector : BitVec 4) :
    wordC4 hi vector = hi ++ vector := by
  have := hi.isLt
  have := vector.isLt
  apply BitVec.eq_of_toNat_eq
  simp only [BitVec.toNat_append, wordC4, BitVec.toNat_ofNat]
  rw [← Nat.shiftLeft_add_eq_or_of_lt (by omega)]
  simp only [Nat.shiftLeft_eq]
  omega

theorem wordC4_and (hi hi' : BitVec 12) (vector vector' : BitVec 4) :
    wordC4 hi vector &&& wordC4 hi' vector' =
      wordC4 (hi &&& hi') (vector &&& vector') := by
  simp only [wordC4_append]
  exact BitVec.and_append

/-! ### The rows -/

/-- The mask of the instruction's row: its fixed bits. -/
def Laws.RowMatch.mask : Instr → Half
  | .moveB _ _ => 0xF000#16
  | .moveL _ _ => 0xF000#16
  | .moveW _ _ => 0xF000#16
  | .moveaL _ _ => 0xF1C0#16
  | .moveaW _ _ => 0xF1C0#16
  | .moveq _ _ => 0xF100#16
  | .moveFromSr _ => 0xFFC0#16
  | .moveToSr _ => 0xFFC0#16
  | .addBEaDn _ _ => 0xF1C0#16
  | .addWEaDn _ _ => 0xF1C0#16
  | .addLEaDn _ _ => 0xF1C0#16
  | .addBDnEa _ _ => 0xF1C0#16
  | .addWDnEa _ _ => 0xF1C0#16
  | .addLDnEa _ _ => 0xF1C0#16
  | .subBEaDn _ _ => 0xF1C0#16
  | .subWEaDn _ _ => 0xF1C0#16
  | .subLEaDn _ _ => 0xF1C0#16
  | .subBDnEa _ _ => 0xF1C0#16
  | .subWDnEa _ _ => 0xF1C0#16
  | .subLDnEa _ _ => 0xF1C0#16
  | .cmpB _ _ => 0xF1C0#16
  | .cmpW _ _ => 0xF1C0#16
  | .cmpL _ _ => 0xF1C0#16
  | .addqB _ _ => 0xF1C0#16
  | .addqW _ _ => 0xF1C0#16
  | .addqL _ _ => 0xF1C0#16
  | .scc _ _ => 0xF0C0#16
  | .dbcc _ _ => 0xF0F8#16
  | .bra _ => 0xFF00#16
  | .bsr _ => 0xFF00#16
  | .bcc _ _ => 0xF000#16
  | .jmp _ => 0xFFC0#16
  | .jsr _ => 0xFFC0#16
  | .rts => 0xFFFF#16
  | .rte => 0xFFFF#16
  | .asrB _ _ => 0xF1D8#16
  | .asrW _ _ => 0xF1D8#16
  | .asrL _ _ => 0xF1D8#16
  | .lsrB _ _ => 0xF1D8#16
  | .lsrW _ _ => 0xF1D8#16
  | .lsrL _ _ => 0xF1D8#16
  | .lslB _ _ => 0xF1D8#16
  | .lslW _ _ => 0xF1D8#16
  | .lslL _ _ => 0xF1D8#16
  | .rorB _ _ => 0xF1D8#16
  | .rorW _ _ => 0xF1D8#16
  | .rorL _ _ => 0xF1D8#16
  | .rolB _ _ => 0xF1D8#16
  | .rolW _ _ => 0xF1D8#16
  | .rolL _ _ => 0xF1D8#16
  | .asrMem _ => 0xFFC0#16
  | .lsrMem _ => 0xFFC0#16
  | .lslMem _ => 0xFFC0#16
  | .rorMem _ => 0xFFC0#16
  | .rolMem _ => 0xFFC0#16
  | .bsetDyn _ _ => 0xF1C0#16
  | .bclrDyn _ _ => 0xF1C0#16
  | .bsetStatic _ => 0xFFC0#16
  | .bclrStatic _ => 0xFFC0#16
  | .trap _ => 0xFFF0#16

/-- The match of the instruction's row: the values of its fixed bits. -/
def Laws.RowMatch.value : Instr → Half
  | .moveB _ _ => 0x1000#16
  | .moveL _ _ => 0x2000#16
  | .moveW _ _ => 0x3000#16
  | .moveaL _ _ => 0x2040#16
  | .moveaW _ _ => 0x3040#16
  | .moveq _ _ => 0x7000#16
  | .moveFromSr _ => 0x40C0#16
  | .moveToSr _ => 0x46C0#16
  | .addBEaDn _ _ => 0xD000#16
  | .addWEaDn _ _ => 0xD040#16
  | .addLEaDn _ _ => 0xD080#16
  | .addBDnEa _ _ => 0xD100#16
  | .addWDnEa _ _ => 0xD140#16
  | .addLDnEa _ _ => 0xD180#16
  | .subBEaDn _ _ => 0x9000#16
  | .subWEaDn _ _ => 0x9040#16
  | .subLEaDn _ _ => 0x9080#16
  | .subBDnEa _ _ => 0x9100#16
  | .subWDnEa _ _ => 0x9140#16
  | .subLDnEa _ _ => 0x9180#16
  | .cmpB _ _ => 0xB000#16
  | .cmpW _ _ => 0xB040#16
  | .cmpL _ _ => 0xB080#16
  | .addqB _ _ => 0x5000#16
  | .addqW _ _ => 0x5040#16
  | .addqL _ _ => 0x5080#16
  | .scc _ _ => 0x50C0#16
  | .dbcc _ _ => 0x50C8#16
  | .bra _ => 0x6000#16
  | .bsr _ => 0x6100#16
  | .bcc _ _ => 0x6000#16
  | .jmp _ => 0x4EC0#16
  | .jsr _ => 0x4E80#16
  | .rts => 0x4E75#16
  | .rte => 0x4E73#16
  | .asrB _ _ => 0xE000#16
  | .asrW _ _ => 0xE040#16
  | .asrL _ _ => 0xE080#16
  | .lsrB _ _ => 0xE008#16
  | .lsrW _ _ => 0xE048#16
  | .lsrL _ _ => 0xE088#16
  | .lslB _ _ => 0xE108#16
  | .lslW _ _ => 0xE148#16
  | .lslL _ _ => 0xE188#16
  | .rorB _ _ => 0xE018#16
  | .rorW _ _ => 0xE058#16
  | .rorL _ _ => 0xE098#16
  | .rolB _ _ => 0xE118#16
  | .rolW _ _ => 0xE158#16
  | .rolL _ _ => 0xE198#16
  | .asrMem _ => 0xE0C0#16
  | .lsrMem _ => 0xE2C0#16
  | .lslMem _ => 0xE3C0#16
  | .rorMem _ => 0xE6C0#16
  | .rolMem _ => 0xE7C0#16
  | .bsetDyn _ _ => 0x01C0#16
  | .bclrDyn _ _ => 0x0180#16
  | .bsetStatic _ => 0x08C0#16
  | .bclrStatic _ => 0x0880#16
  | .trap _ => 0x4E40#16

/-- The opcode word has its row's fixed bits. -/
def Laws.RowMatch.Statement (i : Instr) : Prop := encode i &&& Laws.RowMatch.mask i = Laws.RowMatch.value i

theorem Laws.RowMatch.moveB (src dst : Ea) :
    Laws.RowMatch.Statement (.moveB src dst) := by
  change encode (.moveB src dst) &&& word43333 15#4 0#3 0#3 0#3 0#3 = _
  simp only [encode, encodeMove, word43333_and]
  simp
  rfl

theorem Laws.RowMatch.moveL (src dst : Ea) :
    Laws.RowMatch.Statement (.moveL src dst) := by
  change encode (.moveL src dst) &&& word43333 15#4 0#3 0#3 0#3 0#3 = _
  simp only [encode, encodeMove, word43333_and]
  simp
  rfl

theorem Laws.RowMatch.moveW (src dst : Ea) :
    Laws.RowMatch.Statement (.moveW src dst) := by
  change encode (.moveW src dst) &&& word43333 15#4 0#3 0#3 0#3 0#3 = _
  simp only [encode, encodeMove, word43333_and]
  simp
  rfl

theorem Laws.RowMatch.moveaL (src : Ea) (an : RegNum) :
    Laws.RowMatch.Statement (.moveaL src an) := by
  change encode (.moveaL src an) &&& word43333 15#4 0#3 7#3 0#3 0#3 = _
  simp only [encode, encodeMove, word43333_and]
  simp [eaMode]
  rfl

theorem Laws.RowMatch.moveaW (src : Ea) (an : RegNum) :
    Laws.RowMatch.Statement (.moveaW src an) := by
  change encode (.moveaW src an) &&& word43333 15#4 0#3 7#3 0#3 0#3 = _
  simp only [encode, encodeMove, word43333_and]
  simp [eaMode]
  rfl

theorem Laws.RowMatch.moveq (dn : RegNum) (data : BitVec 8) :
    Laws.RowMatch.Statement (.moveq dn data) := by
  change encode (.moveq dn data) &&& word4318 15#4 0#3 1#1 0#8 = _
  simp only [encode, word4318_and]
  simp
  rfl

theorem Laws.RowMatch.moveFromSr (dst : Ea) :
    Laws.RowMatch.Statement (.moveFromSr dst) := by
  change encode (.moveFromSr dst) &&& word43333 15#4 7#3 7#3 0#3 0#3 = _
  simp only [encode, encodeEa, word43333_and]
  simp
  rfl

theorem Laws.RowMatch.moveToSr (src : Ea) :
    Laws.RowMatch.Statement (.moveToSr src) := by
  change encode (.moveToSr src) &&& word43333 15#4 7#3 7#3 0#3 0#3 = _
  simp only [encode, encodeEa, word43333_and]
  simp
  rfl

theorem Laws.RowMatch.addBEaDn (src : Ea) (dn : RegNum) :
    Laws.RowMatch.Statement (.addBEaDn src dn) := by
  change encode (.addBEaDn src dn) &&& word43333 15#4 0#3 7#3 0#3 0#3 = _
  simp only [encode, encodeEa, word43333_and]
  simp
  rfl

theorem Laws.RowMatch.addWEaDn (src : Ea) (dn : RegNum) :
    Laws.RowMatch.Statement (.addWEaDn src dn) := by
  change encode (.addWEaDn src dn) &&& word43333 15#4 0#3 7#3 0#3 0#3 = _
  simp only [encode, encodeEa, word43333_and]
  simp
  rfl

theorem Laws.RowMatch.addLEaDn (src : Ea) (dn : RegNum) :
    Laws.RowMatch.Statement (.addLEaDn src dn) := by
  change encode (.addLEaDn src dn) &&& word43333 15#4 0#3 7#3 0#3 0#3 = _
  simp only [encode, encodeEa, word43333_and]
  simp
  rfl

theorem Laws.RowMatch.addBDnEa (dn : RegNum) (dst : Ea) :
    Laws.RowMatch.Statement (.addBDnEa dn dst) := by
  change encode (.addBDnEa dn dst) &&& word43333 15#4 0#3 7#3 0#3 0#3 = _
  simp only [encode, encodeEa, word43333_and]
  simp
  rfl

theorem Laws.RowMatch.addWDnEa (dn : RegNum) (dst : Ea) :
    Laws.RowMatch.Statement (.addWDnEa dn dst) := by
  change encode (.addWDnEa dn dst) &&& word43333 15#4 0#3 7#3 0#3 0#3 = _
  simp only [encode, encodeEa, word43333_and]
  simp
  rfl

theorem Laws.RowMatch.addLDnEa (dn : RegNum) (dst : Ea) :
    Laws.RowMatch.Statement (.addLDnEa dn dst) := by
  change encode (.addLDnEa dn dst) &&& word43333 15#4 0#3 7#3 0#3 0#3 = _
  simp only [encode, encodeEa, word43333_and]
  simp
  rfl

theorem Laws.RowMatch.subBEaDn (src : Ea) (dn : RegNum) :
    Laws.RowMatch.Statement (.subBEaDn src dn) := by
  change encode (.subBEaDn src dn) &&& word43333 15#4 0#3 7#3 0#3 0#3 = _
  simp only [encode, encodeEa, word43333_and]
  simp
  rfl

theorem Laws.RowMatch.subWEaDn (src : Ea) (dn : RegNum) :
    Laws.RowMatch.Statement (.subWEaDn src dn) := by
  change encode (.subWEaDn src dn) &&& word43333 15#4 0#3 7#3 0#3 0#3 = _
  simp only [encode, encodeEa, word43333_and]
  simp
  rfl

theorem Laws.RowMatch.subLEaDn (src : Ea) (dn : RegNum) :
    Laws.RowMatch.Statement (.subLEaDn src dn) := by
  change encode (.subLEaDn src dn) &&& word43333 15#4 0#3 7#3 0#3 0#3 = _
  simp only [encode, encodeEa, word43333_and]
  simp
  rfl

theorem Laws.RowMatch.subBDnEa (dn : RegNum) (dst : Ea) :
    Laws.RowMatch.Statement (.subBDnEa dn dst) := by
  change encode (.subBDnEa dn dst) &&& word43333 15#4 0#3 7#3 0#3 0#3 = _
  simp only [encode, encodeEa, word43333_and]
  simp
  rfl

theorem Laws.RowMatch.subWDnEa (dn : RegNum) (dst : Ea) :
    Laws.RowMatch.Statement (.subWDnEa dn dst) := by
  change encode (.subWDnEa dn dst) &&& word43333 15#4 0#3 7#3 0#3 0#3 = _
  simp only [encode, encodeEa, word43333_and]
  simp
  rfl

theorem Laws.RowMatch.subLDnEa (dn : RegNum) (dst : Ea) :
    Laws.RowMatch.Statement (.subLDnEa dn dst) := by
  change encode (.subLDnEa dn dst) &&& word43333 15#4 0#3 7#3 0#3 0#3 = _
  simp only [encode, encodeEa, word43333_and]
  simp
  rfl

theorem Laws.RowMatch.cmpB (src : Ea) (dn : RegNum) :
    Laws.RowMatch.Statement (.cmpB src dn) := by
  change encode (.cmpB src dn) &&& word43333 15#4 0#3 7#3 0#3 0#3 = _
  simp only [encode, encodeEa, word43333_and]
  simp
  rfl

theorem Laws.RowMatch.cmpW (src : Ea) (dn : RegNum) :
    Laws.RowMatch.Statement (.cmpW src dn) := by
  change encode (.cmpW src dn) &&& word43333 15#4 0#3 7#3 0#3 0#3 = _
  simp only [encode, encodeEa, word43333_and]
  simp
  rfl

theorem Laws.RowMatch.cmpL (src : Ea) (dn : RegNum) :
    Laws.RowMatch.Statement (.cmpL src dn) := by
  change encode (.cmpL src dn) &&& word43333 15#4 0#3 7#3 0#3 0#3 = _
  simp only [encode, encodeEa, word43333_and]
  simp
  rfl

theorem Laws.RowMatch.addqB (q : BitVec 3) (dst : Ea) :
    Laws.RowMatch.Statement (.addqB q dst) := by
  change encode (.addqB q dst) &&& word43333 15#4 0#3 7#3 0#3 0#3 = _
  simp only [encode, encodeEa, word43333_and]
  simp
  rfl

theorem Laws.RowMatch.addqW (q : BitVec 3) (dst : Ea) :
    Laws.RowMatch.Statement (.addqW q dst) := by
  change encode (.addqW q dst) &&& word43333 15#4 0#3 7#3 0#3 0#3 = _
  simp only [encode, encodeEa, word43333_and]
  simp
  rfl

theorem Laws.RowMatch.addqL (q : BitVec 3) (dst : Ea) :
    Laws.RowMatch.Statement (.addqL q dst) := by
  change encode (.addqL q dst) &&& word43333 15#4 0#3 7#3 0#3 0#3 = _
  simp only [encode, encodeEa, word43333_and]
  simp
  rfl

theorem Laws.RowMatch.scc (cond : Cond) (dst : Ea) :
    Laws.RowMatch.Statement (.scc cond dst) := by
  change encode (.scc cond dst) &&& word44233 15#4 0#4 3#2 0#3 0#3 = _
  simp only [encode, word44233_and]
  simp
  rfl

theorem Laws.RowMatch.dbcc (cond : Cond) (dn : RegNum) :
    Laws.RowMatch.Statement (.dbcc cond dn) := by
  change encode (.dbcc cond dn) &&& word44233 15#4 0#4 3#2 7#3 0#3 = _
  simp only [encode, word44233_and]
  simp
  rfl

theorem Laws.RowMatch.bra (disp8 : BitVec 8) :
    Laws.RowMatch.Statement (.bra disp8) := by
  change encode (.bra disp8) &&& word448 15#4 15#4 0#8 = _
  simp only [encode, word448_and]
  simp
  rfl

theorem Laws.RowMatch.bsr (disp8 : BitVec 8) :
    Laws.RowMatch.Statement (.bsr disp8) := by
  change encode (.bsr disp8) &&& word448 15#4 15#4 0#8 = _
  simp only [encode, word448_and]
  simp
  rfl

theorem Laws.RowMatch.bcc (cond : Cond) (disp8 : BitVec 8) :
    Laws.RowMatch.Statement (.bcc cond disp8) := by
  change encode (.bcc cond disp8) &&& word448 15#4 0#4 0#8 = _
  simp only [encode, word448_and]
  simp
  rfl

theorem Laws.RowMatch.jmp (dst : Ea) :
    Laws.RowMatch.Statement (.jmp dst) := by
  change encode (.jmp dst) &&& word43333 15#4 7#3 7#3 0#3 0#3 = _
  simp only [encode, encodeEa, word43333_and]
  simp
  rfl

theorem Laws.RowMatch.jsr (dst : Ea) :
    Laws.RowMatch.Statement (.jsr dst) := by
  change encode (.jsr dst) &&& word43333 15#4 7#3 7#3 0#3 0#3 = _
  simp only [encode, encodeEa, word43333_and]
  simp
  rfl

theorem Laws.RowMatch.rts :
    Laws.RowMatch.Statement (.rts) := by
  unfold Laws.RowMatch.Statement
  decide

theorem Laws.RowMatch.rte :
    Laws.RowMatch.Statement (.rte) := by
  unfold Laws.RowMatch.Statement
  decide

theorem Laws.RowMatch.asrB (count : ShiftCount) (dn : RegNum) :
    Laws.RowMatch.Statement (.asrB count dn) := by
  change encode (.asrB count dn) &&& word4312123 15#4 0#3 1#1 3#2 0#1 3#2 0#3 = _
  simp only [encode, encodeShiftReg, word4312123_and]
  simp
  rfl

theorem Laws.RowMatch.asrW (count : ShiftCount) (dn : RegNum) :
    Laws.RowMatch.Statement (.asrW count dn) := by
  change encode (.asrW count dn) &&& word4312123 15#4 0#3 1#1 3#2 0#1 3#2 0#3 = _
  simp only [encode, encodeShiftReg, word4312123_and]
  simp
  rfl

theorem Laws.RowMatch.asrL (count : ShiftCount) (dn : RegNum) :
    Laws.RowMatch.Statement (.asrL count dn) := by
  change encode (.asrL count dn) &&& word4312123 15#4 0#3 1#1 3#2 0#1 3#2 0#3 = _
  simp only [encode, encodeShiftReg, word4312123_and]
  simp
  rfl

theorem Laws.RowMatch.lsrB (count : ShiftCount) (dn : RegNum) :
    Laws.RowMatch.Statement (.lsrB count dn) := by
  change encode (.lsrB count dn) &&& word4312123 15#4 0#3 1#1 3#2 0#1 3#2 0#3 = _
  simp only [encode, encodeShiftReg, word4312123_and]
  simp
  rfl

theorem Laws.RowMatch.lsrW (count : ShiftCount) (dn : RegNum) :
    Laws.RowMatch.Statement (.lsrW count dn) := by
  change encode (.lsrW count dn) &&& word4312123 15#4 0#3 1#1 3#2 0#1 3#2 0#3 = _
  simp only [encode, encodeShiftReg, word4312123_and]
  simp
  rfl

theorem Laws.RowMatch.lsrL (count : ShiftCount) (dn : RegNum) :
    Laws.RowMatch.Statement (.lsrL count dn) := by
  change encode (.lsrL count dn) &&& word4312123 15#4 0#3 1#1 3#2 0#1 3#2 0#3 = _
  simp only [encode, encodeShiftReg, word4312123_and]
  simp
  rfl

theorem Laws.RowMatch.lslB (count : ShiftCount) (dn : RegNum) :
    Laws.RowMatch.Statement (.lslB count dn) := by
  change encode (.lslB count dn) &&& word4312123 15#4 0#3 1#1 3#2 0#1 3#2 0#3 = _
  simp only [encode, encodeShiftReg, word4312123_and]
  simp
  rfl

theorem Laws.RowMatch.lslW (count : ShiftCount) (dn : RegNum) :
    Laws.RowMatch.Statement (.lslW count dn) := by
  change encode (.lslW count dn) &&& word4312123 15#4 0#3 1#1 3#2 0#1 3#2 0#3 = _
  simp only [encode, encodeShiftReg, word4312123_and]
  simp
  rfl

theorem Laws.RowMatch.lslL (count : ShiftCount) (dn : RegNum) :
    Laws.RowMatch.Statement (.lslL count dn) := by
  change encode (.lslL count dn) &&& word4312123 15#4 0#3 1#1 3#2 0#1 3#2 0#3 = _
  simp only [encode, encodeShiftReg, word4312123_and]
  simp
  rfl

theorem Laws.RowMatch.rorB (count : ShiftCount) (dn : RegNum) :
    Laws.RowMatch.Statement (.rorB count dn) := by
  change encode (.rorB count dn) &&& word4312123 15#4 0#3 1#1 3#2 0#1 3#2 0#3 = _
  simp only [encode, encodeShiftReg, word4312123_and]
  simp
  rfl

theorem Laws.RowMatch.rorW (count : ShiftCount) (dn : RegNum) :
    Laws.RowMatch.Statement (.rorW count dn) := by
  change encode (.rorW count dn) &&& word4312123 15#4 0#3 1#1 3#2 0#1 3#2 0#3 = _
  simp only [encode, encodeShiftReg, word4312123_and]
  simp
  rfl

theorem Laws.RowMatch.rorL (count : ShiftCount) (dn : RegNum) :
    Laws.RowMatch.Statement (.rorL count dn) := by
  change encode (.rorL count dn) &&& word4312123 15#4 0#3 1#1 3#2 0#1 3#2 0#3 = _
  simp only [encode, encodeShiftReg, word4312123_and]
  simp
  rfl

theorem Laws.RowMatch.rolB (count : ShiftCount) (dn : RegNum) :
    Laws.RowMatch.Statement (.rolB count dn) := by
  change encode (.rolB count dn) &&& word4312123 15#4 0#3 1#1 3#2 0#1 3#2 0#3 = _
  simp only [encode, encodeShiftReg, word4312123_and]
  simp
  rfl

theorem Laws.RowMatch.rolW (count : ShiftCount) (dn : RegNum) :
    Laws.RowMatch.Statement (.rolW count dn) := by
  change encode (.rolW count dn) &&& word4312123 15#4 0#3 1#1 3#2 0#1 3#2 0#3 = _
  simp only [encode, encodeShiftReg, word4312123_and]
  simp
  rfl

theorem Laws.RowMatch.rolL (count : ShiftCount) (dn : RegNum) :
    Laws.RowMatch.Statement (.rolL count dn) := by
  change encode (.rolL count dn) &&& word4312123 15#4 0#3 1#1 3#2 0#1 3#2 0#3 = _
  simp only [encode, encodeShiftReg, word4312123_and]
  simp
  rfl

theorem Laws.RowMatch.asrMem (dst : Ea) :
    Laws.RowMatch.Statement (.asrMem dst) := by
  change encode (.asrMem dst) &&& word44233 15#4 15#4 3#2 0#3 0#3 = _
  simp only [encode, encodeShiftMem, word44233_and]
  simp
  rfl

theorem Laws.RowMatch.lsrMem (dst : Ea) :
    Laws.RowMatch.Statement (.lsrMem dst) := by
  change encode (.lsrMem dst) &&& word44233 15#4 15#4 3#2 0#3 0#3 = _
  simp only [encode, encodeShiftMem, word44233_and]
  simp
  rfl

theorem Laws.RowMatch.lslMem (dst : Ea) :
    Laws.RowMatch.Statement (.lslMem dst) := by
  change encode (.lslMem dst) &&& word44233 15#4 15#4 3#2 0#3 0#3 = _
  simp only [encode, encodeShiftMem, word44233_and]
  simp
  rfl

theorem Laws.RowMatch.rorMem (dst : Ea) :
    Laws.RowMatch.Statement (.rorMem dst) := by
  change encode (.rorMem dst) &&& word44233 15#4 15#4 3#2 0#3 0#3 = _
  simp only [encode, encodeShiftMem, word44233_and]
  simp
  rfl

theorem Laws.RowMatch.rolMem (dst : Ea) :
    Laws.RowMatch.Statement (.rolMem dst) := by
  change encode (.rolMem dst) &&& word44233 15#4 15#4 3#2 0#3 0#3 = _
  simp only [encode, encodeShiftMem, word44233_and]
  simp
  rfl

theorem Laws.RowMatch.bsetDyn (dn : RegNum) (dst : Ea) :
    Laws.RowMatch.Statement (.bsetDyn dn dst) := by
  change encode (.bsetDyn dn dst) &&& word43333 15#4 0#3 7#3 0#3 0#3 = _
  simp only [encode, encodeEa, word43333_and]
  simp
  rfl

theorem Laws.RowMatch.bclrDyn (dn : RegNum) (dst : Ea) :
    Laws.RowMatch.Statement (.bclrDyn dn dst) := by
  change encode (.bclrDyn dn dst) &&& word43333 15#4 0#3 7#3 0#3 0#3 = _
  simp only [encode, encodeEa, word43333_and]
  simp
  rfl

theorem Laws.RowMatch.bsetStatic (dst : Ea) :
    Laws.RowMatch.Statement (.bsetStatic dst) := by
  change encode (.bsetStatic dst) &&& word43333 15#4 7#3 7#3 0#3 0#3 = _
  simp only [encode, encodeEa, word43333_and]
  simp
  rfl

theorem Laws.RowMatch.bclrStatic (dst : Ea) :
    Laws.RowMatch.Statement (.bclrStatic dst) := by
  change encode (.bclrStatic dst) &&& word43333 15#4 7#3 7#3 0#3 0#3 = _
  simp only [encode, encodeEa, word43333_and]
  simp
  rfl

theorem Laws.RowMatch.trap (vector : BitVec 4) :
    Laws.RowMatch.Statement (.trap vector) := by
  change encode (.trap vector) &&& wordC4 4095#12 0#4 = _
  simp only [encode, wordC4_and]
  simp
  rfl

end Sys2Proof
end

