-- ==== Sys2Proof/Laws/Step.lean ====
section
/-! SUPPORT. What one step can do: its opcode fetch, the collaborators' calls, and the relations that every step keeps. -/

namespace Sys2Proof.Machine

/-! ### The opcode fetch -/

/-- An accepted opcode fetch is the one request of the step so far (30_encoding.md R86). -/
theorem fetchOpcode_ok {s : State} (h : s.readable s.programFc s.pc .w = true) :
    fetchOpcode s = .ok ((s.load s.pc .w).setWidth 16) (s.withBus [.get s.programFc s.pc .w]) := by
  have hz : (s.withBus []).codeAddr 0 = s.pc := by simp [State.codeAddr]
  have hf : fetch 0 .w (s.withBus []) = .ok (s.load s.pc .w) (s.withBus [.get s.programFc s.pc .w]) := by
    have := fetch_ok (off := 0) (sz := .w) (s := s.withBus []) (by rw [hz]; simpa using h)
    rw [hz] at this
    simpa using this
  unfold fetchOpcode
  rw [bind_ok (modifies_run _ _), bind_ok hf, pure_run]

/-- A rejected opcode fetch (60_exceptions.md R273). -/
theorem fetchOpcode_rejected {s : State} (h : s.granted s.programFc .read s.pc .w = false) :
    fetchOpcode s = .error (.busError s.pc s.programFc .read) (s.withBus [.get s.programFc s.pc .w]) := by
  have hz : s.pc + BitVec.ofNat 32 0 = s.pc := by simp
  have hf : fetch 0 .w (s.withBus []) =
      .error (.busError s.pc s.programFc .read) (s.withBus [.get s.programFc s.pc .w]) := by
    unfold fetch
    rw [State.withBus_pc, hz, State.withBus_programFc, memRead_rejected (by simpa using h)]
    simp
  unfold fetchOpcode
  rw [bind_ok (modifies_run _ _), bind_error hf]

/-- The opcode fetch keeps the dispatch table. -/
theorem fetchOpcode_installed {s u : State} {op : Half} (h : fetchOpcode s = .ok op u) : u.installed = s.installed := by
  have hk : Keeps (fun a b : State => b.installed = a.installed) fetchOpcode :=
    Keeps.bind (fun _ _ _ h1 h2 => h2.trans h1) (Keeps.modifies fun _ => rfl) fun _ =>
      Keeps.bind (fun _ _ _ h1 h2 => h2.trans h1)
        (fun s => memRead_keeps (R := fun a b : State => b.installed = a.installed) (fun _ _ _ => rfl) _ _ _ s)
        fun _ _ => rfl
  have := hk s
  rwa [h] at this

/-- What a step's next state comes from. -/
theorem step_next {s t : State} (h : step s = .next t) :
    ∃ op u, fetchOpcode s = .ok op u ∧ dispatchOpcode exec op u = .next t := by
  unfold step at h
  split at h
  · exact ⟨_, _, ‹_›, h⟩
  · cases h

theorem KeepsBasics.fetchOpcode {R : State → State → Prop} (h : KeepsBasics R) : Keeps R fetchOpcode :=
  h.bind (Keeps.modifies fun s => h.bus s [] s.draws) fun _ => h.bind (h.fetch _ _) fun _ => h.pure _

theorem RelatesBasics.fetchOpcode {R : State → State → Prop} (h : RelatesBasics R) : Relates R fetchOpcode :=
  Relates.bind (Relates.modifies fun _ _ hr => h.withBus _ _ _ hr) fun _ =>
    Relates.bind (h.fetch _ _) fun _ => Relates.pure _

/-! ### From the state before to the state after -/

/-- A relation closed under everything a step is made of, the collaborators' accesses among it. -/
structure KeepsAll (R : State → State → Prop) : Prop extends KeepsBasics R where
  setSupervisorState : ∀ b s, R s (s.setSupervisorState b)
  uspShadow : ∀ v s, R s (s.withUspShadow v)
  sspShadow : ∀ v s, R s (s.withSspShadow v)
  irqPending : ∀ b s, R s (s.withIrqPending b)
  collabIn : ∀ c s, R s (s.withCollabIn c)

theorem attempt_keeps {R : State → State → Prop} {α : Type} {x : Exec α} (h : Keeps R x) (s : State) :
    R s (attempt x s) := by
  have hk := h s
  unfold attempt
  cases hx : x s <;> rw [hx] at hk <;> exact hk

namespace KeepsAll

variable {R : State → State → Prop} (h : KeepsAll R)
include h

theorem setSr (v : Half) (s : State) : R s (setSr v s) :=
  h.trans _ _ _ (h.toKeepsBasics.setBoth _ s) (h.setSupervisorState _ _)

theorem applyAction (a : HostAction) (s : State) : R s (applyAction a s) := by
  cases a
  · exact h.writeD _ _ _
  · exact h.writeA _ _ _
  · exact h.pc _ _
  · exact h.setSupervisorState _ _
  · exact h.setSr _ _
  · exact h.cc _ _
  · exact h.xsrc _ _
  · exact h.uspShadow _ _
  · exact h.sspShadow _ _
  · exact h.irqPending _ _
  · exact attempt_keeps (h.toKeepsBasics.memRead _ _ _) _
  · exact attempt_keeps (h.toKeepsBasics.memWrite _ _ _ _) _
  · exact attempt_keeps (h.toKeepsBasics.fetch _ _) _

/-- Whatever a handler does and however it returns. -/
theorem runProgram (p : CollabProgram) : Keeps R (runProgram p) := by
  induction p with
  | ret outcome =>
    cases outcome with
    | none => exact h.pure ()
    | some e => exact Keeps.raise h.refl e
  | look next ih => exact fun s => ih s.view s
  | act a next ih => exact fun s => h.trans _ _ _ (h.applyAction a s) (ih _ _)

theorem runCollab {p : Installation} {op : Half} {s t : State} (hrun : runCollab p op s = .next t) : R s t := by
  unfold Machine.runCollab callCollab at hrun
  cases hres : nextProgram p.handler op p.aux s with
  | mk q w =>
    have hw : R s w := by
      unfold nextProgram at hres
      split at hres
      · cases hres
        exact h.collabIn _ _
      · cases hres
        exact h.toKeepsBasics.draws _ _
    have hq := h.runProgram q w
    simp only [hres] at hrun
    cases hx : Machine.runProgram q w with
    | ok a u =>
      rw [hx] at hq
      simp only [hx, outcomeOf, Host.Outcome.next.injEq] at hrun
      rw [← hrun]
      exact h.trans _ _ _ hw hq
    | error e u => simp [hx, outcomeOf] at hrun

/-- Every instruction of the table. -/
theorem exec {i : Instr} {s t : State} (hrun : exec i s = .next t) : R s t := by
  by_cases ht : ∃ n, i = .trap n
  · obtain ⟨n, rfl⟩ := ht
    simp only [Machine.exec, execTrap] at hrun
    split at hrun
    · exact h.runCollab hrun
    · cases hrun
  · exact h.toKeepsBasics.exec_all h.setSr hrun fun n hn => ht ⟨n, hn⟩

/-- Every step. -/
theorem step {s t : State} (hst : step s = .next t) : R s t := by
  obtain ⟨op, u, hf, hd⟩ := step_next hst
  have hu := h.toKeepsBasics.fetchOpcode s
  rw [hf] at hu
  refine h.trans _ _ _ hu ?_
  unfold dispatchOpcode at hd
  split at hd
  · exact h.runCollab hd
  · split at hd
    · exact h.exec hd
    · cases hd

end KeepsAll

/-! ### Two runs side by side -/

theorem attempt_relates {R : State → State → Prop} {α : Type} {x : Exec α} (h : Relates R x) {s t : State}
    (hr : R s t) : answer x s = answer x t ∧ R (attempt x s) (attempt x t) := by
  have hx := h s t hr
  unfold answer attempt
  cases hs : x s <;> cases ht : x t <;> simp only [hs, ht, SameResult] at hx ⊢
  · exact ⟨congrArg some hx.1, hx.2⟩
  · exact ⟨trivial, hx.2⟩

namespace RelatesBasics

variable {R : State → State → Prop} (h : RelatesBasics R)
include h

theorem pc_eq {s t : State} (hr : R s t) : t.pc = s.pc := by rw [(h.agree s t hr).eq]; simp

theorem programFc_eq {s t : State} (hr : R s t) : t.programFc = s.programFc := by rw [(h.agree s t hr).eq]; simp

theorem collabIn_eq {s t : State} (hr : R s t) : t.collabIn = s.collabIn := by rw [(h.agree s t hr).eq]; simp

theorem installed_eq {s t : State} (hr : R s t) : t.installed = s.installed := by rw [(h.agree s t hr).eq]; simp

theorem draws_eq {s t : State} (hr : R s t) : t.draws = s.draws := by rw [(h.agree s t hr).eq]; simp

theorem withDraws {s t : State} (k : Nat) (hr : R s t) : R (s.withDraws k) (t.withDraws k) := by
  have hb : t.bus = s.bus := by rw [(h.agree s t hr).eq]; simp
  have hk := h.bus _ _ s.bus k hr
  rw [show (s.withBus s.bus).withDraws k = s.withDraws k from rfl, ← hb] at hk
  exact hk

/-- The same stop of steps that began at one pc, in related contexts. -/
theorem fault (op : Option Half) (pc : Word) (e : Stop) {s t : State} (hr : R s t) :
    RelOutcome R (.fault (faultOf op pc s e)) (.fault (faultOf op pc t e)) := by
  refine ⟨?_, by simpa using hr⟩
  cases e <;> simp [faultOf, diagnosticOf, h.programFc_eq hr]

/-- Meanings that agree, as outcomes of steps that began at one pc. -/
theorem outcome (op : Option Half) (pc : Word) {x : Exec Unit} (hx : Relates R x) {s t : State} (hr : R s t) :
    RelOutcome R (outcomeOf op pc (x s)) (outcomeOf op pc (x t)) := by
  have hs := hx s t hr
  cases h1 : x s <;> cases h2 : x t <;> simp only [h1, h2, SameResult] at hs
  · exact hs.2
  · obtain ⟨rfl, hs⟩ := hs
    exact h.fault _ _ _ hs

theorem runIllegal (op : Half) {s t : State} (hr : R s t) : RelOutcome R (runIllegal op s) (runIllegal op t) := by
  unfold Machine.runIllegal
  rw [h.pc_eq hr]
  exact h.outcome _ _ (Relates.raise _) hr

/-- Every instruction of the table, where the handlers installed agree. -/
theorem exec_of {s t : State} (hr : R s t) (i : Instr)
    (hc : ∀ p op, p ∈ s.installed → RelOutcome R (runCollab p op s) (runCollab p op t)) :
    RelOutcome R (Machine.exec i s) (Machine.exec i t) := by
  by_cases ht : ∃ n, i = .trap n
  · obtain ⟨n, rfl⟩ := ht
    simp only [Machine.exec, execTrap, h.installed_eq hr]
    split
    · next hp => exact hc _ _ (List.mem_of_find?_eq_some hp)
    · exact h.runIllegal _ hr
  · exact h.exec hr fun n hn => ht ⟨n, hn⟩

/-- Every step, where the handlers installed agree. -/
theorem step_of {s t : State} (hr : R s t)
    (hc : ∀ p op u v, R u v → p ∈ s.installed → RelOutcome R (runCollab p op u) (runCollab p op v)) :
    RelOutcome R (step s) (step t) := by
  have hs := h.fetchOpcode s t hr
  unfold Machine.step
  cases hs1 : Machine.fetchOpcode s <;> cases ht1 : Machine.fetchOpcode t <;> simp only [hs1, ht1, SameResult] at hs
  · obtain ⟨rfl, hs⟩ := hs
    rw [← fetchOpcode_installed hs1] at hc
    simp only [dispatchOpcode, h.installed_eq hs]
    split
    · next hp => exact hc _ _ _ _ hs (List.mem_of_find?_eq_some hp)
    · split
      · exact h.exec_of hs _ fun p op hp => hc p op _ _ hs hp
      · exact h.runIllegal _ hs
  · obtain ⟨rfl, hs⟩ := hs
    rw [h.pc_eq hr]
    exact h.fault _ _ _ hs

end RelatesBasics

/-- A relation between two states closed under everything a step is made of, in which a handler reads the same context. -/
structure RelatesAll (R : State → State → Prop) : Prop extends RelatesBasics R where
  view : ∀ s t, R s t → t.view = s.view
  uspShadow : ∀ s t v, R s t → R (s.withUspShadow v) (t.withUspShadow v)
  sspShadow : ∀ s t v, R s t → R (s.withSspShadow v) (t.withSspShadow v)
  irqPending : ∀ s t b, R s t → R (s.withIrqPending b) (t.withIrqPending b)
  collabIn : ∀ s t c, R s t → R (s.withCollabIn c) (t.withCollabIn c)

namespace RelatesAll

variable {R : State → State → Prop} (h : RelatesAll R)
include h

/-- One access: the same answer, in related states. -/
theorem applyAction (a : HostAction) {s t : State} (hr : R s t) :
    actionAnswer a s = actionAnswer a t ∧ R (applyAction a s) (applyAction a t) := by
  cases a
  · exact ⟨rfl, h.writeD _ _ _ _ hr⟩
  · exact ⟨rfl, h.writeA _ _ _ _ hr⟩
  · exact ⟨rfl, h.pc _ _ _ hr⟩
  · exact ⟨rfl, h.sup _ _ _ hr⟩
  · exact ⟨rfl, h.sup _ _ _ (h.toRelatesBasics.setBoth _ _ _ hr)⟩
  · exact ⟨rfl, h.cc _ _ _ hr⟩
  · exact ⟨rfl, h.xsrc _ _ _ hr⟩
  · exact ⟨rfl, h.uspShadow _ _ _ hr⟩
  · exact ⟨rfl, h.sspShadow _ _ _ hr⟩
  · exact ⟨rfl, h.irqPending _ _ _ hr⟩
  · exact attempt_relates (h.toRelatesBasics.memRead _ _ _) hr
  · next fc addr sz v =>
    have hw := attempt_relates (h.toRelatesBasics.memWrite fc addr sz v) hr
    exact ⟨congrArg (Option.map fun _ => 0) hw.1, hw.2⟩
  · exact attempt_relates (h.toRelatesBasics.fetch _ _) hr

/-- A handler that reads the same context and gets the same answers does the same. -/
theorem runProgram (p : CollabProgram) : Relates R (runProgram p) := by
  induction p with
  | ret outcome =>
    cases outcome with
    | none => exact Relates.pure ()
    | some e => exact Relates.raise e
  | look next ih =>
    intro s t hr
    have hv := ih s.view s t hr
    show SameResult R (Machine.runProgram (next s.view) s) (Machine.runProgram (next t.view) t)
    rwa [h.view s t hr]
  | act a next ih =>
    intro s t hr
    obtain ⟨he, ha⟩ := h.applyAction a hr
    simp only [Machine.runProgram, ← he]
    exact ih _ _ _ ha

theorem runCollab (p : Installation) (op : Half) {s t : State} (hr : R s t) :
    RelOutcome R (runCollab p op s) (runCollab p op t) := by
  unfold Machine.runCollab callCollab nextProgram
  rw [h.collabIn_eq hr, h.draws_eq hr, h.pc_eq hr]
  cases s.collabIn with
  | nil => exact h.outcome _ _ (h.runProgram _) (h.withDraws _ hr)
  | cons r rest => exact h.outcome _ _ (h.runProgram _) (h.collabIn _ _ _ hr)

/-- Every instruction of the table. -/
theorem exec (i : Instr) {s t : State} (hr : R s t) : RelOutcome R (exec i s) (exec i t) :=
  h.exec_of hr i fun p op _ => h.runCollab p op hr

/-- Every step. -/
theorem step {s t : State} (hr : R s t) : RelOutcome R (step s) (step t) :=
  h.step_of hr fun p op _ _ hr _ => h.runCollab p op hr

end RelatesAll

/-- Every step where no collaborator is installed. -/
theorem RelatesBasics.step_uninstalled {R : State → State → Prop} (h : RelatesBasics R) {s t : State} (hr : R s t)
    (hi : s.installed = []) : RelOutcome R (step s) (step t) :=
  h.step_of hr fun p _ _ _ _ hp => by simp [hi] at hp

end Sys2Proof.Machine
end

