-- ==== Sys2Proof/Machine/Assembly.lean ====
section
/-! DEFINITION. The assembler text of an instruction (30_encoding.md R108, R109). No execution reads it. -/

namespace Sys2Proof.Machine

/-- A condition's letters (R108, 40_datapath.md R150). -/
def condText : Cond → String
  | .t => "T"
  | .f => "F"
  | .hi => "HI"
  | .ls => "LS"
  | .cc => "CC"
  | .cs => "CS"
  | .ne => "NE"
  | .eq => "EQ"
  | .vc => "VC"
  | .vs => "VS"
  | .pl => "PL"
  | .mi => "MI"
  | .ge => "GE"
  | .lt => "LT"
  | .gt => "GT"
  | .le => "LE"

/-- The mnemonic with its size suffix, omitted where the instruction has one size (R108). -/
def mnemonicText : Instr → String
  | .moveB _ _ => "MOVE.B"
  | .moveL _ _ => "MOVE.L"
  | .moveW _ _ => "MOVE.W"
  | .moveaL _ _ => "MOVEA.L"
  | .moveaW _ _ => "MOVEA.W"
  | .moveq _ _ => "MOVEQ"
  | .moveFromSr _ => "MOVE"
  | .moveToSr _ => "MOVE"
  | .addBEaDn _ _ => "ADD.B"
  | .addWEaDn _ _ => "ADD.W"
  | .addLEaDn _ _ => "ADD.L"
  | .addBDnEa _ _ => "ADD.B"
  | .addWDnEa _ _ => "ADD.W"
  | .addLDnEa _ _ => "ADD.L"
  | .subBEaDn _ _ => "SUB.B"
  | .subWEaDn _ _ => "SUB.W"
  | .subLEaDn _ _ => "SUB.L"
  | .subBDnEa _ _ => "SUB.B"
  | .subWDnEa _ _ => "SUB.W"
  | .subLDnEa _ _ => "SUB.L"
  | .cmpB _ _ => "CMP.B"
  | .cmpW _ _ => "CMP.W"
  | .cmpL _ _ => "CMP.L"
  | .addqB _ _ => "ADDQ.B"
  | .addqW _ _ => "ADDQ.W"
  | .addqL _ _ => "ADDQ.L"
  | .scc cond _ => "S" ++ condText cond
  | .dbcc cond _ => "DB" ++ condText cond
  | .bra _ => "BRA"
  | .bsr _ => "BSR"
  | .bcc cond _ => "B" ++ condText cond
  | .jmp _ => "JMP"
  | .jsr _ => "JSR"
  | .rts => "RTS"
  | .rte => "RTE"
  | .asrB _ _ => "ASR.B"
  | .asrW _ _ => "ASR.W"
  | .asrL _ _ => "ASR.L"
  | .lsrB _ _ => "LSR.B"
  | .lsrW _ _ => "LSR.W"
  | .lsrL _ _ => "LSR.L"
  | .lslB _ _ => "LSL.B"
  | .lslW _ _ => "LSL.W"
  | .lslL _ _ => "LSL.L"
  | .rorB _ _ => "ROR.B"
  | .rorW _ _ => "ROR.W"
  | .rorL _ _ => "ROR.L"
  | .rolB _ _ => "ROL.B"
  | .rolW _ _ => "ROL.W"
  | .rolL _ _ => "ROL.L"
  | .asrMem _ => "ASR"
  | .lsrMem _ => "LSR"
  | .lslMem _ => "LSL"
  | .rorMem _ => "ROR"
  | .rolMem _ => "ROL"
  | .bsetDyn _ _ => "BSET"
  | .bclrDyn _ _ => "BCLR"
  | .bsetStatic _ => "BSET"
  | .bclrStatic _ => "BCLR"
  | .trap _ => "TRAP"

/-- `$` before the hexadecimal digits (R108). -/
def hexText (n : Nat) : String := "$" ++ String.ofList (Nat.toDigits 16 n)

/-- A displacement, with its sign. -/
def signedText (v : Word) : String := if v.msb then "-" ++ hexText (-v).toNat else hexText v.toNat

/-- `Dn`. -/
def dText (n : RegNum) : String := "D" ++ toString n.toNat

/-- `An`. -/
def aText (n : RegNum) : String := "A" ++ toString n.toNat

/-- The index register of an index extension word, `Xn.W` or `Xn.L` (R92, R108). -/
def indexText (ext : Word) : String :=
  let k := ext.extractLsb' 12 4
  let x := if k.getLsbD 3 then aText (k.setWidth 3) else dText (k.setWidth 3)
  x ++ if ext.getLsbD 11 then ".L" else ".W"

/-- A memory operand with its extension word, in the syntax column of R89. -/
def memText (m : MemMode) (ext : Word) : String :=
  match m with
  | .ind n => "(" ++ aText n ++ ")"
  | .postInc n => "(" ++ aText n ++ ")+"
  | .preDec n => "-(" ++ aText n ++ ")"
  | .disp n => signedText (sext16 ext) ++ "(" ++ aText n ++ ")"
  | .index n => signedText (sext8 ext) ++ "(" ++ aText n ++ "," ++ indexText ext ++ ")"
  | .absW => hexText (ext.toNat % 65536) ++ ".W"
  | .absL => hexText ext.toNat ++ ".L"
  | .pcDisp => signedText (sext16 ext) ++ "(PC)"
  | .pcIndex => signedText (sext8 ext) ++ "(PC," ++ indexText ext ++ ")"

/-- An operand with its extension word or long word. -/
def eaText (e : Ea) (sz : Size) (ext : Word) : String :=
  match e with
  | .dn n => dText n
  | .an n => aText n
  | .mem m => memText m ext
  | .imm => "#" ++ hexText (ext &&& mask sz).toNat

/-- Quick data (R97). -/
def quickText (q : BitVec 3) : String := "#" ++ toString (if q = 0#3 then 8 else q.toNat)

/-- A shift's count operand (R98). -/
def countText : ShiftCount → String
  | .imm q => quickText q
  | .reg n => dText n

/-- A branch's displacement from the word after the opcode, `.S` or `.W` by its form (R96, R108). -/
def branchText (disp8 : BitVec 8) (ext : Word) : String × String :=
  if disp8 = 0#8 then (".W", signedText (sext16 ext)) else (".S", signedText (disp8.signExtend 32))

/-- The text of an instruction with its extension words: `e1` of its first operand with one (or its own), `e2` of
its second. -/
def instrText (i : Instr) (e1 e2 : Word) : String :=
  let m := mnemonicText i ++ " "
  match i with
  | .moveB src dst => m ++ eaText src .b e1 ++ "," ++ eaText dst .b e2
  | .moveL src dst => m ++ eaText src .l e1 ++ "," ++ eaText dst .l e2
  | .moveW src dst => m ++ eaText src .w e1 ++ "," ++ eaText dst .w e2
  | .moveaL src an => m ++ eaText src .l e1 ++ "," ++ aText an
  | .moveaW src an => m ++ eaText src .w e1 ++ "," ++ aText an
  | .moveq dn data => m ++ "#" ++ signedText (data.signExtend 32) ++ "," ++ dText dn
  | .moveFromSr dst => m ++ "SR," ++ eaText dst .w e1
  | .moveToSr src => m ++ eaText src .w e1 ++ ",SR"
  | .addBEaDn src dn => m ++ eaText src .b e1 ++ "," ++ dText dn
  | .addWEaDn src dn => m ++ eaText src .w e1 ++ "," ++ dText dn
  | .addLEaDn src dn => m ++ eaText src .l e1 ++ "," ++ dText dn
  | .addBDnEa dn dst => m ++ dText dn ++ "," ++ eaText dst .b e1
  | .addWDnEa dn dst => m ++ dText dn ++ "," ++ eaText dst .w e1
  | .addLDnEa dn dst => m ++ dText dn ++ "," ++ eaText dst .l e1
  | .subBEaDn src dn => m ++ eaText src .b e1 ++ "," ++ dText dn
  | .subWEaDn src dn => m ++ eaText src .w e1 ++ "," ++ dText dn
  | .subLEaDn src dn => m ++ eaText src .l e1 ++ "," ++ dText dn
  | .subBDnEa dn dst => m ++ dText dn ++ "," ++ eaText dst .b e1
  | .subWDnEa dn dst => m ++ dText dn ++ "," ++ eaText dst .w e1
  | .subLDnEa dn dst => m ++ dText dn ++ "," ++ eaText dst .l e1
  | .cmpB src dn => m ++ eaText src .b e1 ++ "," ++ dText dn
  | .cmpW src dn => m ++ eaText src .w e1 ++ "," ++ dText dn
  | .cmpL src dn => m ++ eaText src .l e1 ++ "," ++ dText dn
  | .addqB q dst => m ++ quickText q ++ "," ++ eaText dst .b e1
  | .addqW q dst => m ++ quickText q ++ "," ++ eaText dst .w e1
  | .addqL q dst => m ++ quickText q ++ "," ++ eaText dst .l e1
  | .scc _ dst => m ++ eaText dst .b e1
  | .dbcc _ dn => m ++ dText dn ++ "," ++ signedText (sext16 e1)
  | .bra disp8 => mnemonicText i ++ (branchText disp8 e1).1 ++ " " ++ (branchText disp8 e1).2
  | .bsr disp8 => mnemonicText i ++ (branchText disp8 e1).1 ++ " " ++ (branchText disp8 e1).2
  | .bcc _ disp8 => mnemonicText i ++ (branchText disp8 e1).1 ++ " " ++ (branchText disp8 e1).2
  | .jmp dst => m ++ eaText dst .l e1
  | .jsr dst => m ++ eaText dst .l e1
  | .rts => mnemonicText i
  | .rte => mnemonicText i
  | .asrB count dn => m ++ countText count ++ "," ++ dText dn
  | .asrW count dn => m ++ countText count ++ "," ++ dText dn
  | .asrL count dn => m ++ countText count ++ "," ++ dText dn
  | .lsrB count dn => m ++ countText count ++ "," ++ dText dn
  | .lsrW count dn => m ++ countText count ++ "," ++ dText dn
  | .lsrL count dn => m ++ countText count ++ "," ++ dText dn
  | .lslB count dn => m ++ countText count ++ "," ++ dText dn
  | .lslW count dn => m ++ countText count ++ "," ++ dText dn
  | .lslL count dn => m ++ countText count ++ "," ++ dText dn
  | .rorB count dn => m ++ countText count ++ "," ++ dText dn
  | .rorW count dn => m ++ countText count ++ "," ++ dText dn
  | .rorL count dn => m ++ countText count ++ "," ++ dText dn
  | .rolB count dn => m ++ countText count ++ "," ++ dText dn
  | .rolW count dn => m ++ countText count ++ "," ++ dText dn
  | .rolL count dn => m ++ countText count ++ "," ++ dText dn
  | .asrMem dst => m ++ eaText dst .w e1
  | .lsrMem dst => m ++ eaText dst .w e1
  | .lslMem dst => m ++ eaText dst .w e1
  | .rorMem dst => m ++ eaText dst .w e1
  | .rolMem dst => m ++ eaText dst .w e1
  | .bsetDyn dn dst => m ++ dText dn ++ "," ++ eaText dst .b e1
  | .bclrDyn dn dst => m ++ dText dn ++ "," ++ eaText dst .b e1
  | .bsetStatic dst => m ++ "#" ++ toString (e1.toNat % 256) ++ "," ++ eaText dst .b e2
  | .bclrStatic dst => m ++ "#" ++ toString (e1.toNat % 256) ++ "," ++ eaText dst .b e2
  | .trap vector => m ++ "#" ++ toString vector.toNat

/-- The second spellings: the condition letters and mnemonics that stand for others (R109). -/
def condAlias (text : String) : Option Cond :=
  if text = "HS" then some .cc else if text = "LO" then some .cs else none

/-- `DBRA` is `DBF`, and, where the destination is An, `MOVE.x` is `MOVEA.x` (R109). -/
def mnemonicAlias (text : String) : Option String :=
  if text = "DBRA" then some "DBF"
  else if text = "MOVE.W" then some "MOVEA.W"
  else if text = "MOVE.L" then some "MOVEA.L"
  else none

end Sys2Proof.Machine
end

