-- ==== Sys2Proof/Tests/Slice0.lean ====
section
/-! SUPPORT. The model's own tests: the constraints refuse ill-formed terms, words written out from the formats of
30_encoding.md decode, single steps give the values of 95_test_vectors.md, and for each statement with hypotheses a state
and operands that meet them. -/

namespace Sys2Proof.Tests

-- One test after another: with a thread for each, their stacks pass the memory limit.
set_option Elab.async false

open Sys2Proof Sys2Proof.Machine

/-! ### Helpers -/

/-- Words in memory order at the pc. -/
def code (ws : List Nat) (s : State) : State :=
  pokeBytes (ws.flatMap fun w => [BitVec.ofNat 8 (w / 256), BitVec.ofNat 8 (w % 256)]) s.pc s

/-- The step goes on, to a state of which the check holds. -/
def goes (s : State) (f : State → Bool) : Bool :=
  match step s with
  | .next t => f t
  | _ => false

/-- The step ends in a fault of which the check holds. -/
def faults (s : State) (f : Fault → Bool) : Bool :=
  match step s with
  | .fault e => f e
  | _ => false

/-- The five flags X N Z V C as a number. -/
def xnzvc (s : State) : Nat := packFlags s.flags

/-- The five flags X N Z V C set. -/
def setXnzvc (n : Nat) (s : State) : State := setBoth (literalRecord (BitVec.ofNat 5 n)) s

/-- A state in user state with its own stack pointers. -/
def userState : State := (((State.reset.writeA 7 0x8000#32).withUspShadow 0x6000#32).setSupervisorState false)

/-- A state whose supervisor stack pointer is 0x8000. -/
def stacked : State := State.reset.writeA 7 0x8000#32

/-- Writes with the supervisor data code to these addresses are rejected. -/
def protect (a n : Nat) (s : State) : State := { s with regions := [⟨a, n, [], [.supervisorData, .userData], false⟩] }

/-- A long word in memory. -/
def withLong (a v : Nat) (s : State) : State := s.store (BitVec.ofNat 32 a) .l (BitVec.ofNat 32 v)

/-- A word in memory. -/
def withWord (a v : Nat) (s : State) : State := s.store (BitVec.ofNat 32 a) .w (BitVec.ofNat 32 v)

/-- A byte in memory. -/
def withByte (a v : Nat) (s : State) : State := s.store (BitVec.ofNat 32 a) .b (BitVec.ofNat 32 v)

/-! ### Well-formedness: one ill-formed term for each constraint, refused -/

theorem test_illformed_moveB_source : (Instr.moveB (.an 0) (.dn 0)).wf = false := by decide

theorem test_illformed_moveB_destination : (Instr.moveB (.dn 0) .imm).wf = false := by decide

theorem test_illformed_moveL_destination : (Instr.moveL (.dn 0) (.an 0)).wf = false := by decide

theorem test_illformed_moveW_destination : (Instr.moveW (.dn 0) (.mem .pcDisp)).wf = false := by decide

theorem test_illformed_moveFromSr : (Instr.moveFromSr (.an 0)).wf = false := by decide

theorem test_illformed_moveToSr : (Instr.moveToSr (.an 0)).wf = false := by decide

theorem test_illformed_addBEaDn : (Instr.addBEaDn (.an 0) 0).wf = false := by decide

theorem test_illformed_addBDnEa : (Instr.addBDnEa 0 (.dn 0)).wf = false := by decide

theorem test_illformed_addWDnEa : (Instr.addWDnEa 0 (.an 0)).wf = false := by decide

theorem test_illformed_addLDnEa : (Instr.addLDnEa 0 .imm).wf = false := by decide

theorem test_illformed_subBEaDn : (Instr.subBEaDn (.an 0) 0).wf = false := by decide

theorem test_illformed_subBDnEa : (Instr.subBDnEa 0 (.dn 0)).wf = false := by decide

theorem test_illformed_subWDnEa : (Instr.subWDnEa 0 (.an 0)).wf = false := by decide

theorem test_illformed_subLDnEa : (Instr.subLDnEa 0 (.mem .pcIndex)).wf = false := by decide

theorem test_illformed_cmpB : (Instr.cmpB (.an 0) 0).wf = false := by decide

theorem test_illformed_addqB : (Instr.addqB 1 (.an 0)).wf = false := by decide

theorem test_illformed_addqW : (Instr.addqW 1 .imm).wf = false := by decide

theorem test_illformed_addqL : (Instr.addqL 1 (.mem .pcDisp)).wf = false := by decide

theorem test_illformed_scc : (Instr.scc .eq (.an 0)).wf = false := by decide

theorem test_illformed_bcc_true : (Instr.bcc .t 2).wf = false := by decide

theorem test_illformed_bcc_false : (Instr.bcc .f 2).wf = false := by decide

theorem test_illformed_jmp : (Instr.jmp (.mem (.postInc 0))).wf = false := by decide

theorem test_illformed_jmp_direct : (Instr.jmp (.dn 0)).wf = false := by decide

theorem test_illformed_jsr : (Instr.jsr (.mem (.preDec 7))).wf = false := by decide

theorem test_illformed_jsr_immediate : (Instr.jsr .imm).wf = false := by decide

theorem test_illformed_asrMem : (Instr.asrMem (.dn 0)).wf = false := by decide

theorem test_illformed_lsrMem : (Instr.lsrMem (.an 0)).wf = false := by decide

theorem test_illformed_lslMem : (Instr.lslMem .imm).wf = false := by decide

theorem test_illformed_rorMem : (Instr.rorMem (.mem .pcDisp)).wf = false := by decide

theorem test_illformed_rolMem : (Instr.rolMem (.dn 7)).wf = false := by decide

theorem test_illformed_bsetDyn : (Instr.bsetDyn 0 (.an 0)).wf = false := by decide

theorem test_illformed_bclrDyn : (Instr.bclrDyn 0 .imm).wf = false := by decide

theorem test_illformed_bsetStatic : (Instr.bsetStatic (.an 0)).wf = false := by decide

theorem test_illformed_bclrStatic : (Instr.bclrStatic (.mem .pcIndex)).wf = false := by decide

/-- A term that is not well-formed is an illegal word when it is run. -/
theorem test_illformed_runs : exec (.moveB (.an 0) (.dn 0)) State.reset =
    .fault (.illegalInstruction 0x1008#16 0x1000#32 State.reset) := by rfl

/-! ### Decoding: words written out from the formats, fields separated -/

/-- F-MOVE. -/
theorem test_decode_moveB : decodeOp 0b00_01_101_101_111_100#16 = some (.moveB .imm (.mem (.disp 5))) := by decide +kernel

/-- F-MOVE. -/
theorem test_decode_moveL : decodeOp 0b00_10_001_111_001_011#16 = some (.moveL (.an 3) (.mem .absL)) := by decide +kernel

/-- F-MOVE. -/
theorem test_decode_moveW : decodeOp 0b00_11_111_100_111_011#16 = some (.moveW (.mem .pcIndex) (.mem (.preDec 7))) := by decide +kernel

/-- F-MOVE. -/
theorem test_decode_moveaL : decodeOp 0b00_10_101_001_111_000#16 = some (.moveaL (.mem .absW) 5) := by decide +kernel

/-- F-MOVE. -/
theorem test_decode_moveaW : decodeOp 0b00_11_101_001_111_100#16 = some (.moveaW .imm 5) := by decide +kernel

/-- F-MOVEQ. -/
theorem test_decode_moveq : decodeOp 0b0111_110_0_10000001#16 = some (.moveq 6 0x81) := by decide +kernel

/-- F-EA. -/
theorem test_decode_moveFromSr : decodeOp 0b0100000011_110_110#16 = some (.moveFromSr (.mem (.index 6))) := by decide +kernel

/-- F-EA. -/
theorem test_decode_moveToSr : decodeOp 0b0100011011_011_010#16 = some (.moveToSr (.mem (.postInc 2))) := by decide +kernel

/-- F-REG-OPMODE-EA. -/
theorem test_decode_addBEaDn : decodeOp 0b1101_110_000_111_100#16 = some (.addBEaDn .imm 6) := by decide +kernel

/-- F-REG-OPMODE-EA. -/
theorem test_decode_addWEaDn : decodeOp 0b1101_110_001_001_011#16 = some (.addWEaDn (.an 3) 6) := by decide +kernel

/-- F-REG-OPMODE-EA. -/
theorem test_decode_addLEaDn : decodeOp 0b1101_110_010_111_010#16 = some (.addLEaDn (.mem .pcDisp) 6) := by decide +kernel

/-- F-REG-OPMODE-EA. -/
theorem test_decode_addBDnEa : decodeOp 0b1101_011_100_011_010#16 = some (.addBDnEa 3 (.mem (.postInc 2))) := by decide +kernel

/-- F-REG-OPMODE-EA. -/
theorem test_decode_addWDnEa : decodeOp 0b1101_011_101_100_111#16 = some (.addWDnEa 3 (.mem (.preDec 7))) := by decide +kernel

/-- F-REG-OPMODE-EA. -/
theorem test_decode_addLDnEa : decodeOp 0b1101_011_110_111_001#16 = some (.addLDnEa 3 (.mem .absL)) := by decide +kernel

/-- F-REG-OPMODE-EA. -/
theorem test_decode_subBEaDn : decodeOp 0b1001_110_000_111_100#16 = some (.subBEaDn .imm 6) := by decide +kernel

/-- F-REG-OPMODE-EA. -/
theorem test_decode_subWEaDn : decodeOp 0b1001_110_001_001_011#16 = some (.subWEaDn (.an 3) 6) := by decide +kernel

/-- F-REG-OPMODE-EA. -/
theorem test_decode_subLEaDn : decodeOp 0b1001_110_010_111_010#16 = some (.subLEaDn (.mem .pcDisp) 6) := by decide +kernel

/-- F-REG-OPMODE-EA. -/
theorem test_decode_subBDnEa : decodeOp 0b1001_011_100_011_010#16 = some (.subBDnEa 3 (.mem (.postInc 2))) := by decide +kernel

/-- F-REG-OPMODE-EA. -/
theorem test_decode_subWDnEa : decodeOp 0b1001_011_101_100_111#16 = some (.subWDnEa 3 (.mem (.preDec 7))) := by decide +kernel

/-- F-REG-OPMODE-EA. -/
theorem test_decode_subLDnEa : decodeOp 0b1001_011_110_111_001#16 = some (.subLDnEa 3 (.mem .absL)) := by decide +kernel

/-- F-REG-OPMODE-EA. -/
theorem test_decode_cmpB : decodeOp 0b1011_110_000_111_100#16 = some (.cmpB .imm 6) := by decide +kernel

/-- F-REG-OPMODE-EA. -/
theorem test_decode_cmpW : decodeOp 0b1011_110_001_001_011#16 = some (.cmpW (.an 3) 6) := by decide +kernel

/-- F-REG-OPMODE-EA. -/
theorem test_decode_cmpL : decodeOp 0b1011_110_010_111_010#16 = some (.cmpL (.mem .pcDisp) 6) := by decide +kernel

/-- F-QUICK. -/
theorem test_decode_addqB : decodeOp 0b0101_101_0_00_000_100#16 = some (.addqB 5 (.dn 4)) := by decide +kernel

/-- F-QUICK. -/
theorem test_decode_addqW : decodeOp 0b0101_101_0_01_001_011#16 = some (.addqW 5 (.an 3)) := by decide +kernel

/-- F-QUICK. -/
theorem test_decode_addqL : decodeOp 0b0101_101_0_10_110_110#16 = some (.addqL 5 (.mem (.index 6))) := by decide +kernel

/-- F-SCC. -/
theorem test_decode_scc : decodeOp 0b0101_1011_11_100_111#16 = some (.scc .mi (.mem (.preDec 7))) := by decide +kernel

/-- F-DBCC. -/
theorem test_decode_dbcc : decodeOp 0b0101_1110_11_001_011#16 = some (.dbcc .gt 3) := by decide +kernel

/-- F-BRANCH. -/
theorem test_decode_bra : decodeOp 0b0110_0000_11111110#16 = some (.bra 0xFE) := by decide +kernel

/-- F-BRANCH. -/
theorem test_decode_bsr : decodeOp 0b0110_0001_00000000#16 = some (.bsr 0) := by decide +kernel

/-- F-BRANCH. -/
theorem test_decode_bcc : decodeOp 0b0110_0101_00010010#16 = some (.bcc .cs 0x12) := by decide +kernel

/-- F-EA. -/
theorem test_decode_jmp : decodeOp 0b0100111011_111_011#16 = some (.jmp (.mem .pcIndex)) := by decide +kernel

/-- F-EA. -/
theorem test_decode_jsr : decodeOp 0b0100111010_111_000#16 = some (.jsr (.mem .absW)) := by decide +kernel

/-- F-FIXED. -/
theorem test_decode_rts : decodeOp 0b0100111001110101#16 = some (.rts) := by decide +kernel

/-- F-FIXED. -/
theorem test_decode_rte : decodeOp 0b0100111001110011#16 = some (.rte) := by decide +kernel

/-- F-SHIFT-REG. -/
theorem test_decode_asrB : decodeOp 0b1110_011_0_00_0_00_101#16 = some (.asrB (.imm 3) 5) := by decide +kernel

/-- F-SHIFT-REG. -/
theorem test_decode_asrW : decodeOp 0b1110_011_0_01_1_00_101#16 = some (.asrW (.reg 3) 5) := by decide +kernel

/-- F-SHIFT-REG. -/
theorem test_decode_asrL : decodeOp 0b1110_011_0_10_0_00_101#16 = some (.asrL (.imm 3) 5) := by decide +kernel

/-- F-SHIFT-REG. -/
theorem test_decode_lsrB : decodeOp 0b1110_011_0_00_0_01_101#16 = some (.lsrB (.imm 3) 5) := by decide +kernel

/-- F-SHIFT-REG. -/
theorem test_decode_lsrW : decodeOp 0b1110_011_0_01_1_01_101#16 = some (.lsrW (.reg 3) 5) := by decide +kernel

/-- F-SHIFT-REG. -/
theorem test_decode_lsrL : decodeOp 0b1110_011_0_10_0_01_101#16 = some (.lsrL (.imm 3) 5) := by decide +kernel

/-- F-SHIFT-REG. -/
theorem test_decode_lslB : decodeOp 0b1110_011_1_00_0_01_101#16 = some (.lslB (.imm 3) 5) := by decide +kernel

/-- F-SHIFT-REG. -/
theorem test_decode_lslW : decodeOp 0b1110_011_1_01_1_01_101#16 = some (.lslW (.reg 3) 5) := by decide +kernel

/-- F-SHIFT-REG. -/
theorem test_decode_lslL : decodeOp 0b1110_011_1_10_0_01_101#16 = some (.lslL (.imm 3) 5) := by decide +kernel

/-- F-SHIFT-REG. -/
theorem test_decode_rorB : decodeOp 0b1110_011_0_00_0_11_101#16 = some (.rorB (.imm 3) 5) := by decide +kernel

/-- F-SHIFT-REG. -/
theorem test_decode_rorW : decodeOp 0b1110_011_0_01_1_11_101#16 = some (.rorW (.reg 3) 5) := by decide +kernel

/-- F-SHIFT-REG. -/
theorem test_decode_rorL : decodeOp 0b1110_011_0_10_0_11_101#16 = some (.rorL (.imm 3) 5) := by decide +kernel

/-- F-SHIFT-REG. -/
theorem test_decode_rolB : decodeOp 0b1110_011_1_00_0_11_101#16 = some (.rolB (.imm 3) 5) := by decide +kernel

/-- F-SHIFT-REG. -/
theorem test_decode_rolW : decodeOp 0b1110_011_1_01_1_11_101#16 = some (.rolW (.reg 3) 5) := by decide +kernel

/-- F-SHIFT-REG. -/
theorem test_decode_rolL : decodeOp 0b1110_011_1_10_0_11_101#16 = some (.rolL (.imm 3) 5) := by decide +kernel

/-- F-SHIFT-MEM. -/
theorem test_decode_asrMem : decodeOp 0b1110_0000_11_010_001#16 = some (.asrMem (.mem (.ind 1))) := by decide +kernel

/-- F-SHIFT-MEM. -/
theorem test_decode_lsrMem : decodeOp 0b1110_0010_11_011_010#16 = some (.lsrMem (.mem (.postInc 2))) := by decide +kernel

/-- F-SHIFT-MEM. -/
theorem test_decode_lslMem : decodeOp 0b1110_0011_11_111_000#16 = some (.lslMem (.mem .absW)) := by decide +kernel

/-- F-SHIFT-MEM. -/
theorem test_decode_rorMem : decodeOp 0b1110_0110_11_101_101#16 = some (.rorMem (.mem (.disp 5))) := by decide +kernel

/-- F-SHIFT-MEM. -/
theorem test_decode_rolMem : decodeOp 0b1110_0111_11_110_110#16 = some (.rolMem (.mem (.index 6))) := by decide +kernel

/-- F-REG-OPMODE-EA. -/
theorem test_decode_bsetDyn : decodeOp 0b0000_101_111_000_100#16 = some (.bsetDyn 5 (.dn 4)) := by decide +kernel

/-- F-REG-OPMODE-EA. -/
theorem test_decode_bclrDyn : decodeOp 0b0000_101_110_011_010#16 = some (.bclrDyn 5 (.mem (.postInc 2))) := by decide +kernel

/-- F-EA. -/
theorem test_decode_bsetStatic : decodeOp 0b0000100011_111_001#16 = some (.bsetStatic (.mem .absL)) := by decide +kernel

/-- F-EA. -/
theorem test_decode_bclrStatic : decodeOp 0b0000100010_000_100#16 = some (.bclrStatic (.dn 4)) := by decide +kernel

/-- F-TRAP. -/
theorem test_decode_trap : decodeOp 0b010011100100_1011#16 = some (.trap 11) := by decide +kernel

/-- Words of R105 that no row matches. -/
theorem test_decode_illegal : ([0x4AFC#16, 0x4E71#16, 0xE1A0#16, 0x5340#16, 0xD140#16, 0x19FC#16, 0x5140#16, 0x003C#16,
    0x8000#16, 0xA000#16, 0xC000#16, 0xF000#16].all fun w => decodeOp w == none) = true := by decide +kernel

/-- The words of a table row in memory order: the extension words after the opcode word. -/
theorem test_decode_bytes : decode [0x30, 0x7C, 0x80, 0x00] = .ok (.moveaW .imm 0, [0x80, 0x00]) := by rfl

theorem test_decode_truncated : decode [0x30] = .error .truncated := by rfl

theorem test_decode_table_word : decodeTableWord 16 0x4E75 = some .rts := by decide +kernel

/-- A row's mask given to `decode` as bytes. -/
theorem test_decode_rejects : decode [0x4A, 0xFC] = .error (.illegal 0x4AFC#16) := by rfl

/-! ### Single steps -/

/-- E4: MOVE.B D0,(A7)+ steps A7 by 2. -/
theorem test_moveB : goes (code [0x1EC0] ((State.reset.writeD 0 0xAB#32).writeA 7 0x8000#32))
    (fun t => t.load 0x8000#32 .b == 0xAB#32 && t.areg 7 == 0x8002#32 && xnzvc t == 0b01000 && t.pc == 0x1002#32) = true := by decide +kernel

/-- E4: MOVE.B (A0)+,D0. -/
theorem test_moveB_source : goes (code [0x1018] (withByte 0x2000 0x80 (State.reset.writeA 0 0x2000#32)))
    (fun t => t.dreg 0 == 0x80#32 && t.areg 0 == 0x2001#32 && xnzvc t == 0b01000) = true := by decide +kernel

/-- V8: MOVE.L #$12345678,$3000.W. -/
theorem test_moveL : goes (code [0x21FC, 0x1234, 0x5678, 0x3000] State.reset)
    (fun t => t.load 0x3000#32 .l == 0x12345678#32 && xnzvc t == 0b00000 && t.pc == 0x1008#32) = true := by decide +kernel

/-- V116: the requests of V8 in order. -/
theorem test_moveL_requests : goes (code [0x21FC, 0x1234, 0x5678, 0x3000] State.reset)
    (fun t => t.bus == [.get .supervisorProgram 0x1000#32 .w, .get .supervisorProgram 0x1002#32 .l,
      .get .supervisorProgram 0x1006#32 .w, .put .supervisorData 0x3000#32 .l 0x12345678#32]) = true := by decide +kernel

/-- V1: MOVE.W D1,D2. -/
theorem test_moveW : goes (code [0x3401] ((State.reset.writeD 1 0xFFFF#32).writeD 2 0x12345678#32))
    (fun t => t.dreg 2 == 0x1234FFFF#32 && xnzvc t == 0b01000 && t.pc == 0x1002#32) = true := by decide +kernel

/-- V12: MOVE.W (A0)+,(A0)+ reads and writes one address and steps twice. -/
theorem test_moveW_same : goes (code [0x30D8] (withWord 0x3000 0xABCD (State.reset.writeA 0 0x3000#32)))
    (fun t => t.load 0x3000#32 .w == 0xABCD#32 && t.load 0x3002#32 .w == 0x0#32 && t.areg 0 == 0x3004#32) = true := by decide +kernel

/-- V6: MOVEA.L -4(A0),A0. -/
theorem test_moveaL : goes (code [0x2068, 0xFFFC] (withLong 0x1FFC 0xAAAABBBB (State.reset.writeA 0 0x2000#32)))
    (fun t => t.areg 0 == 0xAAAABBBB#32 && t.pc == 0x1004#32) = true := by decide +kernel

/-- V5: MOVEA.W #$8000,A0, flags unchanged. -/
theorem test_moveaW : goes (code [0x307C, 0x8000] (setXnzvc 0b11111 State.reset))
    (fun t => t.areg 0 == 0xFFFF8000#32 && xnzvc t == 0b11111 && t.pc == 0x1004#32) = true := by decide +kernel

/-- V2: MOVEQ #0,D0 keeps X. -/
theorem test_moveq : goes (code [0x7000] (setXnzvc 0b10011 State.reset))
    (fun t => t.dreg 0 == 0x0#32 && xnzvc t == 0b10100) = true := by decide +kernel

/-- V4: MOVEQ #-128,D7. -/
theorem test_moveq_negative : goes (code [0x7E80] State.reset)
    (fun t => t.dreg 7 == 0xFFFFFF80#32 && xnzvc t == 0b01000) = true := by decide +kernel

/-- V13: MOVE SR,D0. -/
theorem test_moveFromSr : goes (code [0x40C0] (setXnzvc 0b00100 State.reset))
    (fun t => t.dreg 0 == 0x2004#32) = true := by decide +kernel

/-- V14: MOVE SR,D0 in user state. -/
theorem test_moveFromSr_user : goes (code [0x40C0] (setXnzvc 0b11111 userState))
    (fun t => t.dreg 0 == 0x1F#32) = true := by decide +kernel

/-- V20: ADD.B #1,D0. -/
theorem test_addBEaDn : goes (code [0xD03C, 0x0001] (State.reset.writeD 0 0xFF#32))
    (fun t => t.dreg 0 == 0x0#32 && xnzvc t == 0b10101) = true := by decide +kernel

/-- V35: ADD.W D0,D0. -/
theorem test_addWEaDn : goes (code [0xD040] (State.reset.writeD 0 0x12345678#32))
    (fun t => t.dreg 0 == 0x1234ACF0#32 && xnzvc t == 0b01010) = true := by decide +kernel

/-- V21: ADD.W #1,D0 at 0x7FFF. -/
theorem test_addWEaDn_overflow : goes (code [0xD07C, 0x0001] (State.reset.writeD 0 0x7FFF#32))
    (fun t => t.dreg 0 == 0x8000#32 && xnzvc t == 0b01010 && t.pc == 0x1004#32) = true := by decide +kernel

/-- P5: ADD.L D1,D0. -/
theorem test_addLEaDn : goes (code [0xD081] ((State.reset.writeD 0 0x38#32).writeD 1 0xE#32))
    (fun t => t.dreg 0 == 0x46#32 && xnzvc t == 0b00000) = true := by decide +kernel

/-- ADD.B D1,(A0): 0xFF + 1. -/
theorem test_addBDnEa : goes (code [0xD310] (withByte 0x2000 0xFF ((State.reset.writeD 1 0x1#32).writeA 0 0x2000#32)))
    (fun t => t.load 0x2000#32 .b == 0x0#32 && xnzvc t == 0b10101) = true := by decide +kernel

/-- ADD.W D1,(A0): 0x7FFF + 1. -/
theorem test_addWDnEa : goes (code [0xD350] (withWord 0x2000 0x7FFF ((State.reset.writeD 1 0x1#32).writeA 0 0x2000#32)))
    (fun t => t.load 0x2000#32 .w == 0x8000#32 && xnzvc t == 0b01010) = true := by decide +kernel

/-- V22: ADD.L D1,(A0). -/
theorem test_addLDnEa : goes (code [0xD390] (withLong 0x2000 0xFFFFFFFF ((State.reset.writeD 1 0x1#32).writeA 0 0x2000#32)))
    (fun t => t.load 0x2000#32 .l == 0x0#32 && xnzvc t == 0b10101 && t.pc == 0x1002#32) = true := by decide +kernel

/-- V30: SUB.B $2000.W,D0. -/
theorem test_subBEaDn : goes (code [0x9038, 0x2000] (withByte 0x2000 0x1 (State.reset.writeD 0 0x80#32)))
    (fun t => t.dreg 0 == 0x7F#32 && xnzvc t == 0b00010) = true := by decide +kernel

/-- V29: SUB.W #$1234,D0. -/
theorem test_subWEaDn : goes (code [0x907C, 0x1234] (State.reset.writeD 0 0x1234#32))
    (fun t => t.dreg 0 == 0x0#32 && xnzvc t == 0b00100 && t.pc == 0x1004#32) = true := by decide +kernel

/-- V32: SUB.L D0,D0. -/
theorem test_subLEaDn : goes (code [0x9080] (State.reset.writeD 0 0x55#32))
    (fun t => t.dreg 0 == 0x0#32 && xnzvc t == 0b00100) = true := by decide +kernel

/-- SUB.B D1,(A0): 0 - 1. -/
theorem test_subBDnEa : goes (code [0x9310] ((State.reset.writeD 1 0x1#32).writeA 0 0x2000#32))
    (fun t => t.load 0x2000#32 .b == 0xFF#32 && xnzvc t == 0b11001) = true := by decide +kernel

/-- V31: SUB.W D2,(A1)+. -/
theorem test_subWDnEa : goes (code [0x9559] (withWord 0x2000 0x2 ((State.reset.writeD 2 0x3#32).writeA 1 0x2000#32)))
    (fun t => t.load 0x2000#32 .w == 0xFFFF#32 && t.areg 1 == 0x2002#32 && xnzvc t == 0b11001) = true := by decide +kernel

/-- SUB.L D1,(A0): 0x80000000 - 1. -/
theorem test_subLDnEa : goes (code [0x9390] (withLong 0x2000 0x80000000 ((State.reset.writeD 1 0x1#32).writeA 0 0x2000#32)))
    (fun t => t.load 0x2000#32 .l == 0x7FFFFFFF#32 && xnzvc t == 0b00010) = true := by decide +kernel

/-- CMP.B D1,D0: the low bytes alone, X kept. -/
theorem test_cmpB : goes (code [0xB001] (setXnzvc 0b10000 ((State.reset.writeD 0 0x1234#32).writeD 1 0x5634#32)))
    (fun t => t.dreg 0 == 0x1234#32 && xnzvc t == 0b10100) = true := by decide +kernel

/-- E6: CMP.W #$1234,D0 keeps X. -/
theorem test_cmpW : goes (code [0xB07C, 0x1234] (setXnzvc 0b10000 (State.reset.writeD 0 0x1234#32)))
    (fun t => xnzvc t == 0b10100 && t.pc == 0x1004#32) = true := by decide +kernel

/-- V33: CMP.L D1,D0. -/
theorem test_cmpL : goes (code [0xB081] ((State.reset.writeD 0 0x1#32).writeD 1 0x2#32))
    (fun t => t.dreg 0 == 0x1#32 && xnzvc t == 0b01001) = true := by decide +kernel

/-- V34: CMP.L #$80000000,D0. -/
theorem test_cmpL_overflow : goes (code [0xB0BC, 0x8000, 0x0000] (State.reset.writeD 0 0x7FFFFFFF#32))
    (fun t => xnzvc t == 0b01011 && t.pc == 0x1006#32) = true := by decide +kernel

/-- ADDQ.B #1,D0 at 0xFF: the bits above stay. -/
theorem test_addqB : goes (code [0x5200] (State.reset.writeD 0 0x12FF#32))
    (fun t => t.dreg 0 == 0x1200#32 && xnzvc t == 0b10101) = true := by decide +kernel

/-- V23: ADDQ.W #1,D0. -/
theorem test_addqW : goes (code [0x5240] (State.reset.writeD 0 0x1234FFFF#32))
    (fun t => t.dreg 0 == 0x12340000#32 && xnzvc t == 0b10101) = true := by decide +kernel

/-- V26: ADDQ.W #1,A0 adds 32 bits, flags unchanged. -/
theorem test_addqW_address : goes (code [0x5248] (State.reset.writeA 0 0xFFFF#32))
    (fun t => t.areg 0 == 0x10000#32 && xnzvc t == 0b00000) = true := by decide +kernel

/-- V25: ADDQ.L #8,D0. -/
theorem test_addqL : goes (code [0x5080] (State.reset.writeD 0 0x7FFFFFF8#32))
    (fun t => t.dreg 0 == 0x80000000#32 && xnzvc t == 0b01010) = true := by decide +kernel

/-- V80: SEQ D0. -/
theorem test_scc : goes (code [0x57C0] (setXnzvc 0b00100 (State.reset.writeD 0 0x12345600#32)))
    (fun t => t.dreg 0 == 0x123456FF#32) = true := by decide +kernel

/-- V82: SF D0. -/
theorem test_scc_false : goes (code [0x51C0] (State.reset.writeD 0 0xFF#32))
    (fun t => t.dreg 0 == 0x0#32) = true := by decide +kernel

/-- E7: DBF D1 counts down and branches. -/
theorem test_dbcc : goes (code [0x51C9, 0xFFFC] ((State.reset.writeD 1 0x10002#32).withPc 0x1004#32))
    (fun t => t.dreg 1 == 0x10001#32 && t.pc == 0x1002#32) = true := by decide +kernel

/-- E7: DBF D1 reaches -1 and falls through. -/
theorem test_dbcc_end : goes (code [0x51C9, 0xFFFC] ((State.reset.writeD 1 0x12340000#32).withPc 0x1004#32))
    (fun t => t.dreg 1 == 0x1234FFFF#32 && t.pc == 0x1008#32) = true := by decide +kernel

/-- V70: BRA. -/
theorem test_bra : goes (code [0x6004] State.reset)
    (fun t => t.pc == 0x1006#32) = true := by decide +kernel

/-- V71: BRA.W backwards. -/
theorem test_bra_word : goes (code [0x6000, 0xFFFC] State.reset)
    (fun t => t.pc == 0xFFE#32) = true := by decide +kernel

/-- V72: BSR.W. -/
theorem test_bsr : goes (code [0x6100, 0x0010] stacked)
    (fun t => t.load 0x7FFC#32 .l == 0x1004#32 && t.areg 7 == 0x7FFC#32 && t.pc == 0x1012#32) = true := by decide +kernel

/-- V74: BEQ taken. -/
theorem test_bcc : goes (code [0x6706] (setXnzvc 0b00100 State.reset))
    (fun t => t.pc == 0x1008#32) = true := by decide +kernel

/-- V77: BNE.W not taken skips the word. -/
theorem test_bcc_skips : goes (code [0x6600, 0x0100] (setXnzvc 0b00100 State.reset))
    (fun t => t.pc == 0x1004#32) = true := by decide +kernel

/-- V85: JMP 2(PC,D0.W). -/
theorem test_jmp : goes (code [0x4EFB, 0x0002] (State.reset.writeD 0 0x4#32))
    (fun t => t.pc == 0x1008#32) = true := by decide +kernel

/-- V88: JSR (A7) jumps to the old A7. -/
theorem test_jsr : goes (code [0x4E97] stacked)
    (fun t => t.load 0x7FFC#32 .l == 0x1002#32 && t.areg 7 == 0x7FFC#32 && t.pc == 0x8000#32) = true := by decide +kernel

/-- V86: JSR $2000.L. -/
theorem test_jsr_long : goes (code [0x4EB9, 0x0000, 0x2000] stacked)
    (fun t => t.load 0x7FFC#32 .l == 0x1006#32 && t.areg 7 == 0x7FFC#32 && t.pc == 0x2000#32) = true := by decide +kernel

/-- V89: RTS. -/
theorem test_rts : goes (code [0x4E75] (withLong 0x7FFC 0x2000 (State.reset.writeA 7 0x7FFC#32)))
    (fun t => t.pc == 0x2000#32 && t.areg 7 == 0x8000#32) = true := by decide +kernel

/-- V99: RTE to user state. -/
theorem test_rte : goes (code [0x4E73] ((withLong 0x7FFC 0x1000 (State.reset.writeA 7 0x7FFA#32)).withUspShadow 0x5000#32))
    (fun t => t.ssp == 0x8000#32 && t.sup == false && t.areg 7 == 0x5000#32 && t.pc == 0x1000#32) = true := by decide +kernel

/-- V101: RTE to supervisor state. -/
theorem test_rte_supervisor : goes (code [0x4E73] (withLong 0x7FFC 0x3000 (withWord 0x7FFA 0x2004 (State.reset.writeA 7 0x7FFA#32))))
    (fun t => t.sup == true && t.areg 7 == 0x8000#32 && xnzvc t == 0b00100 && t.pc == 0x3000#32) = true := by decide +kernel

/-- V95: MOVE #$0000,SR. -/
theorem test_moveToSr : goes (code [0x46FC, 0x0000] ((State.reset.writeA 7 0x9000#32).withUspShadow 0x6000#32))
    (fun t => t.sup == false && t.areg 7 == 0x6000#32 && t.ssp == 0x9000#32 && t.pc == 0x1004#32) = true := by decide +kernel

/-- V97: MOVE #$FFFF,SR reads back 0x201F. -/
theorem test_moveToSr_mask : goes (code [0x46FC, 0xFFFF] stacked)
    (fun t => t.sr == 0x201F#16 && t.areg 7 == 0x8000#32) = true := by decide +kernel

/-- V41: ASR.B #8,D0. -/
theorem test_asrB : goes (code [0xE000] (State.reset.writeD 0 0x80#32))
    (fun t => t.dreg 0 == 0xFF#32 && xnzvc t == 0b11001) = true := by decide +kernel

/-- V40: ASR.W #1,D0. -/
theorem test_asrW : goes (code [0xE240] (State.reset.writeD 0 0x8001#32))
    (fun t => t.dreg 0 == 0xC000#32 && xnzvc t == 0b11001) = true := by decide +kernel

/-- V43: ASR.L D1,D0 past the width. -/
theorem test_asrL : goes (code [0xE2A0] ((State.reset.writeD 0 0x80000000#32).writeD 1 0x28#32))
    (fun t => t.dreg 0 == 0xFFFFFFFF#32 && xnzvc t == 0b11001) = true := by decide +kernel

/-- V45: LSR.B #1,D0. -/
theorem test_lsrB : goes (code [0xE208] (State.reset.writeD 0 0x12345681#32))
    (fun t => t.dreg 0 == 0x12345640#32 && xnzvc t == 0b10001) = true := by decide +kernel

/-- LSR.W #1,D0: the last bit out is 1. -/
theorem test_lsrW : goes (code [0xE248] (State.reset.writeD 0 0xFFFF0001#32))
    (fun t => t.dreg 0 == 0xFFFF0000#32 && xnzvc t == 0b10101) = true := by decide +kernel

/-- V46: LSR.L D1,D0 by the width. -/
theorem test_lsrL : goes (code [0xE2A8] ((State.reset.writeD 0 0x80000000#32).writeD 1 0x20#32))
    (fun t => t.dreg 0 == 0x0#32 && xnzvc t == 0b10101) = true := by decide +kernel

/-- V47: LSR.L D1,D0 by 0 keeps X and clears C. -/
theorem test_lsrL_zero : goes (code [0xE2A8] (setXnzvc 0b10001 (State.reset.writeD 0 0x80000000#32)))
    (fun t => t.dreg 0 == 0x80000000#32 && xnzvc t == 0b11000) = true := by decide +kernel

/-- V49: LSL.B #1,D0. -/
theorem test_lslB : goes (code [0xE308] (State.reset.writeD 0 0x80#32))
    (fun t => t.dreg 0 == 0x0#32 && xnzvc t == 0b10101) = true := by decide +kernel

/-- LSL.W #1,D0: bit 15 goes out, bit 16 is not touched. -/
theorem test_lslW : goes (code [0xE348] (State.reset.writeD 0 0x18001#32))
    (fun t => t.dreg 0 == 0x10002#32 && xnzvc t == 0b10001) = true := by decide +kernel

/-- V50: LSL.L D1,D0 by 65 modulo 64. -/
theorem test_lslL : goes (code [0xE3A8] ((State.reset.writeD 0 0x1#32).writeD 1 0x41#32))
    (fun t => t.dreg 0 == 0x2#32 && xnzvc t == 0b00000) = true := by decide +kernel

/-- V52: ROR.B #1,D0. -/
theorem test_rorB : goes (code [0xE218] (State.reset.writeD 0 0x1#32))
    (fun t => t.dreg 0 == 0x80#32) = true := by decide +kernel

/-- ROR.W #4,D0. -/
theorem test_rorW : goes (code [0xE858] (State.reset.writeD 0 0xAAAA1234#32))
    (fun t => t.dreg 0 == 0xAAAA4123#32) = true := by decide +kernel

/-- ROR.L #8,D0. -/
theorem test_rorL : goes (code [0xE098] (State.reset.writeD 0 0x12345678#32))
    (fun t => t.dreg 0 == 0x78123456#32) = true := by decide +kernel

/-- ROL.B #1,D0. -/
theorem test_rolB : goes (code [0xE318] (State.reset.writeD 0 0x181#32))
    (fun t => t.dreg 0 == 0x103#32) = true := by decide +kernel

/-- V53: ROL.W #4,D0. -/
theorem test_rolW : goes (code [0xE958] (State.reset.writeD 0 0xAAAA1234#32))
    (fun t => t.dreg 0 == 0xAAAA2341#32) = true := by decide +kernel

/-- V56: ROL.L D1,D0 by the width. -/
theorem test_rolL : goes (code [0xE3B8] ((State.reset.writeD 0 0x12345678#32).writeD 1 0x20#32))
    (fun t => t.dreg 0 == 0x12345678#32) = true := by decide +kernel

/-- V44: ASR (A0). -/
theorem test_asrMem : goes (code [0xE0D0] (withWord 0x3000 0x3 (State.reset.writeA 0 0x3000#32)))
    (fun t => t.load 0x3000#32 .w == 0x1#32 && xnzvc t == 0b10001) = true := by decide +kernel

/-- V48: LSR (A1)+. -/
theorem test_lsrMem : goes (code [0xE2D9] (withWord 0x3000 0x8000 (State.reset.writeA 1 0x3000#32)))
    (fun t => t.load 0x3000#32 .w == 0x4000#32 && t.areg 1 == 0x3002#32 && xnzvc t == 0b00000) = true := by decide +kernel

/-- V51: LSL $2000.W. -/
theorem test_lslMem : goes (code [0xE3F8, 0x2000] (withWord 0x2000 0x4001 State.reset))
    (fun t => t.load 0x2000#32 .w == 0x8002#32 && xnzvc t == 0b01000 && t.pc == 0x1004#32) = true := by decide +kernel

/-- V54: ROR (A0). -/
theorem test_rorMem : goes (code [0xE6D0] (withWord 0x3000 0x1 (State.reset.writeA 0 0x3000#32)))
    (fun t => t.load 0x3000#32 .w == 0x8000#32) = true := by decide +kernel

/-- V55: ROL (A0). -/
theorem test_rolMem : goes (code [0xE7D0] (withWord 0x3000 0x8001 (State.reset.writeA 0 0x3000#32)))
    (fun t => t.load 0x3000#32 .w == 0x3#32) = true := by decide +kernel

/-- V60: BSET D1,D0, the bit number modulo 32. -/
theorem test_bsetDyn : goes (code [0x03C0] (State.reset.writeD 1 0x21#32))
    (fun t => t.dreg 0 == 0x2#32 && t.pc == 0x1002#32) = true := by decide +kernel

/-- V62: BCLR D1,(A0), the bit number modulo 8. -/
theorem test_bclrDyn : goes (code [0x0390] (withByte 0x3000 0xFF ((State.reset.writeD 1 0x9#32).writeA 0 0x3000#32)))
    (fun t => t.load 0x3000#32 .b == 0xFD#32) = true := by decide +kernel

/-- V61: BSET #7,(A0). -/
theorem test_bsetStatic : goes (code [0x08D0, 0x0007] (withByte 0x3000 0x1 (State.reset.writeA 0 0x3000#32)))
    (fun t => t.load 0x3000#32 .b == 0x81#32 && t.pc == 0x1004#32) = true := by decide +kernel

/-- V63: BCLR #31,D0. -/
theorem test_bclrStatic : goes (code [0x0880, 0x001F] (State.reset.writeD 0 0xFFFFFFFF#32))
    (fun t => t.dreg 0 == 0x7FFFFFFF#32 && t.pc == 0x1004#32) = true := by decide +kernel

/-- E10: TRAP #15 with a handler that sets D0 and the pc. -/
theorem test_trap : goes (code [0x4E4F] ((State.reset.setInstruction 0x4E4F#16 0#16 3 0).withCollabIn
    [⟨[.setD 0 0x77#32, .setPc 0x2000#32], none⟩]))
    (fun t => t.dreg 0 == 0x77#32 && t.pc == 0x2000#32) = true := by decide +kernel

/-- A handler that reads D1 and a word of memory goes on by both (R262): D2 is their sum. -/
def adder : CollabProgram :=
  .look fun v => .act (.get .supervisorData 0x3000#32 .w) fun m =>
    .act (.setD 2 (v.d[1] + m.getD 0)) fun _ => .ret none

theorem test_program_reads : (match runProgram adder (withWord 0x3000 0x1234 (State.reset.writeD 1 0x10000#32)) with
    | .ok _ t => t.dreg 2 == 0x11234#32 && t.bus == [.get .supervisorData 0x3000#32 .w]
    | .error _ _ => false) = true := by decide +kernel

/-- A handler that catches its BusError and goes on by it (R283). -/
theorem test_program_catches : (match runProgram
      (.act (.put .supervisorData 0x3000#32 .b 1#32) fun m => .act (.setD 0 (m.getD 7#32)) fun _ => .ret none)
      (protect 0x3000 1 State.reset) with
    | .ok _ t => t.dreg 0 == 7#32 && t.load 0x3000#32 .b == 0#32
    | .error _ _ => false) = true := by decide +kernel

/-- R279: a handler that moves the pc and lets a BusError through; the diagnostic names the step that issued it. -/
theorem test_collab_busError : faults (code [0x4E4F] ((State.reset.setInstruction 0x4E4F#16 0#16 3 0).withCollabIn
    [⟨[.setPc 0x2000#32], some (.busError 0x3000#32 .supervisorData .write)⟩]))
    (fun f => f.left.pc == 0x2000#32 && diagnosticOf f ==
      .busError 0x3000#32 .supervisorData .write (some 0x4E4F#16) 0x1000#32) = true := by decide +kernel

/-- R56, R290: the host fetches the word at the pc plus 2, at byte size too. -/
theorem test_hostFetch : ([Size.b, .w].all fun sz =>
    match hostFetch 2 sz (code [0x7000, 0x1234] State.reset) with
    | .ok v t => v == 0x1234#32 && t.bus == [.get .supervisorProgram 0x1002#32 .w]
    | .error _ _ => false) = true := by decide +kernel

/-- E2: TRAP #15 with no handler. -/
theorem test_trap_uninstalled : faults (code [0x4E4F] State.reset)
    (fun f => f == .illegalInstruction 0x4E4F#16 0x1000#32 f.left && f.left.pc == 0x1000#32) = true := by decide +kernel

/-- E2: 0x4E71. -/
theorem test_illegal : faults (code [0x4E71] State.reset)
    (fun f => f == .illegalInstruction 0x4E71#16 0x1000#32 f.left) = true := by decide +kernel

/-- V15: MOVE.L D0,(A0) into a protected byte: flags set, nothing written. -/
theorem test_write_busError : faults (code [0x2080] (protect 0x3002 1 ((State.reset.writeD 0 0x80000000#32).writeA 0 0x3000#32)))
    (fun f => f == .busError 0x3000#32 .supervisorData .write (some 0x2080#16) 0x1000#32 f.left && xnzvc f.left == 0b01000 &&
      f.left.load 0x3000#32 .l == 0#32 && f.left.pc == 0x1000#32) = true := by decide +kernel

/-- V90: JSR (A7) with a protected stack. -/
theorem test_push_busError : faults (code [0x4E97] (protect 0x7FFC 4 stacked))
    (fun f => f == .busError 0x7FFC#32 .supervisorData .write (some 0x4E97#16) 0x1000#32 f.left && f.left.areg 7 == 0x8000#32) = true := by decide +kernel

/-- V98: MOVE #$2700,SR in user state, no extension fetch. -/
theorem test_privilege : faults (code [0x46FC, 0x2700] userState)
    (fun f => f == .privilegeViolation 0x46FC#16 0x1000#32 f.left &&
      f.left.bus == [.get .userProgram 0x1000#32 .w]) = true := by decide +kernel

/-- V100: RTE in user state. -/
theorem test_privilege_rte : faults (code [0x4E73] userState)
    (fun f => f == .privilegeViolation 0x4E73#16 0x1000#32 f.left) = true := by decide +kernel

/-- V117: an opcode fetch at an odd address. -/
theorem test_odd_pc : goes (code [0x7005] (State.reset.withPc 0x1001#32))
    (fun t => t.dreg 0 == 0x5#32 && t.pc == 0x1003#32) = true := by decide +kernel

/-- V114: the function codes of V10 in user state. -/
theorem test_pcrel_user : goes (code [0x303A, 0x0010] userState)
    (fun t => t.bus == [.get .userProgram 0x1000#32 .w, .get .userProgram 0x1002#32 .w,
      .get .userProgram 0x1012#32 .w]) = true := by decide +kernel

/-- V118: an opcode fetch from a data-only region. -/
theorem test_fetch_busError : faults
    (code [0x7005] { State.reset with regions := [⟨0x1000, 2, [.supervisorProgram], [], false⟩] })
    (fun f => f == .busError 0x1000#32 .supervisorProgram .read none 0x1000#32 f.left && f.left.dreg 0 == 0#32) = true := by decide +kernel

/-- E3: the words of the installation 0x5040, 0x0E07, and words outside it. -/
theorem test_installation : ([0x5040#16, 0x5240#16, 0x5E40#16, 0x5041#16, 0x5047#16, 0x5E47#16].all fun w =>
    ((State.reset.setInstruction 0x5040#16 0x0E07#16 1 7).tableEntry w).1 == .collab 1) = true := by decide +kernel

theorem test_installation_outside :
    (State.reset.setInstruction 0x5040#16 0x0E07#16 1 7).tableEntry 0x5048#16 = (.base (.addqW 0 (.an 0)), 0) ∧
      (State.reset.setInstruction 0x5040#16 0x0E07#16 1 7).tableEntry 0x5140#16 = (.illegal, 0) := by decide +kernel

/-- V113: a later installation overwrites an earlier one. -/
theorem test_installation_overwrites :
    ((State.reset.setInstruction 0x4E75#16 0#16 1 0).setInstruction 0x4E75#16 0#16 2 0).tableEntry 0x4E75#16 =
      (.collab 2, 0) := by decide +kernel

/-- The fetch word of the host: an instruction placed at the pc is the next one run. -/
theorem test_withFetchWord : goes (State.reset.withFetchWord 16 0x7005) (fun t => t.dreg 0 == 5#32) = true := by decide +kernel

/-- E1: the round trip at the ends of the word range. -/
theorem test_signed_word : svalue .w (uvalue .w (-32768)) = -32768 ∧ uvalue .w (-32768) = 0x8000#32 := by decide +kernel

/-- A run ends at the first fault, with its diagnostic: P4's first instruction, then an illegal word. -/
theorem test_run : (run 2 (code [0x7000, 0x4AFC] State.reset)).map (fun r => r.diagnostic) =
    some (.illegalInstruction 0x4AFC#16 0x1002#32 .supervisorProgram) := by decide +kernel

/-! ### Witnesses: for each statement with hypotheses, what meets them -/

theorem witness_DecodeOfEncode : ([.moveB (.dn 7) (.mem (.postInc 7)), .bcc .hi 0, .jmp (.mem .pcIndex), .lslB (.reg 7) 0,
    .trap 15, .addqW 0 (.an 7), .scc .t (.mem .absL), .moveToSr .imm].all Instr.wf) = true := by decide

theorem witness_EncodeOfDecode : decodeOp 0x50C0#16 = some (.scc .t (.dn 0)) ∧
    decodeOp 0x50C8#16 = some (.dbcc .t 0) ∧ decodeOp 0x6100#16 = some (.bsr 0) := by decide +kernel

/-- A state whose next word is MOVEQ #0,D0. -/
def moveqNext : State := code [0x7000] State.reset

theorem witness_StepRunsDecoded :
    moveqNext.readable moveqNext.programFc moveqNext.pc .w = true ∧
      findInstallation moveqNext.installed ((moveqNext.load moveqNext.pc .w).setWidth 16) = none ∧
      decodeOp ((moveqNext.load moveqNext.pc .w).setWidth 16) = some (.moveq 0 0) := by decide +kernel

/-- A state whose next word no row matches, and one whose next word is the TRAP slot with no handler. -/
theorem witness_IllegalSlotFaults :
    (code [0x4AFC] State.reset).readable .supervisorProgram 0x1000#32 .w = true ∧
      ((code [0x4AFC] State.reset).tableEntry (((code [0x4AFC] State.reset).load 0x1000#32 .w).setWidth 16)).1 = .illegal ∧
      ((code [0x4E4F] State.reset).tableEntry (((code [0x4E4F] State.reset).load 0x1000#32 .w).setWidth 16)).1 =
        .illegal := by decide +kernel

/-- A state whose pc lies in a data-only region. -/
def dataOnly : State := { State.reset with regions := [⟨0x1000, 2, [.supervisorProgram], [], false⟩] }

theorem witness_OpcodeFetchBusError :
    dataOnly.granted dataOnly.programFc .read dataOnly.pc .w = false := by decide +kernel

/-- A state at a slot that handler 3 holds, with the answer `r` to come. -/
def collabNext (r : CollabResponse) : State :=
  code [0x4E4F] ((State.reset.setInstruction 0x4E4F#16 0#16 3 0).withCollabIn [r])

/-- A handler that returns `Continue`, one that exits, one that raises BusError, and one that is not scripted; a read that is
answered and one that is rejected. -/
theorem witness_StepCallsCollaborator :
    ([⟨[.setPc 0x2000#32], none⟩, ⟨[], some (.exit 1)⟩, ⟨[], some (.busError 0#32 .userData .read)⟩].all fun r =>
      let s := collabNext r
      s.readable s.programFc s.pc .w &&
        findInstallation s.installed ((s.load s.pc .w).setWidth 16) == some ⟨0x4E4F#16, 0#16, 3, 0⟩ &&
        s.collabIn == [r]) = true ∧
      ((collabNext ⟨[], none⟩).withCollabIn []).collabIn = [] ∧
      ((collabNext ⟨[], none⟩).withCollabIn []).readable .supervisorProgram 0x1000#32 .w = true ∧
      State.reset.readable .userData 0#32 .l = true ∧
      dataOnly.granted .supervisorProgram .read 0x1001#32 .w = false := by decide +kernel

theorem witness_SignExtensionRoundTrip :
    (-(2 ^ (bits .b - 1) : Int) ≤ -128 ∧ (-128 : Int) ≤ 2 ^ (bits .b - 1) - 1) ∧
      (-(2 ^ (bits .w - 1) : Int) ≤ 32767 ∧ (32767 : Int) ≤ 2 ^ (bits .w - 1) - 1) ∧
      (-(2 ^ (bits .l - 1) : Int) ≤ -2147483648 ∧ (-2147483648 : Int) ≤ 2 ^ (bits .l - 1) - 1) := by decide

/-- Bits on each side of the size. -/
theorem witness_PutKeepsUpperBits : (7 : Nat) < bits .b ∧ ¬ (8 : Nat) < bits .b ∧ (8 : Nat) < 32 ∧ (31 : Nat) < bits .l := by
  decide

/-- Masked operands on each side of a signed overflow and of a borrow, the statements' only hypotheses. -/
theorem witness_masked_operands :
    getSized .b 0x7F#32 = 0x7F#32 ∧ getSized .b 0x80#32 = 0x80#32 ∧ getSized .w 0xFFFF#32 = 0xFFFF#32 ∧
      getSized .l 0x80000000#32 = 0x80000000#32 ∧ (addFlags .b 0x7F#32 1#32).v = true ∧ (addFlags .b 0x7E#32 1#32).v = false ∧
      (subFlags .b 0x80#32 1#32).v = true ∧ (subFlags .b 0x81#32 1#32).v = false := by decide

/-- Counts at the width, within it and past it, bits on each side of it, and values of both signs. -/
theorem witness_ShiftCorners : (0 < 1 ∧ 1 ≤ bits .b ∧ 8 ≤ bits .b ∧ bits .b < 9 ∧ 7 < bits .b ∧ ¬ 8 < bits .b) ∧ bits .b ≤ 8 ∧ bits .w ≤ 16 ∧ bits .l ≤ 32 ∧ getSized .w 0x8000#32 = 0x8000#32 ∧
    msb .w 0x8000#32 = true ∧ msb .w 0x7FFF#32 = false := by decide

/-- The last bit of a byte, which a rotate left by one moves to bit 0. -/
theorem witness_RotatesInverse : getSized .b 0x81#32 = 0x81#32 ∧ 7 < bits .b ∧ (7 + 1) % bits .b = 0 ∧
    rol .b 0x81#32 1 = 3#32 ∧ ror .b 0x81#32 1 = 0xC0#32 := by decide

/-- The register next to A7, and A0. -/
theorem witness_IncrementSteps : (6#3 : RegNum) ≠ 7#3 ∧ (0#3 : RegNum) ≠ 7#3 := by decide

/-- Both forms with an index word, and both values of bit 11. -/
theorem witness_IndexWord :
    ((MemMode.pcIndex = .pcIndex ∨ ∃ n, MemMode.pcIndex = .index n) ∧
      (MemMode.index 7 = .pcIndex ∨ ∃ n, MemMode.index 7 = .index n)) ∧
      (0x0800#32 : Word).getLsbD 11 = true ∧ (0xF7FF#32 : Word).getLsbD 11 = false :=
  ⟨⟨.inl rfl, .inr ⟨7, rfl⟩⟩, by decide⟩

/-- A readable and writable word, the last byte of a long word, and the byte just outside it. -/
theorem witness_StoreThenLoad : State.reset.readable .userProgram 0xFFFFFFFF#32 .w = true ∧
    State.reset.writable .userData 0xFFFFFFFF#32 .w = true ∧
    State.reset.readable State.reset.programFc (State.reset.codeAddr 2) .w = true ∧
    State.reset.readable State.reset.programFc (State.reset.codeAddr 2) .l = true ∧ SpaceOk State.reset ∧
    3 < bytes .l ∧ State.reset.decodeAddr 4#32 ∉ State.reset.touched 0#32 .l :=
  ⟨by decide +kernel, by decide +kernel, by decide +kernel, by decide +kernel, ⟨by decide, by decide⟩, by decide,
    by decide⟩

/-- A long word whose last byte lies in a window the outside world answers. -/
theorem witness_OracleReadGoesOn :
    let s : State := { State.reset with regions := [⟨0x3003, 1, [], [], true⟩] }
    s.granted .userData .read 0x3000#32 .l = true ∧ s.isOracle 0x3000#32 .l = true ∧
      s.isOracle 0x3000#32 .w = false := by decide +kernel

/-- A long word whose last byte lies in a write-protected region, and a word whose first lies in a data-only one. -/
theorem witness_RejectedRequestHasNoEffect :
    (protect 0x3003 1 State.reset).granted .supervisorData .write 0x3000#32 .l = false ∧
      (protect 0x3004 1 State.reset).granted .supervisorData .write 0x3000#32 .l = true ∧
      dataOnly.granted .supervisorProgram .read 0x1001#32 .w = false := by decide +kernel

theorem witness_StepKeepsSpaceOk : ∃ t, SpaceOk moveqNext ∧ step moveqNext = .next t :=
  ⟨_, ⟨by decide +kernel, by decide⟩, rfl⟩

theorem witness_StepKeepsConfiguration : ∃ t, step (collabNext ⟨[.setPc 0x2000#32], none⟩) = .next t := ⟨_, rfl⟩

/-! The operands of the instruction statements: a state whose extension words and operands can be read and written. -/

/-- A register operand, an indirect, a post-increment on A[7] and an operand with an extension word, each readable and
writable at reset. -/
theorem witness_operands : ([.dn 0, .mem (.ind 7), .mem (.postInc 7), .mem (.preDec 7), .mem (.disp 1), .mem .absL].all
    fun e => extReadable State.reset e .w 2 && extReadable State.reset e .w 4 && operandReadable State.reset e .w 2 &&
      operandReadable State.reset e .b 4 && operandWritable State.reset e .b 4 && operandWritable State.reset e .w 2) =
    true := by decide +kernel

theorem witness_MoveResult : ([.b, .w, .l].all fun sz =>
    (moveInstr sz .imm (.mem .absL)).wf && extReadable State.reset .imm sz 2 &&
      extReadable State.reset (.mem .absL) sz (2 + eaExtensionSize .imm sz) && operandReadable State.reset .imm sz 2 &&
      operandWritable State.reset (.mem .absL) sz (2 + eaExtensionSize .imm sz)) = true := by decide +kernel

theorem witness_MoveWriteBusError :
    let s := protect 0x3002 1 (State.reset.writeA 0 0x3000#32)
    (moveInstr .l (.dn 0) (.mem (.ind 0))).wf = true ∧ extReadable s (.dn 0) .l 2 = true ∧
      extReadable s (.mem (.ind 0)) .l 2 = true ∧ operandReadable s (.dn 0) .l 2 = true ∧
      s.granted s.dataFc .write (operandAddr s (.ind 0) .l 2) .l = false := by decide +kernel

/-- Both members, with a source that steps the destination register itself. -/
theorem witness_MoveaResult : ([Size.w, .l].all fun sz =>
    extReadable State.reset (.mem (.postInc 0)) sz 2 && operandReadable State.reset (.mem (.postInc 0)) sz 2 &&
      finishDelta (.mem (.postInc 0)) sz 0 == BitVec.ofNat 32 (bytes sz)) = true := by decide +kernel

theorem witness_MoveFromSrResult : (Instr.moveFromSr (.mem (.preDec 7))).wf = true ∧
    extReadable State.reset (.mem (.preDec 7)) .w 2 = true ∧ operandWritable State.reset (.mem (.preDec 7)) .w 2 = true := by
  decide +kernel

theorem witness_ArithToRegister : ([.b, .w, .l].all fun sz =>
    (addToRegInstr sz (.mem (.postInc 7)) 0).wf && (subToRegInstr sz (.mem (.postInc 7)) 0).wf &&
      extReadable State.reset (.mem (.postInc 7)) sz 2 && operandReadable State.reset (.mem (.postInc 7)) sz 2) = true := by
  decide +kernel

theorem witness_ArithToMemory : ([.b, .w, .l].all fun sz =>
    (addToMemInstr sz 0 (.mem (.preDec 7))).wf && (subToMemInstr sz 0 (.mem (.preDec 7))).wf &&
      extReadable State.reset (.mem (.preDec 7)) sz 2 && operandReadable State.reset (.mem (.preDec 7)) sz 2 &&
      operandWritable State.reset (.mem (.preDec 7)) sz 2) = true := by decide +kernel

theorem witness_CmpResult : ([.b, .w, .l].all fun sz =>
    (cmpInstr sz .imm 0).wf && extReadable State.reset .imm sz 2 && operandReadable State.reset .imm sz 2) = true := by
  decide +kernel

/-- A data register and a memory operand, quick data 0 (eight) and 7. -/
theorem witness_AddqResult : ([.b, .w, .l].all fun sz => [Ea.dn 0, .mem (.ind 7)].all fun e =>
    (addqInstr sz 0 e).wf && (addqInstr sz 7 e).wf && extReadable State.reset e sz 2 && operandReadable State.reset e sz 2 &&
      operandWritable State.reset e sz 2) = true ∧ (∀ n, Ea.dn 0 ≠ .an n) ∧ ∀ n, Ea.mem (.ind 7) ≠ .an n :=
  ⟨by decide +kernel, nofun, nofun⟩

theorem witness_ShiftMemory : ([Instr.asrMem (.mem .absW), .lsrMem (.mem .absW), .lslMem (.mem .absW)].all fun i =>
    i.wf && extReadable State.reset (.mem .absW) .w 2 && operandReadable State.reset (.mem .absW) .w 2 &&
      operandWritable State.reset (.mem .absW) .w 2) = true := by decide +kernel

theorem witness_RotateMemory : ([Instr.rorMem (.mem (.postInc 0)), .rolMem (.mem (.postInc 0))].all fun i =>
    i.wf && extReadable State.reset (.mem (.postInc 0)) .w 2 && operandReadable State.reset (.mem (.postInc 0)) .w 2 &&
      operandWritable State.reset (.mem (.postInc 0)) .w 2) = true := by decide +kernel

/-- Both operand sizes. -/
theorem witness_BitDynamic : ([Ea.dn 3, .mem (.ind 0)].all fun e =>
    (Instr.bsetDyn 0 e).wf && (Instr.bclrDyn 0 e).wf && extReadable State.reset e (bitSize e) 2 &&
      operandReadable State.reset e (bitSize e) 2 && operandWritable State.reset e (bitSize e) 2) = true := by
  decide +kernel

theorem witness_BitStatic : ([Ea.dn 3, .mem (.ind 0)].all fun e =>
    (Instr.bsetStatic e).wf && (Instr.bclrStatic e).wf &&
      State.reset.readable State.reset.programFc (State.reset.codeAddr 2) .w && extReadable State.reset e (bitSize e) 4 &&
      operandReadable State.reset e (bitSize e) 4 && operandWritable State.reset e (bitSize e) 4) = true := by
  decide +kernel

/-- A condition that holds and one that does not. -/
theorem witness_SccResult : (Instr.scc .eq (.mem (.postInc 7))).wf = true ∧
    extReadable State.reset (.mem (.postInc 7)) .b 2 = true ∧ operandWritable State.reset (.mem (.postInc 7)) .b 2 = true ∧
    State.reset.test .ne = true ∧ State.reset.test .eq = false := by decide +kernel

/-- The three ways: the condition holds; the count reaches -1; it does not. -/
theorem witness_DbccResult :
    State.reset.readable State.reset.programFc (State.reset.codeAddr 2) .w = true ∧ State.reset.test .t = true ∧
      State.reset.test .f = false ∧ ((State.reset.dreg 0).setWidth 16 - 1#16 : Half) = 0xFFFF#16 ∧
      (((State.reset.writeD 0 1#32).dreg 0).setWidth 16 - 1#16 : Half) ≠ 0xFFFF#16 := by decide +kernel

/-- Both lengths, and a condition that holds and one that does not. -/
theorem witness_BranchResult :
    (Instr.bra 0).wf = true ∧ (Instr.bcc .eq 0).wf = true ∧ (Instr.bcc .ne 0xFF).wf = true ∧
      branchReadable State.reset 0 = true ∧ branchReadable State.reset 0xFF = true ∧ State.reset.test .ne = true ∧
      State.reset.test .eq = false := by decide +kernel

theorem witness_BsrResult : branchReadable stacked 0 = true ∧ branchReadable stacked 0xFE = true ∧
    stacked.writable stacked.dataFc (stacked.sp - 4#32) .l = true ∧ SpaceOk stacked :=
  ⟨by decide +kernel, by decide +kernel, by decide +kernel, by decide +kernel, by decide⟩

theorem witness_JmpResult : (Instr.jmp (.mem (.ind 0))).wf = true ∧ (Instr.jmp (.mem .pcIndex)).wf = true ∧
    extReadable State.reset (.mem (.ind 0)) .l 2 = true ∧ extReadable State.reset (.mem .pcIndex) .l 2 = true := by
  decide +kernel

theorem witness_JsrResult : (Instr.jsr (.mem (.ind 7))).wf = true ∧ extReadable stacked (.mem (.ind 7)) .l 2 = true ∧
    stacked.writable stacked.dataFc (stacked.sp - 4#32) .l = true ∧ SpaceOk stacked :=
  ⟨by decide, by decide +kernel, by decide +kernel, by decide +kernel, by decide⟩

/-- Both members, with one byte of the slot protected. -/
theorem witness_PushBusError :
    let s := protect 0x7FFF 1 stacked
    s.granted s.dataFc .write (s.sp - 4#32) .l = false ∧ (Instr.jsr (.mem (.ind 7))).wf = true ∧
      extReadable s (.mem (.ind 7)) .l 2 = true ∧ (Instr.bsr 0).wf = true ∧ branchReadable s 0 = true := by decide +kernel

/-- A pop that is answered, and one that is rejected. -/
theorem witness_RtsResult : stacked.readable stacked.dataFc stacked.sp .l = true ∧
    (let s : State := { stacked with regions := [⟨0x8003, 1, [.supervisorData], [], false⟩] }
     s.granted s.dataFc .read s.sp .l = false) := by decide +kernel

theorem witness_MoveToSrResult : (Instr.moveToSr (.mem (.postInc 7))).wf = true ∧ stacked.sup = true ∧
    extReadable stacked (.mem (.postInc 7)) .w 2 = true ∧ operandReadable stacked (.mem (.postInc 7)) .w 2 = true := by
  decide +kernel

theorem witness_RteResult : stacked.sup = true ∧ stacked.readable stacked.dataFc stacked.sp .w = true ∧
    stacked.readable stacked.dataFc (stacked.sp + 2#32) .l = true := by decide +kernel

theorem witness_PrivilegedInUserState :
    userState.sup = false ∧ Instr.rte.wf = true ∧ (Instr.moveToSr .imm).wf = true := by decide +kernel

/-- Each of the three. -/
theorem witness_OnlyPrivilegedViolate :
    exec .rte userState = .fault (.privilegeViolation 0x4E73#16 0x1000#32 userState) ∧
      exec (.moveToSr (.dn 0)) userState = .fault (.privilegeViolation 0x46C0#16 0x1000#32 userState) ∧
      exec (.trap 15) (collabNext ⟨[], some (.privilegeViolation 0x4E4F#16 0x1000#32)⟩) =
        .fault (.privilegeViolation 0x4E4F#16 0x1000#32
          ((collabNext ⟨[], some (.privilegeViolation 0x4E4F#16 0x1000#32)⟩).withCollabIn [])) := ⟨rfl, rfl, rfl⟩

theorem witness_TrapSlotResult :
    let r : CollabResponse := ⟨[.setPc 0x2000#32], none⟩
    findInstallation (collabNext r).installed (0x4E40#16 ||| (15#4).setWidth 16) = some ⟨0x4E4F#16, 0#16, 3, 0⟩ ∧
      (collabNext r).collabIn = [r] ∧ r.outcome = none := by decide +kernel

theorem witness_UserStateStays : ∃ t, userState.sup = false ∧ userState.installed = [] ∧
    step (code [0x7000] userState) = .next t := ⟨_, by decide, by decide, rfl⟩

/-- A faulting step that changed the flags first (V15). -/
theorem witness_FaultLeavesContext :
    ∃ f, (protect 0x3002 1 ((State.reset.writeD 0 0x80000000#32).writeA 0 0x3000#32)).installed = [] ∧
      step (code [0x2080] (protect 0x3002 1 ((State.reset.writeD 0 0x80000000#32).writeA 0 0x3000#32))) = .fault f :=
  ⟨_, rfl, rfl⟩

/-- Two contexts with different records and the same flags. -/
theorem witness_FlagRecordsUnobservable :
    FlagEquivalent (setCcAsAdd .b 0#32 0xFF#32 1#32 State.reset) (setXnzvc 0b10101 State.reset) ∧
      setCcAsAdd .b 0#32 0xFF#32 1#32 State.reset ≠ setXnzvc 0b10101 State.reset :=
  ⟨⟨rfl, by decide +kernel⟩, by decide +kernel⟩

/-- Two contexts that differ in both unread fields, in each mode, with no collaborator; and two that differ in the stale
slot alone, at a collaborator's slot. -/
theorem witness_UnreadStateHasNoEffect :
    (UnreadEquivalent State.reset ((State.reset.withIrqPending true).withSspShadow 5#32) ∧ State.reset.installed = []) ∧
      (UnreadEquivalent userState ((userState.withIrqPending true).withUspShadow 5#32) ∧ userState.installed = []) ∧
      (UnreadEquivalent (collabNext ⟨[], none⟩)
          (((collabNext ⟨[], none⟩).withIrqPending false).withSspShadow 5#32) ∧
        (((collabNext ⟨[], none⟩).withIrqPending false).withSspShadow 5#32).irqPending =
          (collabNext ⟨[], none⟩).irqPending) := ⟨⟨rfl, rfl⟩, ⟨rfl, rfl⟩, rfl, rfl⟩

end Sys2Proof.Tests
end

section
/-! Pattern installation (30_encoding.md R82): the table after one `set_instruction`, and the slots of a pattern. -/

namespace Sys2Proof.Machine

/-! ### The dispatch table after an installation -/

/-- The newest installation is asked first, so it decides every slot it matches (R82). -/
theorem findInstallation_cons (p : Installation) (l : List Installation) (op : Half) :
    findInstallation (p :: l) op =
      if op &&& ~~~p.mask = p.base &&& ~~~p.mask then some p else findInstallation l op := by
  by_cases h : op &&& ~~~p.mask = p.base &&& ~~~p.mask <;>
    simp [findInstallation, installationMatches, h]

theorem State.setInstruction_installed (base mask : Half) (k : Nat) (aux : BitVec 64) (s : State) :
    (s.setInstruction base mask k aux).installed = ⟨base, mask, k, aux⟩ :: s.installed := by
  rw [State.setInstruction, State.withInstalled_installed]

theorem State.tableEntry_of_findInstallation_some {s : State} {op : Half} {p : Installation}
    (h : findInstallation s.installed op = some p) : s.tableEntry op = (.collab p.handler, p.aux) := by
  rw [State.tableEntry, h]

theorem State.tableEntry_congr {s t : State} {op : Half}
    (h : findInstallation s.installed op = findInstallation t.installed op) : s.tableEntry op = t.tableEntry op := by
  rw [State.tableEntry, State.tableEntry, h]

/-- `set_instruction` writes the slots whose fixed bits match, over what stood there, and no other (R82). -/
theorem State.tableEntry_setInstruction (base mask op : Half) (k : Nat) (aux : BitVec 64) (s : State) :
    (s.setInstruction base mask k aux).tableEntry op =
      if op &&& ~~~mask = base &&& ~~~mask then (.collab k, aux) else s.tableEntry op := by
  have hfind := findInstallation_cons ⟨base, mask, k, aux⟩ s.installed op
  rw [← State.setInstruction_installed] at hfind
  split
  next hmatch =>
    rw [if_pos hmatch] at hfind
    exact State.tableEntry_of_findInstallation_some hfind
  next hmatch =>
    rw [if_neg hmatch] at hfind
    exact State.tableEntry_congr hfind

/-! ### The slots of the installation 0x5040 with mask 0x0E07 -/

/-- A word is its fixed bits together with its free bits. -/
theorem fixedBits_or_freeBits (op mask : Half) : (op &&& ~~~mask) ||| (op &&& mask) = op := by
  rw [← BitVec.and_or_distrib_left, BitVec.not_or_self, BitVec.and_allOnes]

/-- The bits under the mask 0x0E07 are the two three-bit fields at bits 9 and 0. -/
theorem and_0E07_eq_fields (op : Half) :
    op &&& 0x0E07#16 = ((op.extractLsb' 9 3).setWidth 16 <<< 9) ||| (op.extractLsb' 0 3).setWidth 16 := by
  ext i hi
  interval_cases i <;> simp

/-- No field at bit 9 or 0 reaches a fixed bit: a check of the 64 words. -/
theorem fixedBits_5040_or_fields (a r : BitVec 3) :
    (0x5040#16 ||| (a.setWidth 16 <<< 9) ||| r.setWidth 16) &&& ~~~0x0E07#16 = 0x5040#16 &&& ~~~0x0E07#16 := by
  revert a r
  decide

/-- The words whose fixed bits match are the 64 words R82 lists. -/
theorem matches_5040_0E07_iff (op : Half) :
    op &&& ~~~0x0E07#16 = 0x5040#16 &&& ~~~0x0E07#16 ↔
      ∃ a r : BitVec 3, op = 0x5040#16 ||| (a.setWidth 16 <<< 9) ||| r.setWidth 16 := by
  constructor
  · intro hmatch
    refine ⟨op.extractLsb' 9 3, op.extractLsb' 0 3, ?_⟩
    have hbase : 0x5040#16 &&& ~~~0x0E07#16 = 0x5040#16 := by decide
    calc op = (op &&& ~~~0x0E07#16) ||| (op &&& 0x0E07#16) := (fixedBits_or_freeBits op _).symm
      _ = 0x5040#16 ||| (((op.extractLsb' 9 3).setWidth 16 <<< 9) ||| (op.extractLsb' 0 3).setWidth 16) := by
        rw [hmatch, hbase, and_0E07_eq_fields]
      _ = _ := (BitVec.or_assoc _ _ _).symm
  · rintro ⟨a, r, rfl⟩
    exact fixedBits_5040_or_fields a r

/-- Settles O4: the newest installation decides the slots it matches, and the fields at bits 9 and 0 are the free bits of
0x5040 with mask 0x0E07. -/
theorem setInstructionRoutes : Obligations.SetInstructionRoutes := by
  refine ⟨State.tableEntry_setInstruction, fun op k aux s => ?_⟩
  simp only [State.tableEntry_setInstruction, matches_5040_0E07_iff]

end Sys2Proof.Machine
end

section
/-! Addition and subtraction as exact integer results (40_datapath.md R122, R125, R126): each is the `uvalue` of the exact
result, and `uvalue` is the remainder modulo 2 to the size. -/

namespace Sys2Proof.Machine

theorem two_pow_bits_dvd (sz : Size) : (2 : Int) ^ bits sz ∣ 2 ^ 32 :=
  pow_dvd_pow 2 (by cases sz <;> decide)

theorem ofInt_word_toNat (x : Int) : ((BitVec.ofInt 32 x).toNat : Int) = x % 2 ^ 32 := by
  rw [BitVec.toNat_ofInt]
  exact Int.toNat_of_nonneg (Int.emod_nonneg x (by decide))

theorem uvalue_eq_getSized (sz : Size) (x : Int) : uvalue sz x = getSized sz (BitVec.ofInt 32 x) := by
  rw [uvalue, getSized]

/-- The low bits of an integer are the integer modulo 2 to the size (R122). -/
theorem uvalue_toNat (sz : Size) (x : Int) : ((uvalue sz x).toNat : Int) = x % 2 ^ bits sz := by
  calc ((uvalue sz x).toNat : Int) = ((BitVec.ofInt 32 x).toNat : Int) % 2 ^ bits sz := by
        rw [uvalue_eq_getSized, getSized_toNat, Int.natCast_emod, Int.natCast_pow, Nat.cast_ofNat]
    _ = x % 2 ^ 32 % 2 ^ bits sz := by rw [ofInt_word_toNat]
    _ = x % 2 ^ bits sz := Int.emod_emod_of_dvd x (two_pow_bits_dvd sz)

theorem ofInt_toNat_word (v : Word) : BitVec.ofInt 32 v.toNat = v := by
  rw [BitVec.ofInt_natCast, BitVec.ofNat_toNat, BitVec.setWidth_eq]

theorem add_eq_uvalue (sz : Size) (d v : Word) : add sz d v = uvalue sz (d.toNat + v.toNat) := by
  rw [add, uvalue, BitVec.ofInt_add, ofInt_toNat_word, ofInt_toNat_word]

theorem sub_eq_uvalue (sz : Size) (d v : Word) : sub sz d v = uvalue sz (d.toNat - v.toNat) := by
  rw [sub, uvalue, Int.sub_eq_add_neg, BitVec.ofInt_add, BitVec.ofInt_neg, ofInt_toNat_word, ofInt_toNat_word,
    ← BitVec.sub_eq_add_neg]

/-- Settles O11: `add` and `sub` are the `uvalue` of the exact sum and difference. -/
theorem addSubModulo : Obligations.AddSubModulo := by
  intro sz d v
  rw [add_eq_uvalue, sub_eq_uvalue]
  exact ⟨uvalue_toNat sz _, uvalue_toNat sz _⟩

end Sys2Proof.Machine
end

section
/-! The step of post-increment and pre-decrement (41_addressing_modes.md R169): the aligned size on A7, the operand's own
size on every other address register. -/

namespace Sys2Proof.Machine

/-- A7 stays word-aligned: it moves by the aligned size. -/
theorem stepSize_spReg (sz : Size) : stepSize sz spReg = BitVec.ofNat 32 (alignedSize sz) := by
  rw [stepSize, if_pos rfl]

theorem stepSize_of_ne_spReg (sz : Size) {n : RegNum} (h : n ≠ spReg) :
    stepSize sz n = BitVec.ofNat 32 (bytes sz) := by
  rw [stepSize, if_neg h]

/-- Settles O19: the two branches of the step, each read off its own size table. -/
theorem incrementSteps : Obligations.IncrementSteps := by
  refine ⟨⟨stepSize_spReg .b, stepSize_spReg .w, stepSize_spReg .l⟩, fun n hn => ?_⟩
  exact ⟨stepSize_of_ne_spReg .b hn, stepSize_of_ne_spReg .w hn, stepSize_of_ne_spReg .l hn⟩

end Sys2Proof.Machine
end

section
/-! The decoder undoes the encoder (30_encoding.md R81, R85): the word of every well-formed instruction, line by line of the
opcode map (R104). -/

namespace Sys2Proof

open Sys2Proof.Machine

/-! ### Fields of a register shift's word -/

@[simp] theorem field_encodeShiftReg_12 (dir : BitVec 1) (size type : BitVec 2) (c : ShiftCount) (dn : RegNum) :
    field (encodeShiftReg dir size type c dn) 12 4 = 0xE#4 := by simp [encodeShiftReg]

@[simp] theorem field_encodeShiftReg_8 (dir : BitVec 1) (size type : BitVec 2) (c : ShiftCount) (dn : RegNum) :
    field (encodeShiftReg dir size type c dn) 8 1 = dir := by simp [encodeShiftReg]

@[simp] theorem field_encodeShiftReg_6 (dir : BitVec 1) (size type : BitVec 2) (c : ShiftCount) (dn : RegNum) :
    field (encodeShiftReg dir size type c dn) 6 2 = size := by simp [encodeShiftReg]

@[simp] theorem field_encodeShiftReg_3 (dir : BitVec 1) (size type : BitVec 2) (c : ShiftCount) (dn : RegNum) :
    field (encodeShiftReg dir size type c dn) 3 2 = type := by simp [encodeShiftReg]

@[simp] theorem field_encodeShiftReg_0 (dir : BitVec 1) (size type : BitVec 2) (c : ShiftCount) (dn : RegNum) :
    field (encodeShiftReg dir size type c dn) 0 3 = dn := by simp [encodeShiftReg]

/-! ### Lines whose rows overlap but for a constraint -/

/-- A data destination is no address register, so MOVE and Scc are not read as MOVEA and DBcc (R104). -/
theorem eaMode_ne_one_of_isDataAlterable {e : Ea} (h : isDataAlterable e = true) : eaMode e ≠ 1#3 := by
  simp only [isDataAlterable, Bool.and_eq_true] at h
  exact eaMode_ne_one_of_isData h.2

/-- The condition codes 0000 and 0001 are BRA and BSR; every other one is Bcc (R104). -/
theorem decodeLine6_bcc {cond : Cond} (ht : cond ≠ .t) (hf : cond ≠ .f) (disp8 : BitVec 8) :
    decodeLine6 (word448 6#4 (condCode cond) disp8) = some (.bcc cond disp8) := by
  simp only [decodeLine6, field_word448_8, field_word448_0, decodeCond_condCode]
  cases cond with
  | t => exact absurd rfl ht
  | f => exact absurd rfl hf
  | _ => rfl

/-- Bits 7:6 being 11, bits 8:6 are 3 or 7 by the low bit of the condition (R104). -/
theorem decodeLine5_scc (cond : Cond) {dst : Ea} (h : eaMode dst ≠ 1#3) :
    decodeLine5 (word44233 5#4 (condCode cond) 3#2 (eaMode dst) (eaReg dst)) = some (.scc cond dst) := by
  rcases Nat.mod_two_eq_zero_or_one (condCode cond).toNat with hc | hc <;>
    simp [decodeLine5, field_word44233_6_3, hc, h]

theorem decodeLine5_dbcc (cond : Cond) (dn : RegNum) :
    decodeLine5 (word44233 5#4 (condCode cond) 3#2 1#3 dn) = some (.dbcc cond dn) := by
  rcases Nat.mod_two_eq_zero_or_one (condCode cond).toNat with hc | hc <;>
    simp [decodeLine5, field_word44233_6_3, hc]

/-! ### Every row -/

/-- The format of the word of a well-formed instruction is the instruction, line by line (R81, R104). -/
theorem decodeFormat_encode {i : Instr} (h : i.wf = true) : decodeFormat (encode i) = some i := by
  cases i with
  | bsetDyn dn dst | bclrDyn dn dst | bsetStatic dst | bclrStatic dst =>
    simp [decodeFormat, encode, encodeEa, decodeLine0]
  | moveB src dst => simp [decodeFormat, encode, encodeMove, decodeLine1]
  | moveL src dst =>
    have hm : eaMode dst ≠ 1#3 := eaMode_ne_one_of_isDataAlterable (by simpa [Instr.wf] using h)
    simp [decodeFormat, encode, encodeMove, decodeLine2, hm]
  | moveaL src an =>
    have hm : eaMode (.an an) = 1#3 := rfl
    have hr : eaReg (.an an) = an := rfl
    simp [decodeFormat, encode, encodeMove, decodeLine2, hm, hr]
  | moveW src dst =>
    have hm : eaMode dst ≠ 1#3 := eaMode_ne_one_of_isDataAlterable (by simpa [Instr.wf] using h)
    simp [decodeFormat, encode, encodeMove, decodeLine3, hm]
  | moveaW src an =>
    have hm : eaMode (.an an) = 1#3 := rfl
    have hr : eaReg (.an an) = an := rfl
    simp [decodeFormat, encode, encodeMove, decodeLine3, hm, hr]
  | moveFromSr e | moveToSr e | jsr e | jmp e =>
    simp [decodeFormat, encode, encodeEa, decodeLine4, field_word43333_6_6]
  | rte | rts => decide
  | trap vector => revert vector; decide
  | addqB q dst | addqW q dst | addqL q dst => simp [decodeFormat, encode, encodeEa, decodeLine5]
  | scc cond dst =>
    have hm : eaMode dst ≠ 1#3 := eaMode_ne_one_of_isDataAlterable (by simpa [Instr.wf] using h)
    simp [decodeFormat, encode, decodeLine5_scc cond hm]
  | dbcc cond dn => simp [decodeFormat, encode, decodeLine5_dbcc]
  | bra disp8 | bsr disp8 => simp [decodeFormat, encode, decodeLine6]
  | bcc cond disp8 =>
    simp only [Instr.wf, Bool.and_eq_true, bne_iff_ne] at h
    simp [decodeFormat, encode, decodeLine6_bcc h.1 h.2]
  | moveq dn data => simp [decodeFormat, encode, decodeLine7]
  | subBEaDn e dn | subWEaDn e dn | subLEaDn e dn | subBDnEa dn e | subWDnEa dn e | subLDnEa dn e =>
    simp [decodeFormat, encode, encodeEa, decodeLine9]
  | cmpB src dn | cmpW src dn | cmpL src dn => simp [decodeFormat, encode, encodeEa, decodeLineB]
  | addBEaDn e dn | addWEaDn e dn | addLEaDn e dn | addBDnEa dn e | addWDnEa dn e | addLDnEa dn e =>
    simp [decodeFormat, encode, encodeEa, decodeLineD]
  | asrMem dst | lsrMem dst | lslMem dst | rorMem dst | rolMem dst =>
    simp [decodeFormat, encode, encodeShiftMem, decodeLineE, decodeShiftMem]
  | asrB c dn | asrW c dn | asrL c dn | lsrB c dn | lsrW c dn | lsrL c dn | lslB c dn | lslW c dn | lslL c dn
  | rorB c dn | rorW c dn | rorL c dn | rolB c dn | rolW c dn | rolL c dn =>
    simp [decodeFormat, encode, decodeLineE, decodeShiftReg]

/-- Settles O1: the format reads the instruction back, and the constraints let it pass. -/
theorem decodeOfEncode : Obligations.DecodeOfEncode := by
  intro i hw
  rw [decodeOp, decodeFormat_encode hw, Option.filter_some, if_pos hw]

end Sys2Proof
end

section
/-! The encoder undoes the decoder (30_encoding.md R81, R85): every bit of an admitted word is in the instruction its line
reads, so the word of that instruction is the one decoded. -/

namespace Sys2Proof

open Sys2Proof.Machine

/-! ### A word from the fields a line has read -/

theorem opEa_fields {op : Half} {e : Ea} (h : opEa op = some e) : eaMode e = field op 3 3 ∧ eaReg e = field op 0 3 :=
  fields_of_decodeEa h

theorem opDstEa_fields {op : Half} {e : Ea} (h : opDstEa op = some e) :
    eaMode e = field op 6 3 ∧ eaReg e = field op 9 3 := fields_of_decodeEa h

/-- F-REG-OPMODE-EA, F-QUICK, F-EA. -/
theorem encodeEa_fields {op : Half} {e : Ea} {line : BitVec 4} {r9 opmode : BitVec 3} (hl : field op 12 4 = line)
    (h9 : field op 9 3 = r9) (h6 : field op 6 3 = opmode) (he : opEa op = some e) : encodeEa line r9 opmode e = op := by
  obtain ⟨hm, hr⟩ := opEa_fields he
  rw [encodeEa, hm, hr, ← hl, ← h9, ← h6, word43333_fields]

/-- F-MOVE. -/
theorem encodeMove_fields {op : Half} {src dst : Ea} {line : BitVec 4} (hl : field op 12 4 = line)
    (hs : opEa op = some src) (hm : eaMode dst = field op 6 3) (hr : eaReg dst = field op 9 3) :
    encodeMove line src dst = op := by
  obtain ⟨hsm, hsr⟩ := opEa_fields hs
  rw [encodeMove, hsm, hsr, hm, hr, ← hl, word43333_fields]

/-- F-SHIFT-MEM. -/
theorem encodeShiftMem_fields {op : Half} {e : Ea} {kind : BitVec 4} (hl : field op 12 4 = 0xE#4)
    (h8 : field op 8 4 = kind) (h6 : field op 6 2 = 3#2) (he : opEa op = some e) : encodeShiftMem kind e = op := by
  obtain ⟨hm, hr⟩ := opEa_fields he
  rw [encodeShiftMem, hm, hr, ← hl, ← h8, ← h6, word44233_fields]

/-- The immediate bit and bits 11:9 of the count operand read. -/
theorem opCount_fields (op : Half) : countIr (opCount op) = field op 5 1 ∧ countField (opCount op) = field op 9 3 := by
  unfold opCount
  split
  · next h => exact ⟨h.symm, rfl⟩
  · next h =>
    refine ⟨?_, rfl⟩
    rw [countIr]
    generalize field op 5 1 = b at h ⊢
    revert b
    decide

/-- F-SHIFT-REG. -/
theorem encodeShiftReg_fields {op : Half} {dir : BitVec 1} {size type : BitVec 2} (hl : field op 12 4 = 0xE#4)
    (h8 : field op 8 1 = dir) (h6 : field op 6 2 = size) (h3 : field op 3 2 = type) :
    encodeShiftReg dir size type (opCount op) (field op 0 3) = op := by
  obtain ⟨hi, hc⟩ := opCount_fields op
  rw [encodeShiftReg, hi, hc, ← hl, ← h8, ← h6, ← h3, word4312123_fields]

/-- The six bits 11:6 are the two fields 11:9 and 8:6. -/
theorem fields_of_field_6_6 {op : Half} {n : Nat} (h : (field op 6 6).toNat = n) :
    field op 9 3 = BitVec.ofNat 3 (n / 8) ∧ field op 6 3 = BitVec.ofNat 3 (n % 8) := by
  subst h
  refine ⟨BitVec.eq_of_toNat_eq ?_, BitVec.eq_of_toNat_eq ?_⟩
  · simp only [field_toNat, BitVec.toNat_ofNat]
    omega
  · simp only [field_toNat, BitVec.toNat_ofNat]
    omega

theorem field_eq_of_toNat {op : Half} {lo len n : Nat} (h : (field op lo len).toNat = n) :
    field op lo len = BitVec.ofNat len n := BitVec.eq_of_toNat_eq (by
  have hl := (field op lo len).isLt
  rw [BitVec.toNat_ofNat, h, Nat.mod_eq_of_lt (h ▸ hl)])

/-- An instruction read from one effective address whose word is of F-EA, F-QUICK or F-REG-OPMODE-EA. -/
theorem encode_of_map_opEa {op : Half} {i : Instr} {f : Ea → Instr} {line : BitVec 4} {r9 opmode : BitVec 3}
    (hf : ∀ e, encode (f e) = encodeEa line r9 opmode e) (hl : field op 12 4 = line) (h9 : field op 9 3 = r9)
    (h6 : field op 6 3 = opmode) (h : (opEa op).map f = some i) : encode i = op := by
  obtain ⟨e, he, rfl⟩ := Option.map_eq_some_iff.mp h
  rw [hf, encodeEa_fields hl h9 h6 he]

/-- The same with bits 11:6 fixed, on line 0100. -/
theorem encode_of_map_opEa_six {op : Half} {i : Instr} {f : Ea → Instr} {n : Nat}
    (hf : ∀ e, encode (f e) = encodeEa 4#4 (BitVec.ofNat 3 (n / 8)) (BitVec.ofNat 3 (n % 8)) e)
    (hl : field op 12 4 = 4#4) (h6 : (field op 6 6).toNat = n) (h : (opEa op).map f = some i) : encode i = op := by
  obtain ⟨h9, hm⟩ := fields_of_field_6_6 h6
  exact encode_of_map_opEa hf hl h9 hm h

/-- An instruction read from one effective address whose word is of F-SHIFT-MEM. -/
theorem encode_of_map_shiftMem {op : Half} {i : Instr} {f : Ea → Instr} {kind : BitVec 4}
    (hf : ∀ e, encode (f e) = encodeShiftMem kind e) (hl : field op 12 4 = 0xE#4) (h8 : field op 8 4 = kind)
    (h6 : field op 6 2 = 3#2) (h : (opEa op).map f = some i) : encode i = op := by
  obtain ⟨e, he, rfl⟩ := Option.map_eq_some_iff.mp h
  rw [hf, encodeShiftMem_fields hl h8 h6 he]

/-! ### Line by line (R104) -/

section
variable {op : Half} {i : Instr}

theorem encode_of_decodeLine0 (hl : field op 12 4 = 0#4) (h : decodeLine0 op = some i) : encode i = op := by
  unfold decodeLine0 at h
  split at h
  · next h6 => exact encode_of_map_opEa (fun _ => rfl) hl rfl (field_eq_of_toNat h6) h
  · next h6 => exact encode_of_map_opEa (fun _ => rfl) hl rfl (field_eq_of_toNat h6) h
  · next h6 =>
    obtain ⟨h9, h⟩ := Option.ite_none_right_eq_some.mp h
    exact encode_of_map_opEa (fun _ => rfl) hl h9 (field_eq_of_toNat h6) h
  · next h6 =>
    obtain ⟨h9, h⟩ := Option.ite_none_right_eq_some.mp h
    exact encode_of_map_opEa (fun _ => rfl) hl h9 (field_eq_of_toNat h6) h
  · cases h

theorem encode_of_decodeLine1 (hl : field op 12 4 = 1#4) (h : decodeLine1 op = some i) : encode i = op := by
  obtain ⟨src, hs, h⟩ := Option.bind_eq_some_iff.mp h
  obtain ⟨dst, hd, rfl⟩ := Option.map_eq_some_iff.mp h
  obtain ⟨hm, hr⟩ := opDstEa_fields hd
  exact encodeMove_fields hl hs hm hr

theorem encode_of_decodeLine2 (hl : field op 12 4 = 2#4) (h : decodeLine2 op = some i) : encode i = op := by
  obtain ⟨src, hs, h⟩ := Option.bind_eq_some_iff.mp h
  split at h
  · next h6 =>
    cases h
    exact encodeMove_fields hl hs h6.symm rfl
  · obtain ⟨dst, hd, rfl⟩ := Option.map_eq_some_iff.mp h
    obtain ⟨hm, hr⟩ := opDstEa_fields hd
    exact encodeMove_fields hl hs hm hr

theorem encode_of_decodeLine3 (hl : field op 12 4 = 3#4) (h : decodeLine3 op = some i) : encode i = op := by
  obtain ⟨src, hs, h⟩ := Option.bind_eq_some_iff.mp h
  split at h
  · next h6 =>
    cases h
    exact encodeMove_fields hl hs h6.symm rfl
  · obtain ⟨dst, hd, rfl⟩ := Option.map_eq_some_iff.mp h
    obtain ⟨hm, hr⟩ := opDstEa_fields hd
    exact encodeMove_fields hl hs hm hr

/-- The fixed words and the TRAP slot are told apart by bits 11:6 and by the six bits below. -/
theorem encode_of_decodeLine4 (hl : field op 12 4 = 4#4) (h : decodeLine4 op = some i) : encode i = op := by
  unfold decodeLine4 at h
  split at h
  · next h6 => exact encode_of_map_opEa_six (fun _ => rfl) hl h6 h
  · next h6 => exact encode_of_map_opEa_six (fun _ => rfl) hl h6 h
  · next h6 => exact encode_of_map_opEa_six (fun _ => rfl) hl h6 h
  · next h6 => exact encode_of_map_opEa_six (fun _ => rfl) hl h6 h
  · next h6 =>
    have hop := op.isLt
    have hln := congrArg BitVec.toNat hl
    rw [field_toNat] at h6 hln
    split at h
    · next h4 =>
      cases h
      have h4n := congrArg BitVec.toNat h4
      rw [field_toNat] at h4n
      refine BitVec.eq_of_toNat_eq ?_
      simp only [encode, wordC4, BitVec.toNat_ofNat, field_toNat] at h6 hln h4n ⊢
      omega
    · split at h
      · next h0 =>
        cases h
        have h0n := congrArg BitVec.toNat h0
        rw [field_toNat] at h0n
        refine BitVec.eq_of_toNat_eq ?_
        simp only [encode, BitVec.toNat_ofNat] at h6 hln h0n ⊢
        omega
      · obtain ⟨h0, h⟩ := Option.ite_none_right_eq_some.mp h
        cases h
        have h0n := congrArg BitVec.toNat h0
        rw [field_toNat] at h0n
        refine BitVec.eq_of_toNat_eq ?_
        simp only [encode, BitVec.toNat_ofNat] at h6 hln h0n ⊢
        omega
  · cases h

/-- Where bits 8:6 are 3 or 7, bits 7:6 are 11. -/
theorem encode_of_sccOrDbcc (hl : field op 12 4 = 5#4) (h6 : field op 6 2 = 3#2)
    (h : (if field op 3 3 = 1#3 then some (.dbcc (decodeCond (field op 8 4)) (field op 0 3))
      else (opEa op).map fun e => .scc (decodeCond (field op 8 4)) e) = some i) : encode i = op := by
  split at h
  · next h3 =>
    cases h
    rw [encode, condCode_decodeCond, ← hl, ← h6, ← h3, word44233_fields]
  · obtain ⟨e, he, rfl⟩ := Option.map_eq_some_iff.mp h
    obtain ⟨hm, hr⟩ := opEa_fields he
    rw [encode, condCode_decodeCond, hm, hr, ← hl, ← h6, word44233_fields]

theorem encode_of_decodeLine5 (hl : field op 12 4 = 5#4) (h : decodeLine5 op = some i) : encode i = op := by
  have low (n : Nat) (hn : n % 4 = 3) (h6 : (field op 6 3).toNat = n) : field op 6 2 = 3#2 := by
    refine BitVec.eq_of_toNat_eq ?_
    simp only [field_toNat, BitVec.toNat_ofNat] at h6 ⊢
    omega
  unfold decodeLine5 at h
  split at h
  · next h6 => exact encode_of_map_opEa (fun _ => rfl) hl rfl (field_eq_of_toNat h6) h
  · next h6 => exact encode_of_map_opEa (fun _ => rfl) hl rfl (field_eq_of_toNat h6) h
  · next h6 => exact encode_of_map_opEa (fun _ => rfl) hl rfl (field_eq_of_toNat h6) h
  · next h6 => exact encode_of_sccOrDbcc hl (low 3 rfl h6) h
  · next h6 => exact encode_of_sccOrDbcc hl (low 7 rfl h6) h
  · cases h

theorem encode_of_decodeLine6 (hl : field op 12 4 = 6#4) (h : decodeLine6 op = some i) : encode i = op := by
  unfold decodeLine6 at h
  split at h
  · next h8 =>
    cases h
    rw [encode, ← hl, ← (field_eq_of_toNat h8 : _ = 0#4), word448_fields]
  · next h8 =>
    cases h
    rw [encode, ← hl, ← (field_eq_of_toNat h8 : _ = 1#4), word448_fields]
  · cases h
    rw [encode, condCode_decodeCond, ← hl, word448_fields]

theorem encode_of_decodeLine7 (hl : field op 12 4 = 7#4) (h : decodeLine7 op = some i) : encode i = op := by
  obtain ⟨h8, h⟩ := Option.ite_none_right_eq_some.mp h
  cases h
  rw [encode, ← hl, ← h8, word4318_fields]

theorem encode_of_decodeLine9 (hl : field op 12 4 = 9#4) (h : decodeLine9 op = some i) : encode i = op := by
  unfold decodeLine9 at h
  split at h
  case h_7 => cases h
  all_goals
    next h6 => exact encode_of_map_opEa (fun _ => rfl) hl rfl (field_eq_of_toNat h6) h

theorem encode_of_decodeLineB (hl : field op 12 4 = 0xB#4) (h : decodeLineB op = some i) : encode i = op := by
  unfold decodeLineB at h
  split at h
  case h_4 => cases h
  all_goals
    next h6 => exact encode_of_map_opEa (fun _ => rfl) hl rfl (field_eq_of_toNat h6) h

theorem encode_of_decodeLineD (hl : field op 12 4 = 0xD#4) (h : decodeLineD op = some i) : encode i = op := by
  unfold decodeLineD at h
  split at h
  case h_7 => cases h
  all_goals
    next h6 => exact encode_of_map_opEa (fun _ => rfl) hl rfl (field_eq_of_toNat h6) h

/-- Each of the fifteen admitted triples of type, direction and size gives its own row. -/
theorem encode_of_decodeShiftReg (hl : field op 12 4 = 0xE#4) (h : decodeShiftReg op = some i) : encode i = op := by
  unfold decodeShiftReg at h
  split at h
  case h_16 => cases h
  all_goals
    next h3 h8 h6 =>
      cases h
      exact encodeShiftReg_fields hl (field_eq_of_toNat h8) (field_eq_of_toNat h6) (field_eq_of_toNat h3)

theorem encode_of_decodeShiftMem (hl : field op 12 4 = 0xE#4) (h6 : field op 6 2 = 3#2)
    (h : decodeShiftMem op = some i) : encode i = op := by
  unfold decodeShiftMem at h
  split at h
  case h_6 => cases h
  all_goals
    next h8 => exact encode_of_map_shiftMem (fun _ => rfl) hl (field_eq_of_toNat h8) h6 h

theorem encode_of_decodeLineE (hl : field op 12 4 = 0xE#4) (h : decodeLineE op = some i) : encode i = op := by
  unfold decodeLineE at h
  split at h
  · next h6 => exact encode_of_decodeShiftMem hl h6 h
  · exact encode_of_decodeShiftReg hl h

/-- Every line (R104). -/
theorem encode_of_decodeFormat (h : decodeFormat op = some i) : encode i = op := by
  unfold decodeFormat at h
  split at h
  · next hl => exact encode_of_decodeLine0 (field_eq_of_toNat hl) h
  · next hl => exact encode_of_decodeLine1 (field_eq_of_toNat hl) h
  · next hl => exact encode_of_decodeLine2 (field_eq_of_toNat hl) h
  · next hl => exact encode_of_decodeLine3 (field_eq_of_toNat hl) h
  · next hl => exact encode_of_decodeLine4 (field_eq_of_toNat hl) h
  · next hl => exact encode_of_decodeLine5 (field_eq_of_toNat hl) h
  · next hl => exact encode_of_decodeLine6 (field_eq_of_toNat hl) h
  · next hl => exact encode_of_decodeLine7 (field_eq_of_toNat hl) h
  · next hl => exact encode_of_decodeLine9 (field_eq_of_toNat hl) h
  · next hl => exact encode_of_decodeLineB (field_eq_of_toNat hl) h
  · next hl => exact encode_of_decodeLineD (field_eq_of_toNat hl) h
  · next hl => exact encode_of_decodeLineE (field_eq_of_toNat hl) h
  · cases h

end

/-- Settles O2: the decoder lets through what its row's constraints admit, and each line's fields make up the word. -/
theorem encodeOfDecode : Obligations.EncodeOfDecode := by
  intro op i h
  obtain ⟨hf, hw⟩ := Option.filter_eq_some_iff.mp h
  exact ⟨hw, encode_of_decodeFormat hf⟩

end Sys2Proof
end

section
/-! What every step keeps: the canonical form of the address space (20_memory.md), the dispatch table and the layout of the
address space (10_state.md R31, 70_reset_and_hazards.md R306), and, in user state with no collaborator, the mode and the
supervisor stack pointer (60_exceptions.md R285). -/

namespace Sys2Proof.Machine

/-! ### The canonical form of the address space -/

theorem SpaceOk.congr {s t : State} (h : SpaceOk s) (hm : t.mem = s.mem) (hb : t.decodeBits = s.decodeBits) :
    SpaceOk t := by
  rw [SpaceOk, hm, hb]
  exact h

theorem SpaceOk.store {s : State} (h : SpaceOk s) (a : Word) (sz : Size) (v : Word) : SpaceOk (s.store a sz v) := by
  obtain ⟨hw, hb⟩ := h
  exact ⟨s.store_wf a sz v hw, by rwa [State.store_decodeBits]⟩

/-- Only a store reaches memory, and a store keeps its canonical form. -/
theorem keepsAll_spaceOk : KeepsAll fun s t => SpaceOk s → SpaceOk t where
  refl _ h := h
  trans _ _ _ h1 h2 h := h2 (h1 h)
  bus _ _ _ h := h.congr rfl rfl
  store s b a sz v h := SpaceOk.store (h.congr (t := s.withBus b) rfl rfl) a sz v
  writeD _ _ _ h := h.congr rfl rfl
  writeA _ _ _ h := h.congr rfl rfl
  pc _ _ h := h.congr rfl rfl
  cc _ _ h := h.congr rfl rfl
  xsrc _ _ h := h.congr rfl rfl
  setSupervisorState b s h := h.congr (setSupervisorState_mem b s) (setSupervisorState_decodeBits b s)
  uspShadow _ _ h := h.congr rfl rfl
  sspShadow _ _ h := h.congr rfl rfl
  irqPending _ _ h := h.congr rfl rfl
  collabIn _ _ h := h.congr rfl rfl

/-- Settles O25: the canonical form is kept by everything a step is made of. -/
theorem stepKeepsSpaceOk : Obligations.StepKeepsSpaceOk := by
  intro s t hs hstep
  exact keepsAll_spaceOk.step hstep hs

/-- Settles O24. -/
theorem resetSpaceOk : Obligations.ResetSpaceOk := by
  refine ⟨?_, ?_⟩
  · rfl
  · show 2 ≤ 32
    omega

/-! ### The dispatch table and the layout -/

/-- The dispatch table, the regions and the decoded address bits are those of the other state. -/
def SameConfiguration (s t : State) : Prop :=
  t.installed = s.installed ∧ t.regions = s.regions ∧ t.decodeBits = s.decodeBits

theorem SameConfiguration.trans {s t u : State} (h1 : SameConfiguration s t) (h2 : SameConfiguration t u) :
    SameConfiguration s u := by
  obtain ⟨hi1, hr1, hb1⟩ := h1
  obtain ⟨hi2, hr2, hb2⟩ := h2
  exact ⟨hi2.trans hi1, hr2.trans hr1, hb2.trans hb1⟩

theorem keepsAll_sameConfiguration : KeepsAll SameConfiguration where
  refl _ := ⟨rfl, rfl, rfl⟩
  trans _ _ _ := SameConfiguration.trans
  bus _ _ _ := ⟨rfl, rfl, rfl⟩
  store _ _ a sz v := ⟨State.store_installed _ a sz v, State.store_regions _ a sz v, State.store_decodeBits _ a sz v⟩
  writeD _ _ _ := ⟨rfl, rfl, rfl⟩
  writeA _ _ _ := ⟨rfl, rfl, rfl⟩
  pc _ _ := ⟨rfl, rfl, rfl⟩
  cc _ _ := ⟨rfl, rfl, rfl⟩
  xsrc _ _ := ⟨rfl, rfl, rfl⟩
  setSupervisorState b s :=
    ⟨setSupervisorState_installed b s, setSupervisorState_regions b s, setSupervisorState_decodeBits b s⟩
  uspShadow _ _ := ⟨rfl, rfl, rfl⟩
  sspShadow _ _ := ⟨rfl, rfl, rfl⟩
  irqPending _ _ := ⟨rfl, rfl, rfl⟩
  collabIn _ _ := ⟨rfl, rfl, rfl⟩

/-- Settles O26: nothing a step is made of writes the table or the layout. -/
theorem stepKeepsConfiguration : Obligations.StepKeepsConfiguration := by
  intro s t hstep
  exact keepsAll_sameConfiguration.step hstep

/-! ### User state -/

/-- From a state in user state, user state with the same supervisor stack pointer, which there is the shadow slot. -/
def StaysUser (s t : State) : Prop := s.sup = false → t.sup = false ∧ t.sspShadow = s.sspShadow

theorem ssp_of_user {s : State} (h : s.sup = false) : s.ssp = s.sspShadow := by simp [State.ssp, h]

/-- No operation of an unprivileged instruction writes the mode or a shadow slot. -/
theorem keepsBasics_staysUser : KeepsBasics StaysUser where
  refl _ h := ⟨h, rfl⟩
  trans a b c h1 h2 h := by
    obtain ⟨hb, hab⟩ := h1 h
    obtain ⟨hc, hbc⟩ := h2 hb
    exact ⟨hc, hbc.trans hab⟩
  bus _ _ _ h := ⟨h, rfl⟩
  store _ _ a sz v h := ⟨(State.store_sup _ a sz v).trans h, State.store_sspShadow _ a sz v⟩
  writeD _ _ _ h := ⟨h, rfl⟩
  writeA _ _ _ h := ⟨h, rfl⟩
  pc _ _ h := ⟨h, rfl⟩
  cc _ _ h := ⟨h, rfl⟩
  xsrc _ _ h := ⟨h, rfl⟩

/-- What guards the privileged instructions (60_exceptions.md R272). -/
theorem requireSupervisor_user {op : Half} {s : State} (h : s.sup = false) :
    requireSupervisor op s = .error (.privilegeViolation op s.pc) s := by simp [requireSupervisor, h]

theorem moveToSrBody_user (src : Ea) {s : State} (h : s.sup = false) :
    moveToSrBody src s = .error (.privilegeViolation (encode (.moveToSr src)) s.pc) s :=
  bind_error (requireSupervisor_user h)

theorem rteBody_user {s : State} (h : s.sup = false) :
    rteBody s = .error (.privilegeViolation (encode .rte) s.pc) s := bind_error (requireSupervisor_user h)

/-- A privileged instruction does not go on in user state. -/
theorem runBase_ne_next {i : Instr} {body : Exec Unit} {s t u : State} {e : Stop} (h : body s = .error e u) :
    runBase i body s ≠ .next t := by
  intro hrun
  obtain ⟨-, hb⟩ := runBase_next hrun
  rw [h] at hb
  cases hb

theorem execTrap_uninstalled (vector : BitVec 4) {s : State} (h : s.installed = []) :
    execTrap vector s = runIllegal (encode (.trap vector)) s := by
  rw [execTrap, h]
  rfl

/-- An instruction that goes on in user state with no collaborator is none of the three that could change the mode. -/
theorem exec_staysUser {i : Instr} {s t : State} (hu : s.sup = false) (hi : s.installed = [])
    (hrun : exec i s = .next t) : StaysUser s t := by
  refine keepsBasics_staysUser.exec hrun ?_ ?_ ?_
  · rintro src rfl
    exact runBase_ne_next (i := .moveToSr src) (moveToSrBody_user src hu) hrun
  · rintro rfl
    exact runBase_ne_next (i := .rte) (rteBody_user hu) hrun
  · rintro n rfl
    have htrap := execTrap_uninstalled n hi
    rw [show execTrap n s = .next t from hrun] at htrap
    cases htrap

/-- Where no collaborator is installed, a step that goes on runs the instruction its opcode word decodes to. -/
theorem dispatch_uninstalled_next {op : Half} {s t : State} (hi : s.installed = [])
    (h : dispatchOpcode exec op s = .next t) : ∃ i, decodeOp op = some i ∧ exec i s = .next t := by
  rw [dispatchOpcode, hi] at h
  cases hd : decodeOp op with
  | none =>
    simp only [findInstallation, List.find?_nil, hd] at h
    cases h
  | some i =>
    simp only [findInstallation, List.find?_nil, hd] at h
    exact ⟨i, rfl, h⟩

/-- Settles O57: the opcode fetch and the instruction after it both stay in user state. -/
theorem userStateStays : Obligations.UserStateStays := by
  intro s t hu hi hstep
  obtain ⟨op, u, hf, hd⟩ := step_next hstep
  have hfetch := keepsBasics_staysUser.fetchOpcode s hu
  rw [hf] at hfetch
  obtain ⟨huu, hsu⟩ := hfetch
  obtain ⟨i, -, hrun⟩ := dispatch_uninstalled_next ((fetchOpcode_installed hf).trans hi) hd
  obtain ⟨htu, hst⟩ := exec_staysUser huu ((fetchOpcode_installed hf).trans hi) hrun huu
  exact ⟨htu, by rw [ssp_of_user htu, ssp_of_user hu, hst]; exact hsu⟩

/-- Settles O54: the check stands before every request of both instructions. -/
theorem privilegedInUserState : Obligations.PrivilegedInUserState := by
  intro src s hu i hi hw
  simp only [List.mem_cons, List.not_mem_nil, or_false] at hi
  rcases hi with rfl | rfl
  · exact runBase_error hw (rteBody_user hu)
  · exact runBase_error hw (moveToSrBody_user src hu)

end Sys2Proof.Machine
end

section
/-! What a fault leaves of the context (60_exceptions.md R275, R276). A meaning first reads, fetches and sets flags, then makes
its one write, then only register writes that cannot fail: so where it faults, nothing but the condition-code records, the
free values drawn and the record of requests has changed. -/

namespace Sys2Proof.Machine

/-! ### `LeftBy` as a relation that reads and setters keep -/

theorem LeftBy.refl (s : State) : LeftBy s s := (rfl)

theorem LeftBy.trans {s t u : State} (h1 : LeftBy s t) (h2 : LeftBy t u) : LeftBy s u := by
  rw [LeftBy, h1] at h2
  exact h2

/-! ### Meanings that fault before they write -/

/-- Where the meaning faults, it leaves the context but for the records, the draws and the requests. -/
def FaultsClean {α : Type} (x : Exec α) : Prop := ∀ s e t, x s = .error e t → LeftBy s t

/-- The meaning never faults. -/
def NeverFaults {α : Type} (x : Exec α) : Prop := ∀ s e t, x s ≠ .error e t

variable {α β : Type}

theorem NeverFaults.pure (a : α) : NeverFaults (pure a : Exec α) := fun _ _ _ h => nomatch h

theorem NeverFaults.modifies (f : State → State) : NeverFaults (modifies f) := fun _ _ _ h => nomatch h

theorem NeverFaults.reads (f : State → α) : NeverFaults (reads f) := fun _ _ _ h => nomatch h

theorem NeverFaults.bind {x : Exec α} {f : α → Exec β} (hx : NeverFaults x) (hf : ∀ a, NeverFaults (f a)) :
    NeverFaults (x >>= f) := by
  intro s e t h
  rw [bind_run] at h
  cases hs : x s with
  | ok a u =>
    rw [hs] at h
    exact hf a u e t h
  | error e' u => exact hx s e' u hs

theorem NeverFaults.ite {p : Prop} [Decidable p] {x y : Exec α} (hx : NeverFaults x) (hy : NeverFaults y) :
    NeverFaults (if p then x else y) := by split <;> assumption

theorem NeverFaults.advance (n : Nat) : NeverFaults (advance n) := NeverFaults.modifies _

theorem NeverFaults.finish (r : Resolver) : NeverFaults r.finish := by
  unfold Resolver.finish
  split
  · exact NeverFaults.modifies _
  · exact NeverFaults.modifies _
  · exact NeverFaults.pure _

theorem NeverFaults.finish_advance (r : Resolver) (n : Nat) :
    NeverFaults (do r.finish; Machine.advance n) := NeverFaults.bind (NeverFaults.finish r) fun _ => NeverFaults.advance n

theorem NeverFaults.faultsClean {x : Exec α} (h : NeverFaults x) : FaultsClean x := fun s e t hs => absurd hs (h s e t)

theorem FaultsClean.of_keeps {x : Exec α} (h : Keeps LeftBy x) : FaultsClean x := by
  intro s e t hs
  have hk := h s
  rwa [hs] at hk

/-- Up to here nothing else has changed. -/
theorem FaultsClean.after {x : Exec α} {f : α → Exec β} (hx : Keeps LeftBy x) (hf : ∀ a, FaultsClean (f a)) :
    FaultsClean (x >>= f) := by
  intro s e t h
  have hk := hx s
  rw [bind_run] at h
  cases hs : x s with
  | ok a u =>
    rw [hs] at h hk
    exact hk.trans (hf a u e t h)
  | error e' u =>
    rw [hs] at h hk
    cases h
    exact hk

/-- From here on nothing can fault. -/
theorem FaultsClean.before {x : Exec α} {f : α → Exec β} (hx : FaultsClean x) (hf : ∀ a, NeverFaults (f a)) :
    FaultsClean (x >>= f) := by
  intro s e t h
  rw [bind_run] at h
  cases hs : x s with
  | ok a u =>
    rw [hs] at h
    exact absurd h (hf a u e t)
  | error e' u =>
    rw [hs] at h
    cases h
    exact hx s e t hs

/-! ### The operations before the write -/

theorem leftBy_reads (f : State → α) : Keeps LeftBy (reads f) := Keeps.reads LeftBy.refl f

theorem leftBy_memRead (fc : FunctionCode) (a : Word) (sz : Size) : Keeps LeftBy (memRead fc a sz) :=
  memRead_keeps (fun _ _ _ => rfl) fc a sz

theorem leftBy_bind {x : Exec α} {f : α → Exec β} (hx : Keeps LeftBy x) (hf : ∀ a, Keeps LeftBy (f a)) :
    Keeps LeftBy (x >>= f) := Keeps.bind (fun _ _ _ h1 h2 => h1.trans h2) hx hf

theorem leftBy_fetch (off : Nat) (sz : Size) : Keeps LeftBy (fetch off sz) := fun s => leftBy_memRead _ _ _ s

theorem leftBy_construct (ea : Ea) (sz : Size) (off : Nat) : Keeps LeftBy (construct ea sz off) := by
  unfold construct
  split
  · exact Keeps.pure LeftBy.refl _
  · exact leftBy_bind (leftBy_fetch _ _) fun _ => Keeps.pure LeftBy.refl _
  · exact leftBy_bind (leftBy_fetch _ _) fun _ => Keeps.pure LeftBy.refl _

theorem leftBy_get (r : Resolver) : Keeps LeftBy r.get := by
  unfold Resolver.get
  split
  · exact leftBy_reads _
  · exact leftBy_reads _
  · exact Keeps.pure LeftBy.refl _
  · exact fun s => leftBy_memRead _ _ _ s

theorem leftBy_address (r : Resolver) : Keeps LeftBy r.address := by
  unfold Resolver.address
  split
  · exact leftBy_reads _
  · exact Keeps.pure LeftBy.refl _

theorem leftBy_branchDisp (disp8 : BitVec 8) : Keeps LeftBy (branchDisp disp8) :=
  Keeps.ite (leftBy_bind (leftBy_fetch _ _) fun _ => Keeps.pure LeftBy.refl _) (Keeps.pure LeftBy.refl _)

theorem leftBy_requireSupervisor (op : Half) : Keeps LeftBy (requireSupervisor op) := by
  intro s
  unfold requireSupervisor
  split <;> exact LeftBy.refl s

/-- The setters, by what they write. -/
theorem leftBy_setter {f : State → State} (hf : ∀ s, LeftBy s (f s)) : Keeps LeftBy (modifies f) := Keeps.modifies hf

theorem leftBy_setCcAsAdd (sz : Size) (r d v : Word) (s : State) : LeftBy s (setCcAsAdd sz r d v s) := (rfl)

theorem leftBy_setCcSub (sz : Size) (r d v : Word) (s : State) : LeftBy s (setCcSub sz r d v s) := (rfl)

theorem leftBy_setUnspecified (sz : Size) (r v : Word) (c : Nat) (s : State) : LeftBy s (setUnspecified sz r v c s) :=
  (rfl)

theorem leftBy_setCcShift (tag : Strategy) (sz : Size) (r v : Word) (c : Nat) (s : State) :
    LeftBy s (setCcShift tag sz r v c s) := by
  rw [setCcShift_eq]
  rfl

/-! ### The one write -/

theorem FaultsClean.memWrite (fc : FunctionCode) (a : Word) (sz : Size) (v : Word) : FaultsClean (memWrite fc a sz v) := by
  intro s e t h
  unfold Machine.memWrite at h
  split at h
  · cases h
  · cases h
    rfl

theorem FaultsClean.put (r : Resolver) (v : Word) : FaultsClean (r.put v) := by
  unfold Resolver.put
  split
  · exact (NeverFaults.modifies _).faultsClean
  · exact (NeverFaults.modifies _).faultsClean
  · exact (NeverFaults.pure _).faultsClean
  · exact fun s => FaultsClean.memWrite _ _ _ _ s

theorem FaultsClean.pushLong (v : Word) : FaultsClean (pushLong v) :=
  .after (leftBy_reads _) fun _ => .after (leftBy_reads _) fun _ =>
    .before (.memWrite _ _ _ _) fun _ => .modifies _

theorem FaultsClean.popLong : FaultsClean popLong :=
  .after (leftBy_reads _) fun _ => .after (leftBy_reads _) fun _ => .after (leftBy_memRead _ _ _) fun _ =>
    NeverFaults.faultsClean (.bind (.modifies _) fun _ => .pure _)

theorem FaultsClean.popFrame : FaultsClean popFrame :=
  .after (leftBy_reads _) fun _ => .after (leftBy_reads _) fun _ => .after (leftBy_memRead _ _ _) fun _ =>
    .after (leftBy_memRead _ _ _) fun _ => NeverFaults.faultsClean (.bind (.modifies _) fun _ => .pure _)

/-- The end of every meaning that writes an operand. -/
theorem FaultsClean.put_finish_advance (r : Resolver) (v : Word) (n : Nat) :
    FaultsClean (do r.put v; r.finish; Machine.advance n) :=
  .before (.put r v) fun _ => .finish_advance r n

/-! ### The meanings -/

theorem FaultsClean.move (sz : Size) (src dst : Ea) : FaultsClean (move sz src dst) :=
  .after (leftBy_construct _ _ _) fun _ => .after (leftBy_construct _ _ _) fun _ => .after (leftBy_get _) fun _ =>
    .after (leftBy_setter fun _ => rfl) fun _ => .before (.put _ _) fun _ =>
      .bind (.finish _) fun _ => .finish_advance _ _

theorem FaultsClean.movea (sz : Size) (src : Ea) (an : RegNum) : FaultsClean (movea sz src an) :=
  .after (leftBy_construct _ _ _) fun _ => .after (leftBy_get _) fun _ =>
    NeverFaults.faultsClean (.bind (.modifies _) fun _ => .finish_advance _ _)

theorem FaultsClean.moveqBody (dn : RegNum) (data : BitVec 8) : FaultsClean (moveqBody dn data) :=
  NeverFaults.faultsClean (.bind (.modifies _) fun _ => .bind (.modifies _) fun _ => .advance _)

theorem FaultsClean.moveFromSrBody (dst : Ea) : FaultsClean (moveFromSrBody dst) :=
  .after (leftBy_construct _ _ _) fun _ => .after (leftBy_reads _) fun _ => .put_finish_advance _ _ _

theorem FaultsClean.arithToReg (f : Size → Word → Word → Word) (setf : Size → Word → Word → Word → State → State)
    (sz : Size) (src : Ea) (dn : RegNum) : FaultsClean (arithToReg f setf sz src dn) :=
  .after (leftBy_construct _ _ _) fun _ => .after (leftBy_get _) fun _ => .after (leftBy_reads _) fun _ =>
    NeverFaults.faultsClean (.bind (.modifies _) fun _ => .bind (.modifies _) fun _ => .finish_advance _ _)

theorem FaultsClean.arithToMem {f : Size → Word → Word → Word} {setf : Size → Word → Word → Word → State → State}
    {sz : Size} (hs : ∀ r d v s, LeftBy s (setf sz r d v s)) (dn : RegNum) (dst : Ea) :
    FaultsClean (arithToMem f setf sz dn dst) :=
  .after (leftBy_construct _ _ _) fun _ => .after (leftBy_get _) fun _ => .after (leftBy_reads _) fun _ =>
    .after (leftBy_setter (hs _ _ _)) fun _ => .put_finish_advance _ _ _

theorem FaultsClean.cmpToReg (sz : Size) (src : Ea) (dn : RegNum) : FaultsClean (cmpToReg sz src dn) :=
  .after (leftBy_construct _ _ _) fun _ => .after (leftBy_get _) fun _ => .after (leftBy_reads _) fun _ =>
    NeverFaults.faultsClean (.bind (.modifies _) fun _ => .finish_advance _ _)

theorem FaultsClean.addq (sz : Size) (q : BitVec 3) (dst : Ea) : FaultsClean (addq sz q dst) := by
  unfold Machine.addq
  simp only
  split
  · exact NeverFaults.faultsClean (.bind (.modifies _) fun _ => .advance _)
  · exact .after (leftBy_construct _ _ _) fun _ => .after (leftBy_get _) fun _ =>
      .after (leftBy_setter fun _ => rfl) fun _ => .put_finish_advance _ _ _

theorem FaultsClean.shiftReg (f : Size → Word → Nat → Word) (setf : Size → Word → Word → Nat → State → State)
    (sz : Size) (count : ShiftCount) (dn : RegNum) : FaultsClean (shiftReg f setf sz count dn) :=
  NeverFaults.faultsClean (.bind (.reads _) fun _ => .bind (.reads _) fun _ => .bind (.modifies _) fun _ =>
    .bind (.modifies _) fun _ => .advance _)

theorem FaultsClean.shiftMem {f : Size → Word → Nat → Word} {setf : Size → Word → Word → Nat → State → State}
    (hs : ∀ r v c s, LeftBy s (setf .w r v c s)) (dst : Ea) : FaultsClean (shiftMem f setf dst) :=
  .after (leftBy_construct _ _ _) fun _ => .after (leftBy_get _) fun _ =>
    .after (leftBy_setter (hs _ _ _)) fun _ => .put_finish_advance _ _ _

theorem FaultsClean.bitOp (g : Word → Nat → Word) (bn : Nat) (dst : Ea) (off : Nat) : FaultsClean (bitOp g bn dst off) :=
  .after (leftBy_construct _ _ _) fun _ => .after (leftBy_get _) fun _ =>
    .after (leftBy_setter fun _ => rfl) fun _ => .put_finish_advance _ _ _

theorem FaultsClean.bitDynamic (g : Word → Nat → Word) (dn : RegNum) (dst : Ea) : FaultsClean (bitDynamic g dn dst) :=
  .after (leftBy_reads _) fun _ => .bitOp _ _ _ _

theorem FaultsClean.bitStatic (g : Word → Nat → Word) (dst : Ea) : FaultsClean (bitStatic g dst) :=
  .after (leftBy_fetch _ _) fun _ => .bitOp _ _ _ _

theorem FaultsClean.sccBody (cond : Cond) (dst : Ea) : FaultsClean (sccBody cond dst) :=
  .after (leftBy_construct _ _ _) fun _ => .after (leftBy_reads _) fun _ => .put_finish_advance _ _ _

theorem FaultsClean.dbccBody (cond : Cond) (dn : RegNum) : FaultsClean (dbccBody cond dn) :=
  .after (leftBy_fetch _ _) fun _ => .after (leftBy_reads _) fun _ =>
    NeverFaults.faultsClean (.ite (.advance _) (.bind (.reads _) fun _ => .bind (.modifies _) fun _ =>
      .ite (.advance _) (.modifies _)))

theorem FaultsClean.braBody (disp8 : BitVec 8) : FaultsClean (braBody disp8) :=
  .after (leftBy_branchDisp _) fun _ => (NeverFaults.modifies _).faultsClean

theorem FaultsClean.bsrBody (disp8 : BitVec 8) : FaultsClean (bsrBody disp8) :=
  .after (leftBy_branchDisp _) fun _ => .after (leftBy_reads _) fun _ => .before (.pushLong _) fun _ => .modifies _

theorem FaultsClean.bccBody (cond : Cond) (disp8 : BitVec 8) : FaultsClean (bccBody cond disp8) :=
  .after (leftBy_branchDisp _) fun _ => .after (leftBy_reads _) fun _ =>
    NeverFaults.faultsClean (.ite (.modifies _) (.advance _))

theorem FaultsClean.jmpBody (dst : Ea) : FaultsClean (jmpBody dst) :=
  .after (leftBy_construct _ _ _) fun _ => .after (leftBy_address _) fun _ => (NeverFaults.modifies _).faultsClean

theorem FaultsClean.jsrBody (dst : Ea) : FaultsClean (jsrBody dst) :=
  .after (leftBy_construct _ _ _) fun _ => .after (leftBy_address _) fun _ => .after (leftBy_reads _) fun _ =>
    .before (.pushLong _) fun _ => .modifies _

theorem FaultsClean.rtsBody : FaultsClean rtsBody := .before .popLong fun _ => .modifies _

theorem FaultsClean.moveToSrBody (src : Ea) : FaultsClean (moveToSrBody src) :=
  .after (leftBy_requireSupervisor _) fun _ => .after (leftBy_construct _ _ _) fun _ => .after (leftBy_get _) fun _ =>
    NeverFaults.faultsClean (.bind (.finish _) fun _ => .bind (.modifies _) fun _ => .advance _)

theorem FaultsClean.rteBody : FaultsClean rteBody :=
  .after (leftBy_requireSupervisor _) fun _ => .before .popFrame fun _ => .bind (.modifies _) fun _ => .modifies _

/-! ### Every instruction and every step -/

/-- What the fault of a base handler leaves; an ill-formed term is refused with nothing changed. -/
theorem runBase_fault_leftBy {i : Instr} {body : Exec Unit} {s : State} {f : Fault} (hb : FaultsClean body)
    (h : runBase i body s = .fault f) : LeftBy s f.left := by
  unfold runBase at h
  split at h
  · cases hx : body s with
    | ok a t =>
      rw [hx] at h
      cases h
    | error e t =>
      rw [hx] at h
      cases h
      rw [faultOf_left]
      exact hb s e t hx
  · cases h
    exact LeftBy.refl s

theorem runIllegal_leftBy {op : Half} {s : State} {f : Fault} (h : runIllegal op s = .fault f) : LeftBy s f.left := by
  cases h
  exact LeftBy.refl s

/-- The meaning of every base instruction faults before it writes. -/
theorem exec_fault_leftBy {i : Instr} {s : State} {f : Fault} (hi : s.installed = []) (h : exec i s = .fault f) :
    LeftBy s f.left := by
  cases i with
  | moveB src dst => exact runBase_fault_leftBy (i := .moveB src dst) (.move _ _ _) h
  | moveL src dst => exact runBase_fault_leftBy (i := .moveL src dst) (.move _ _ _) h
  | moveW src dst => exact runBase_fault_leftBy (i := .moveW src dst) (.move _ _ _) h
  | moveaL src an => exact runBase_fault_leftBy (i := .moveaL src an) (.movea _ _ _) h
  | moveaW src an => exact runBase_fault_leftBy (i := .moveaW src an) (.movea _ _ _) h
  | moveq dn data => exact runBase_fault_leftBy (i := .moveq dn data) (.moveqBody _ _) h
  | moveFromSr dst => exact runBase_fault_leftBy (i := .moveFromSr dst) (.moveFromSrBody _) h
  | moveToSr src => exact runBase_fault_leftBy (i := .moveToSr src) (.moveToSrBody _) h
  | addBEaDn src dn => exact runBase_fault_leftBy (i := .addBEaDn src dn) (.arithToReg _ _ _ _ _) h
  | addWEaDn src dn => exact runBase_fault_leftBy (i := .addWEaDn src dn) (.arithToReg _ _ _ _ _) h
  | addLEaDn src dn => exact runBase_fault_leftBy (i := .addLEaDn src dn) (.arithToReg _ _ _ _ _) h
  | addBDnEa dn dst => exact runBase_fault_leftBy (i := .addBDnEa dn dst) (.arithToMem (leftBy_setCcAsAdd _) _ _) h
  | addWDnEa dn dst => exact runBase_fault_leftBy (i := .addWDnEa dn dst) (.arithToMem (leftBy_setCcAsAdd _) _ _) h
  | addLDnEa dn dst => exact runBase_fault_leftBy (i := .addLDnEa dn dst) (.arithToMem (leftBy_setCcAsAdd _) _ _) h
  | subBEaDn src dn => exact runBase_fault_leftBy (i := .subBEaDn src dn) (.arithToReg _ _ _ _ _) h
  | subWEaDn src dn => exact runBase_fault_leftBy (i := .subWEaDn src dn) (.arithToReg _ _ _ _ _) h
  | subLEaDn src dn => exact runBase_fault_leftBy (i := .subLEaDn src dn) (.arithToReg _ _ _ _ _) h
  | subBDnEa dn dst => exact runBase_fault_leftBy (i := .subBDnEa dn dst) (.arithToMem (leftBy_setCcSub _) _ _) h
  | subWDnEa dn dst => exact runBase_fault_leftBy (i := .subWDnEa dn dst) (.arithToMem (leftBy_setCcSub _) _ _) h
  | subLDnEa dn dst => exact runBase_fault_leftBy (i := .subLDnEa dn dst) (.arithToMem (leftBy_setCcSub _) _ _) h
  | cmpB src dn => exact runBase_fault_leftBy (i := .cmpB src dn) (.cmpToReg _ _ _) h
  | cmpW src dn => exact runBase_fault_leftBy (i := .cmpW src dn) (.cmpToReg _ _ _) h
  | cmpL src dn => exact runBase_fault_leftBy (i := .cmpL src dn) (.cmpToReg _ _ _) h
  | addqB q dst => exact runBase_fault_leftBy (i := .addqB q dst) (.addq _ _ _) h
  | addqW q dst => exact runBase_fault_leftBy (i := .addqW q dst) (.addq _ _ _) h
  | addqL q dst => exact runBase_fault_leftBy (i := .addqL q dst) (.addq _ _ _) h
  | scc cond dst => exact runBase_fault_leftBy (i := .scc cond dst) (.sccBody _ _) h
  | dbcc cond dn => exact runBase_fault_leftBy (i := .dbcc cond dn) (.dbccBody _ _) h
  | bra disp8 => exact runBase_fault_leftBy (i := .bra disp8) (.braBody _) h
  | bsr disp8 => exact runBase_fault_leftBy (i := .bsr disp8) (.bsrBody _) h
  | bcc cond disp8 => exact runBase_fault_leftBy (i := .bcc cond disp8) (.bccBody _ _) h
  | jmp dst => exact runBase_fault_leftBy (i := .jmp dst) (.jmpBody _) h
  | jsr dst => exact runBase_fault_leftBy (i := .jsr dst) (.jsrBody _) h
  | rts => exact runBase_fault_leftBy (i := .rts) .rtsBody h
  | rte => exact runBase_fault_leftBy (i := .rte) .rteBody h
  | asrB c dn => exact runBase_fault_leftBy (i := .asrB c dn) (.shiftReg _ _ _ _ _) h
  | asrW c dn => exact runBase_fault_leftBy (i := .asrW c dn) (.shiftReg _ _ _ _ _) h
  | asrL c dn => exact runBase_fault_leftBy (i := .asrL c dn) (.shiftReg _ _ _ _ _) h
  | lsrB c dn => exact runBase_fault_leftBy (i := .lsrB c dn) (.shiftReg _ _ _ _ _) h
  | lsrW c dn => exact runBase_fault_leftBy (i := .lsrW c dn) (.shiftReg _ _ _ _ _) h
  | lsrL c dn => exact runBase_fault_leftBy (i := .lsrL c dn) (.shiftReg _ _ _ _ _) h
  | lslB c dn => exact runBase_fault_leftBy (i := .lslB c dn) (.shiftReg _ _ _ _ _) h
  | lslW c dn => exact runBase_fault_leftBy (i := .lslW c dn) (.shiftReg _ _ _ _ _) h
  | lslL c dn => exact runBase_fault_leftBy (i := .lslL c dn) (.shiftReg _ _ _ _ _) h
  | rorB c dn => exact runBase_fault_leftBy (i := .rorB c dn) (.shiftReg _ _ _ _ _) h
  | rorW c dn => exact runBase_fault_leftBy (i := .rorW c dn) (.shiftReg _ _ _ _ _) h
  | rorL c dn => exact runBase_fault_leftBy (i := .rorL c dn) (.shiftReg _ _ _ _ _) h
  | rolB c dn => exact runBase_fault_leftBy (i := .rolB c dn) (.shiftReg _ _ _ _ _) h
  | rolW c dn => exact runBase_fault_leftBy (i := .rolW c dn) (.shiftReg _ _ _ _ _) h
  | rolL c dn => exact runBase_fault_leftBy (i := .rolL c dn) (.shiftReg _ _ _ _ _) h
  | asrMem dst => exact runBase_fault_leftBy (i := .asrMem dst) (.shiftMem (leftBy_setCcShift _ _) _) h
  | lsrMem dst => exact runBase_fault_leftBy (i := .lsrMem dst) (.shiftMem (leftBy_setCcShift _ _) _) h
  | lslMem dst => exact runBase_fault_leftBy (i := .lslMem dst) (.shiftMem (leftBy_setCcShift _ _) _) h
  | rorMem dst => exact runBase_fault_leftBy (i := .rorMem dst) (.shiftMem (leftBy_setUnspecified _) _) h
  | rolMem dst => exact runBase_fault_leftBy (i := .rolMem dst) (.shiftMem (leftBy_setUnspecified _) _) h
  | bsetDyn dn dst => exact runBase_fault_leftBy (i := .bsetDyn dn dst) (.bitDynamic _ _ _) h
  | bsetStatic dst => exact runBase_fault_leftBy (i := .bsetStatic dst) (.bitStatic _ _) h
  | bclrDyn dn dst => exact runBase_fault_leftBy (i := .bclrDyn dn dst) (.bitDynamic _ _ _) h
  | bclrStatic dst => exact runBase_fault_leftBy (i := .bclrStatic dst) (.bitStatic _ _) h
  | trap vector => exact runIllegal_leftBy ((execTrap_uninstalled vector hi).symm.trans h)

theorem dispatch_uninstalled_fault {op : Half} {s : State} {f : Fault} (hi : s.installed = [])
    (h : dispatchOpcode exec op s = .fault f) : LeftBy s f.left := by
  rw [dispatchOpcode, hi] at h
  cases hd : decodeOp op with
  | none =>
    simp only [findInstallation, List.find?_nil, hd] at h
    exact runIllegal_leftBy h
  | some i =>
    simp only [findInstallation, List.find?_nil, hd] at h
    exact exec_fault_leftBy hi h

theorem leftBy_fetchOpcode : Keeps LeftBy fetchOpcode :=
  leftBy_bind (leftBy_setter fun _ => rfl) fun _ => leftBy_bind (leftBy_fetch _ _) fun _ => Keeps.pure LeftBy.refl _

/-- Settles O58: the opcode fetch changes the record of requests alone, and each meaning faults before it writes. -/
theorem faultLeavesContext : Obligations.FaultLeavesContext := by
  intro s f hi hstep
  have hk := leftBy_fetchOpcode s
  unfold step at hstep
  split at hstep
  · next op u hf =>
    rw [hf] at hk
    exact hk.trans (dispatch_uninstalled_fault ((fetchOpcode_installed hf).trans hi) hstep)
  · next e u hf =>
    rw [hf] at hk
    cases hstep
    rw [faultOf_left]
    exact hk

end Sys2Proof.Machine
end

section
/-! What a step does not observe: how the flags are recorded (10_state.md R34), the stale shadow stack pointer (R23) and,
with no collaborator, the interrupt-pending flag (R29). -/

namespace Sys2Proof.Machine

/-! ### The records behind equal flags -/

theorem State.withCc_flags (c : CcRecord) (s : State) :
    (s.withCc c).flags = ⟨s.flags.x, flagN c, flagZ c, flagV c, flagC c⟩ := (rfl)

theorem State.withXsrc_flags (x : CcRecord) (s : State) : (s.withXsrc x).flags = { s.flags with x := flagX x } := (rfl)

/-- A change of mode neither reads nor writes the records. -/
theorem setSupervisorState_withRecords (b : Bool) (c x : CcRecord) (s : State) :
    ((s.withCc c).withXsrc x).setSupervisorState b = ((s.setSupervisorState b).withCc c).withXsrc x := by
  simp only [State.setSupervisorState, State.withXsrc_sup, State.withCc_sup]
  split
  · rfl
  · split <;> rfl

theorem FlagEquivalent.eq {s t : State} (h : FlagEquivalent s t) : t = (s.withCc t.cc).withXsrc t.xsrc := h.1

theorem FlagEquivalent.flags {s t : State} (h : FlagEquivalent s t) : t.flags = s.flags := h.2

/-- A handler reads the flags and not their records (log entry 15). -/
theorem FlagEquivalent.view {s t : State} (h : FlagEquivalent s t) : t.view = s.view := by
  have hv : t.view = { s.view with flags := t.flags } := by
    rw [h.eq]
    rfl
  rw [hv, h.flags]
  rfl

/-- Everything a step is made of reads the flags and not the records, and writes a record whole. -/
theorem relatesAll_flagEquivalent : RelatesAll FlagEquivalent where
  agree _ _ h := ⟨by rw [h.eq]; rfl, h.flags⟩
  bus _ _ _ _ h := ⟨by rw [h.eq]; rfl, h.flags⟩
  mem _ _ _ h := ⟨by rw [h.eq]; rfl, h.flags⟩
  writeD _ _ _ _ h := ⟨by rw [h.eq]; rfl, h.flags⟩
  writeA _ _ _ _ h := ⟨by rw [h.eq]; rfl, h.flags⟩
  pc _ _ _ h := ⟨by rw [h.eq]; rfl, h.flags⟩
  cc _ _ _ h := ⟨by rw [h.eq]; rfl, by rw [State.withCc_flags, State.withCc_flags, h.flags]⟩
  xsrc _ _ _ h := ⟨by rw [h.eq]; rfl, by rw [State.withXsrc_flags, State.withXsrc_flags, h.flags]⟩
  sup s t b h :=
    ⟨by rw [h.eq, setSupervisorState_withRecords]; rfl,
      by rw [setSupervisorState_flags, setSupervisorState_flags, h.flags]⟩
  view _ _ h := h.view
  uspShadow _ _ _ h := ⟨by rw [h.eq]; rfl, h.flags⟩
  sspShadow _ _ _ h := ⟨by rw [h.eq]; rfl, h.flags⟩
  irqPending _ _ _ h := ⟨by rw [h.eq]; rfl, h.flags⟩
  collabIn _ _ _ h := ⟨by rw [h.eq]; rfl, h.flags⟩

/-- Settles O59: equal flags are kept by everything a step is made of, a handler's accesses among it. -/
theorem flagRecordsUnobservable : Obligations.FlagRecordsUnobservable := by
  intro s t h
  exact relatesAll_flagEquivalent.step h

/-! ### The stale shadow slot and the interrupt-pending flag -/

/-- Two states that differ at most in `irq_pending` and the shadow slots, of which the one that holds a stack pointer
agrees: `UnreadEquivalent` with its two modes side by side. -/
structure SameButUnread (s t : State) : Prop where
  eq : t = ((s.withIrqPending t.irqPending).withUspShadow t.uspShadow).withSspShadow t.sspShadow
  usp : s.sup = true → t.uspShadow = s.uspShadow
  ssp : s.sup = false → t.sspShadow = s.sspShadow

theorem sameButUnread_of_unreadEquivalent {s t : State} (h : UnreadEquivalent s t) : SameButUnread s t := by
  unfold UnreadEquivalent at h
  split at h
  · next hs => exact ⟨by rw [h]; rfl, fun _ => by rw [h]; rfl, fun hf => absurd (hs.symm.trans hf) (by decide)⟩
  · next hs => exact ⟨by rw [h]; rfl, fun hf => absurd hf hs, fun _ => by rw [h]; rfl⟩

theorem SameButUnread.unreadEquivalent {s t : State} (h : SameButUnread s t) : UnreadEquivalent s t := by
  obtain ⟨he, hu, hp⟩ := h
  unfold UnreadEquivalent
  split
  · next hs =>
    rw [hu hs] at he
    exact he
  · next hs =>
    rw [hp (by simpa using hs)] at he
    exact he

theorem SameButUnread.sup_eq {s t : State} (h : SameButUnread s t) : t.sup = s.sup := by
  rw [h.eq]
  rfl

/-- A change of mode fills the stale slot and makes stale the other one, from the registers and the slot that agree. -/
theorem SameButUnread.setSupervisorState {s t : State} (h : SameButUnread s t) (b : Bool) :
    SameButUnread (s.setSupervisorState b) (t.setSupervisorState b) := by
  have ha : t.areg spReg = s.areg spReg := by rw [h.eq]; rfl
  unfold State.setSupervisorState
  rw [h.sup_eq]
  split
  · exact h
  · split
    · next hs =>
      rw [ha, h.usp hs]
      exact ⟨by rw [h.eq]; rfl, fun _ => h.usp hs, fun _ => rfl⟩
    · next hs =>
      rw [ha, h.ssp (by simpa using hs)]
      exact ⟨by rw [h.eq]; rfl, fun _ => rfl, fun _ => h.ssp (by simpa using hs)⟩

/-- No meaning reads what may differ. -/
theorem relatesBasics_sameButUnread : RelatesBasics SameButUnread where
  agree _ _ h := ⟨by rw [h.eq]; rfl, by rw [h.eq]; rfl⟩
  bus _ _ _ _ h := ⟨by rw [h.eq]; rfl, h.usp, h.ssp⟩
  mem _ _ _ h := ⟨by rw [h.eq]; rfl, h.usp, h.ssp⟩
  writeD _ _ _ _ h := ⟨by rw [h.eq]; rfl, h.usp, h.ssp⟩
  writeA _ _ _ _ h := ⟨by rw [h.eq]; rfl, h.usp, h.ssp⟩
  pc _ _ _ h := ⟨by rw [h.eq]; rfl, h.usp, h.ssp⟩
  cc _ _ _ h := ⟨by rw [h.eq]; rfl, h.usp, h.ssp⟩
  xsrc _ _ _ h := ⟨by rw [h.eq]; rfl, h.usp, h.ssp⟩
  sup _ _ b h := h.setSupervisorState b

/-- A handler reads the two stack pointers through their views, which the stale slot does not reach (log entry 15). -/
theorem SameButUnread.view {s t : State} (h : SameButUnread s t) (hi : t.irqPending = s.irqPending) :
    t.view = s.view := by
  obtain ⟨he, hu, hp⟩ := h
  rw [hi] at he
  cases hs : s.sup with
  | true =>
    rw [hu hs] at he
    rw [he]
    simp [State.view, State.usp, State.ssp, hs]
  | false =>
    rw [hp hs] at he
    rw [he]
    simp [State.view, State.usp, State.ssp, hs]

/-- With one interrupt-pending flag, a handler's accesses keep the relation too. -/
theorem relatesAll_sameButUnread : RelatesAll fun s t => SameButUnread s t ∧ t.irqPending = s.irqPending where
  agree _ _ h := relatesBasics_sameButUnread.agree _ _ h.1
  bus _ _ _ _ h := ⟨relatesBasics_sameButUnread.bus _ _ _ _ h.1, h.2⟩
  mem _ _ _ h := ⟨relatesBasics_sameButUnread.mem _ _ _ h.1, h.2⟩
  writeD _ _ _ _ h := ⟨relatesBasics_sameButUnread.writeD _ _ _ _ h.1, h.2⟩
  writeA _ _ _ _ h := ⟨relatesBasics_sameButUnread.writeA _ _ _ _ h.1, h.2⟩
  pc _ _ _ h := ⟨relatesBasics_sameButUnread.pc _ _ _ h.1, h.2⟩
  cc _ _ _ h := ⟨relatesBasics_sameButUnread.cc _ _ _ h.1, h.2⟩
  xsrc _ _ _ h := ⟨relatesBasics_sameButUnread.xsrc _ _ _ h.1, h.2⟩
  sup _ _ b h := ⟨h.1.setSupervisorState b, by simpa using h.2⟩
  view _ _ h := h.1.view h.2
  uspShadow _ _ _ h := ⟨⟨by rw [h.1.eq]; rfl, fun _ => rfl, h.1.ssp⟩, h.2⟩
  sspShadow _ _ _ h := ⟨⟨by rw [h.1.eq]; rfl, h.1.usp, fun _ => rfl⟩, h.2⟩
  irqPending _ _ _ h := ⟨⟨by rw [h.1.eq]; rfl, h.1.usp, h.1.ssp⟩, rfl⟩
  collabIn _ _ _ h := ⟨⟨by rw [h.1.eq]; rfl, h.1.usp, h.1.ssp⟩, h.2⟩

theorem RelOutcome.mono {R R' : State → State → Prop} (hR : ∀ s t, R s t → R' s t)
    {x y : Host.Outcome State Fault Refusal} (h : RelOutcome R x y) : RelOutcome R' x y := by
  cases x <;> cases y <;> simp only [RelOutcome] at h ⊢
  · exact hR _ _ h
  · exact ⟨h.1, hR _ _ h.2⟩

/-- Settles O60: with the same interrupt-pending flag a handler cannot tell the two contexts apart either; with no handler
no meaning reads that flag. -/
theorem unreadStateHasNoEffect : Obligations.UnreadStateHasNoEffect := by
  intro s t h hi
  have hu := sameButUnread_of_unreadEquivalent h
  rcases hi with hirq | hnone
  · exact (relatesAll_sameButUnread.step ⟨hu, hirq⟩).mono fun _ _ hr => hr.1.unreadEquivalent
  · exact (relatesBasics_sameButUnread.step_uninstalled hu hnone).mono fun _ _ hr => hr.unreadEquivalent

end Sys2Proof.Machine
end

section
/-! The datapath (40_datapath.md): the bits of a sized value, sign extension, signed overflow, the comparison queries. -/

namespace Sys2Proof.Machine

/-! ### The width of a size and its bits (R120, R123, R124) -/

theorem bits_pos (sz : Size) : 0 < bits sz := by cases sz <;> decide

theorem bits_le (sz : Size) : bits sz ≤ 32 := by cases sz <;> decide

theorem two_pow_bits (sz : Size) : 2 ^ bits sz = 2 * 2 ^ (bits sz - 1) := by
  rw [← pow_succ', Nat.sub_add_cancel (bits_pos sz)]

theorem mask_eq (sz : Size) : mask sz = (BitVec.allOnes (bits sz)).setWidth 32 := by cases sz <;> rfl

theorem mask_getLsbD (sz : Size) (k : Nat) : (mask sz).getLsbD k = decide (k < bits sz) := by
  have := bits_le sz
  rw [mask_eq, BitVec.getLsbD_setWidth, BitVec.getLsbD_allOnes]
  simp only [Bool.and_eq_right_iff_imp, decide_eq_true_eq]
  omega

theorem getSized_getLsbD (sz : Size) (v : Word) (k : Nat) :
    (getSized sz v).getLsbD k = (decide (k < bits sz) && v.getLsbD k) := by
  rw [getSized, BitVec.getLsbD_and, mask_getLsbD, Bool.and_comm]

theorem putSized_getLsbD (sz : Size) (word v : Word) {k : Nat} (h : k < 32) :
    (putSized sz word v).getLsbD k = if k < bits sz then v.getLsbD k else word.getLsbD k := by
  rw [putSized, BitVec.getLsbD_or, BitVec.getLsbD_and, BitVec.getLsbD_and, BitVec.getLsbD_not, mask_getLsbD]
  by_cases hk : k < bits sz <;> simp [hk, h]

/-- Settles O10: the mask of a size has the bits below its width. -/
theorem putKeepsUpperBits : Obligations.PutKeepsUpperBits := by
  intro sz word v k hk
  exact ⟨putSized_getLsbD sz word v hk, getSized_getLsbD sz v k, by cases sz <;> rfl, by cases sz <;> rfl⟩

/-! ### The signed value (R121, R122) -/

theorem svalue_eq_toInt (sz : Size) (u : Word) : svalue sz u = (u.setWidth (bits sz)).toInt := by
  cases sz with
  | b => exact BitVec.toInt_signExtend_of_le (by decide)
  | w => exact BitVec.toInt_signExtend_of_le (by decide)
  | l => rw [show bits .l = 32 from rfl, BitVec.setWidth_eq]; rfl

theorem svalue_eq_bmod (sz : Size) (u : Word) : svalue sz u = (u.toNat : Int).bmod (2 ^ bits sz) := by
  rw [svalue_eq_toInt, BitVec.toInt_eq_toNat_bmod, BitVec.toNat_setWidth, Int.natCast_emod, Int.emod_bmod]

/-- Settles O9: the low bits of a value are the value modulo 2 to the size, and a value in range is the balanced remainder. -/
theorem signExtensionRoundTrip : Obligations.SignExtensionRoundTrip := by
  intro sz v hlo hhi
  have hcast : ((2 ^ bits sz : Nat) : Int) = 2 ^ bits sz := by norm_cast
  rw [svalue_eq_bmod, uvalue_toNat, ← hcast, Int.emod_bmod]
  apply Int.bmod_eq_of_le <;> rw [two_pow_bits] <;> push_cast <;> omega

/-! ### Masked values by halves of their range -/

theorem toNat_lt_of_masked {sz : Size} {u : Word} (h : getSized sz u = u) : u.toNat < 2 ^ bits sz := by
  rw [← h, getSized_toNat]
  exact Nat.mod_lt _ (by positivity)

/-- The sign bit of a masked value (00_scope.md R11). -/
theorem msb_of_masked {sz : Size} {u : Word} (h : getSized sz u = u) :
    msb sz u = decide (2 ^ (bits sz - 1) ≤ u.toNat) := by
  have hs : (u.setWidth (bits sz)).msb = msb sz u := by
    rw [BitVec.msb_eq_getLsbD_last, BitVec.getLsbD_setWidth, msb]
    have := bits_pos sz
    simp
    omega
  rw [← hs, BitVec.msb_eq_decide, BitVec.toNat_setWidth, Nat.mod_eq_of_lt (toNat_lt_of_masked h)]

/-- The signed value of the upper half of the range is below 0. -/
theorem svalue_of_masked {sz : Size} {u : Word} (h : getSized sz u = u) :
    (2 ^ (bits sz - 1) ≤ u.toNat → svalue sz u = u.toNat - 2 * (2 ^ (bits sz - 1) : Nat)) ∧
      (u.toNat < 2 ^ (bits sz - 1) → svalue sz u = u.toNat) := by
  have hlt := toNat_lt_of_masked h
  rw [svalue_eq_toInt, BitVec.toInt_eq_toNat_cond, BitVec.toNat_setWidth, Nat.mod_eq_of_lt hlt, two_pow_bits]
  rw [two_pow_bits] at hlt
  generalize 2 ^ (bits sz - 1) = m at hlt ⊢
  constructor
  · intro hm
    rw [if_neg (by omega)]
    push_cast
    rfl
  · intro hm
    rw [if_pos (by omega)]

/-- A sum past the range wraps once. -/
theorem add_toNat_of_masked {sz : Size} {d v : Word} (hd : getSized sz d = d) (hv : getSized sz v = v) :
    (d.toNat + v.toNat < 2 ^ bits sz → (add sz d v).toNat = d.toNat + v.toNat) ∧
      (2 ^ bits sz ≤ d.toNat + v.toNat → (add sz d v).toNat + 2 ^ bits sz = d.toNat + v.toNat) := by
  have hdl := toNat_lt_of_masked hd
  have hvl := toNat_lt_of_masked hv
  have hr : (add sz d v).toNat = (d.toNat + v.toNat) % 2 ^ bits sz := by
    have := (addSubModulo sz d v).1
    exact_mod_cast this
  rw [hr]
  refine ⟨fun h => Nat.mod_eq_of_lt h, fun h => ?_⟩
  rw [Nat.mod_eq_sub_mod h, Nat.mod_eq_of_lt (by omega)]
  omega

/-- A difference below 0 wraps once. -/
theorem sub_toNat_of_masked {sz : Size} {d v : Word} (hd : getSized sz d = d) (hv : getSized sz v = v) :
    (v.toNat ≤ d.toNat → (sub sz d v).toNat + v.toNat = d.toNat) ∧
      (d.toNat < v.toNat → (sub sz d v).toNat + v.toNat = d.toNat + 2 ^ bits sz) := by
  have hdl := toNat_lt_of_masked hd
  have hvl := toNat_lt_of_masked hv
  have hr := (addSubModulo sz d v).2
  have hcast : ((2 ^ bits sz : Nat) : Int) = 2 ^ bits sz := by norm_cast
  rw [← hcast] at hr
  generalize 2 ^ bits sz = m at hdl hvl hr ⊢
  constructor
  · intro h
    rw [Int.emod_eq_of_lt (by omega) (by omega)] at hr
    omega
  · intro h
    rw [← Int.add_emod_right, Int.emod_eq_of_lt (by omega) (by omega)] at hr
    omega

theorem getSized_add (sz : Size) (d v : Word) : getSized sz (add sz d v) = add sz d v := getSized_getSized sz (d + v)

theorem getSized_sub (sz : Size) (d v : Word) : getSized sz (sub sz d v) = sub sz d v := getSized_getSized sz (d - v)

/-! ### Overflow and the comparison queries (R139, R140, R147) -/

/-- Settles O12: by the halves the operands and the result lie in. -/
theorem overflowIsSigned : Obligations.OverflowIsSigned := by
  intro sz d v hd hv
  have hds := svalue_of_masked hd
  have hvs := svalue_of_masked hv
  have hdl := toNat_lt_of_masked hd
  have hvl := toNat_lt_of_masked hv
  constructor
  · have hr := add_toNat_of_masked hd hv
    have hrs := svalue_of_masked (getSized_add sz d v)
    simp only [addFlags, msb_of_masked hd, msb_of_masked hv, msb_of_masked (getSized_add sz d v), Bool.and_eq_true,
      beq_iff_eq, bne_iff_ne, ne_eq, decide_eq_decide]
    rw [two_pow_bits] at hr hdl hvl
    omega
  · have hr := sub_toNat_of_masked hd hv
    have hrs := svalue_of_masked (getSized_sub sz d v)
    simp only [subFlags, msb_of_masked hd, msb_of_masked hv, msb_of_masked (getSized_sub sz d v), Bool.and_eq_true,
      bne_iff_ne, ne_eq, decide_eq_decide]
    rw [two_pow_bits] at hr hdl hvl
    omega

theorem sub_eq_zero_iff {sz : Size} {d v : Word} (hd : getSized sz d = d) (hv : getSized sz v = v) :
    sub sz d v = 0#32 ↔ d = v := by
  have hr := sub_toNat_of_masked hd hv
  have hdl := toNat_lt_of_masked hd
  have hvl := toNat_lt_of_masked hv
  rw [← BitVec.toNat_inj, ← BitVec.toNat_inj, BitVec.toNat_ofNat]
  omega

/-- Settles O13: N differs from V where the exact difference is negative; C is the borrow; Z holds where it is 0. -/
theorem compareQueries : Obligations.CompareQueries := by
  intro sz d v s hd hv
  rw [setCcCmp_flags]
  refine ⟨?_, ?_, ?_⟩
  · have hds := svalue_of_masked hd
    have hvs := svalue_of_masked hv
    have hdl := toNat_lt_of_masked hd
    have hvl := toNat_lt_of_masked hv
    have hr := sub_toNat_of_masked hd hv
    simp only [qLt, cmpFlags, subFlags, msb_of_masked hd, msb_of_masked hv, msb_of_masked (getSized_sub sz d v)]
    rw [bne_iff_ne, ne_eq, Bool.eq_iff_iff]
    simp only [Bool.and_eq_true, bne_iff_ne, ne_eq, decide_eq_decide, decide_eq_true_eq]
    rw [two_pow_bits] at hr hdl hvl
    omega
  · simp [qCs, cmpFlags, subFlags]
  · simp [qEq, cmpFlags, subFlags, sub_eq_zero_iff hd hv]

end Sys2Proof.Machine
end

section
/-! Shifts and rotates bit by bit (40_datapath.md R127, R128, R141). -/

namespace Sys2Proof.Machine

/-! ### Bits of a masked value -/

theorem getLsbD_of_masked {sz : Size} {v : Word} (h : getSized sz v = v) {k : Nat} (hk : bits sz ≤ k) :
    v.getLsbD k = false := by
  rw [← h, getSized_getLsbD, decide_eq_false (by omega), Bool.false_and]

theorem eq_of_masked_bits {sz : Size} {u v : Word} (hu : getSized sz u = u) (hv : getSized sz v = v)
    (h : ∀ k, k < bits sz → u.getLsbD k = v.getLsbD k) : u = v := by
  apply BitVec.eq_of_getLsbD_eq
  intro k _
  by_cases hk : k < bits sz
  · exact h k hk
  · rw [getLsbD_of_masked hu (by omega), getLsbD_of_masked hv (by omega)]

/-! ### Shifts (R127) -/

theorem lsl_getLsbD (sz : Size) (v : Word) (c : Nat) {k : Nat} (hk : k < 32) :
    (lsl sz v c).getLsbD k = (decide (k < bits sz) && decide (c ≤ k) && v.getLsbD (k - c)) := by
  by_cases hc : bits sz ≤ c
  · have hout : (decide (k < bits sz) && decide (c ≤ k)) = false := by
      rw [Bool.and_eq_false_iff, decide_eq_false_iff_not, decide_eq_false_iff_not]
      omega
    rw [lsl, if_pos hc, hout, Bool.false_and]
    exact BitVec.getLsbD_zero
  · rw [lsl, if_neg hc, BitVec.getLsbD_and, mask_getLsbD, BitVec.getLsbD_shiftLeft]
    by_cases hck : c ≤ k
    · simp [hk, hck, Nat.not_lt.mpr hck, Bool.and_comm]
    · simp [hk, hck, Nat.not_le.mp hck]

theorem lsr_getLsbD {sz : Size} {v : Word} (hv : getSized sz v = v) (c k : Nat) :
    (lsr sz v c).getLsbD k = v.getLsbD (k + c) := by
  by_cases hc : bits sz ≤ c
  · rw [lsr, if_pos hc, getLsbD_of_masked hv (by omega)]
    exact BitVec.getLsbD_zero
  · rw [lsr, if_neg hc, BitVec.getLsbD_ushiftRight, Nat.add_comm]

theorem sext_eq_signExtend (sz : Size) (v : Word) : sext sz v = (v.setWidth (bits sz)).signExtend 32 := by
  cases sz with
  | b => rfl
  | w => rfl
  | l => rw [show bits .l = 32 from rfl, BitVec.setWidth_eq, BitVec.signExtend_eq]; rfl

/-- Sign extension repeats the sign bit above the width (00_scope.md R11). -/
theorem sext_getLsbD (sz : Size) (v : Word) {k : Nat} (hk : k < 32) :
    (sext sz v).getLsbD k = if k < bits sz then v.getLsbD k else v.getLsbD (bits sz - 1) := by
  have hb := bits_pos sz
  rw [sext_eq_signExtend, BitVec.getLsbD_signExtend, decide_eq_true hk, Bool.true_and, BitVec.msb_eq_getLsbD_last,
    BitVec.getLsbD_setWidth, BitVec.getLsbD_setWidth, decide_eq_true (by omega : bits sz - 1 < bits sz), Bool.true_and]
  split
  · next h => rw [decide_eq_true h, Bool.true_and]
  · rfl

theorem sext_getLsbD_sign (sz : Size) (v : Word) {k : Nat} (hk : k < 32) (h : bits sz - 1 ≤ k) :
    (sext sz v).getLsbD k = v.getLsbD (bits sz - 1) := by
  rw [sext_getLsbD sz v hk]
  split
  · congr 1
    omega
  · rfl

/-- The arithmetic shift is the shift of the sign-extended word, whose sign is the value's. -/
theorem asr_getLsbD (sz : Size) (v : Word) (c : Nat) {k : Nat} (hk : k < 32) :
    (asr sz v c).getLsbD k =
      (decide (k < bits sz) && if k + c < bits sz then v.getLsbD (k + c) else v.getLsbD (bits sz - 1)) := by
  have hb := bits_pos sz
  have hb' := bits_le sz
  have hmsb : (sext sz v).msb = v.getLsbD (bits sz - 1) := by
    rw [BitVec.msb_eq_getLsbD_last, sext_getLsbD_sign sz v (by omega) (by omega)]
  rw [asr, BitVec.getLsbD_and, mask_getLsbD, BitVec.getLsbD_sshiftRight, hmsb, Bool.and_comm]
  by_cases hkb : k < bits sz
  · rw [decide_eq_true hkb, decide_eq_false (by omega : ¬ 32 ≤ k), Bool.not_false, Bool.true_and, Bool.true_and,
      Bool.true_and]
    by_cases hc : k + c < bits sz
    · rw [if_pos hc, if_pos (by omega), sext_getLsbD sz v (by omega), if_pos (by omega), Nat.min_eq_left (by omega),
        Nat.add_comm]
    · rw [if_neg hc]
      split
      · next h => exact sext_getLsbD_sign sz v h (by omega)
      · rfl
  · rw [decide_eq_false hkb, Bool.false_and, Bool.false_and]

/-- A count past the width shifts everything out: the sign bit fills an arithmetic shift, 0 the others. -/
theorem asr_of_le (sz : Size) (v : Word) {c : Nat} (hc : bits sz ≤ c) :
    asr sz v c = if v.getLsbD (bits sz - 1) then mask sz else 0#32 := by
  apply BitVec.eq_of_getLsbD_eq
  intro k hk
  rw [asr_getLsbD sz v c hk, if_neg (by omega)]
  cases v.getLsbD (bits sz - 1) with
  | true => rw [if_pos rfl, mask_getLsbD, Bool.and_true]
  | false => rw [if_neg (by decide), BitVec.getLsbD_zero, Bool.and_false]

theorem lsl_zero {sz : Size} {v : Word} (hv : getSized sz v = v) : lsl sz v 0 = v := by
  rw [lsl, if_neg (Nat.not_le.mpr (bits_pos sz)), BitVec.shiftLeft_zero]
  exact hv

theorem lsr_zero (sz : Size) (v : Word) : lsr sz v 0 = v := by
  rw [lsr, if_neg (Nat.not_le.mpr (bits_pos sz)), BitVec.ushiftRight_zero]

theorem asr_zero {sz : Size} {v : Word} (hv : getSized sz v = v) : asr sz v 0 = v := by
  refine eq_of_masked_bits (getSized_getSized sz _) hv fun k hk => ?_
  have := bits_le sz
  rw [asr_getLsbD sz v 0 (by omega), Nat.add_zero, if_pos hk, decide_eq_true hk, Bool.true_and]

/-! ### The last bit shifted out (R141) -/

theorem shiftCarry_zero (tag : Strategy) (n : Nat) (v : Word) : shiftCarry tag n v 0 = false := by
  unfold shiftCarry
  exact if_pos rfl

/-- Settles O14: bit by bit; at the count 0 and past the width the bits are those of the value, of the sign or none. -/
theorem shiftCorners : Obligations.ShiftCorners := by
  intro sz v c hv
  refine ⟨fun k hk => ⟨lsl_getLsbD sz v c hk, lsr_getLsbD hv c k, asr_getLsbD sz v c hk⟩, fun hc => ?_, ?_, ?_,
    fun h0 hc => ?_, fun hc => ?_⟩
  · exact ⟨asr_of_le sz v hc, by rw [lsl, if_pos hc]; rfl, by rw [lsr, if_pos hc]; rfl⟩
  · exact ⟨lsl_zero hv, lsr_zero sz v, asr_zero hv⟩
  · exact fun tag _ => shiftCarry_zero tag _ v
  · have hne : c ≠ 0 := by omega
    simp [shiftCarry, hne, hc]
  · have hne : c ≠ 0 := by omega
    simp [shiftCarry, hne, Nat.not_le.mpr hc]

/-! ### Rotates (R128) -/

theorem getSized_rol {sz : Size} {v : Word} (hv : getSized sz v = v) (c : Nat) : getSized sz (rol sz v c) = rol sz v c := by
  unfold rol
  simp only
  split
  · exact hv
  · exact getSized_getSized sz _

theorem getSized_ror {sz : Size} {v : Word} (hv : getSized sz v = v) (c : Nat) : getSized sz (ror sz v c) = ror sz v c := by
  unfold ror
  simp only
  split
  · exact hv
  · exact getSized_getSized sz _

/-- A bit's place after a rotation is one sum of the place and the count below the width, or one past it. -/
theorem add_mod_cases {k n : Nat} (c : Nat) (hk : k < n) :
    (k + c % n < n → (k + c) % n = k + c % n) ∧ (n ≤ k + c % n → (k + c) % n = k + c % n - n) := by
  have hc := Nat.mod_lt c (Nat.zero_lt_of_lt hk)
  have hmod : (k + c) % n = (k + c % n) % n := by rw [Nat.add_mod_mod]
  rw [hmod]
  refine ⟨fun h => Nat.mod_eq_of_lt h, fun h => ?_⟩
  rw [Nat.mod_eq_sub_mod h, Nat.mod_eq_of_lt (by omega)]

/-- A rotate right brings to bit `k` the bit `c` places above it, from the low end where that is past the width. -/
theorem ror_getLsbD {sz : Size} {v : Word} (hv : getSized sz v = v) (c : Nat) {k : Nat} (hk : k < bits sz) :
    (ror sz v c).getLsbD k = v.getLsbD ((k + c) % bits sz) := by
  have hb := bits_le sz
  obtain ⟨hin, hout⟩ := add_mod_cases c hk
  have hc := Nat.mod_lt c (bits_pos sz)
  unfold ror
  simp only
  split
  · next h0 => rw [hin (by omega), h0, Nat.add_zero]
  · next h0 =>
    rw [BitVec.getLsbD_and, mask_getLsbD, BitVec.getLsbD_or, BitVec.getLsbD_ushiftRight, BitVec.getLsbD_shiftLeft,
      decide_eq_true hk, Bool.and_true, decide_eq_true (by omega : k < 32), Bool.true_and]
    by_cases h : k + c % bits sz < bits sz
    · rw [hin h, decide_eq_true (by omega : k < bits sz - c % bits sz), Bool.not_true, Bool.false_and, Bool.or_false,
        Nat.add_comm]
    · rw [hout (by omega), getLsbD_of_masked hv (by omega), decide_eq_false (by omega), Bool.not_false, Bool.true_and,
        Bool.false_or]
      congr 1
      omega

/-- A rotate left moves bit `k` up by the count, to the low end where that is past the width. -/
theorem rol_getLsbD {sz : Size} {v : Word} (hv : getSized sz v = v) (c : Nat) {k : Nat} (hk : k < bits sz) :
    (rol sz v c).getLsbD ((k + c) % bits sz) = v.getLsbD k := by
  have hb := bits_le sz
  obtain ⟨hin, hout⟩ := add_mod_cases c hk
  have hj := Nat.mod_lt (k + c) (bits_pos sz)
  have hc := Nat.mod_lt c (bits_pos sz)
  unfold rol
  simp only
  split
  · next h0 => rw [hin (by omega), h0, Nat.add_zero]
  · next h0 =>
    rw [BitVec.getLsbD_and, mask_getLsbD, BitVec.getLsbD_or, BitVec.getLsbD_ushiftRight, BitVec.getLsbD_shiftLeft,
      decide_eq_true hj, Bool.and_true, decide_eq_true (by omega : (k + c) % bits sz < 32), Bool.true_and]
    by_cases h : k + c % bits sz < bits sz
    · rw [hin h, decide_eq_false (by omega), Bool.not_false, Bool.true_and, Nat.add_sub_cancel,
        getLsbD_of_masked hv (by omega : bits sz ≤ bits sz - c % bits sz + (k + c % bits sz)), Bool.or_false]
    · rw [hout (by omega), decide_eq_true (by omega), Bool.not_true, Bool.false_and, Bool.false_or]
      congr 1
      omega

/-- Settles O15: bit `k` goes to `k + c` modulo the width and comes back. -/
theorem rotatesInverse : Obligations.RotatesInverse := by
  intro sz v c hv
  refine ⟨fun k hk => ⟨rol_getLsbD hv c hk, ror_getLsbD hv c hk⟩, getSized_rol hv c, getSized_ror hv c, ?_⟩
  refine eq_of_masked_bits (getSized_ror (getSized_rol hv c) c) hv fun k hk => ?_
  rw [ror_getLsbD (getSized_rol hv c) c hk, rol_getLsbD hv c hk]

end Sys2Proof.Machine
end

section
/-! The status word, the condition tests and the change of mode (40_datapath.md R145, R146, R150; 10_state.md R23, R24). -/

namespace Sys2Proof.Machine

/-- Settles O16: the tests read the five flags alone, whose 32 values are checked. -/
theorem conditionTests : Obligations.ConditionTests := by
  intro s
  simp only [State.test]
  generalize s.flags = f
  obtain ⟨x, n, z, v, c⟩ := f
  revert x n z v c
  decide

theorem setSupervisorState_sameHost (b : Bool) (s : State) : SameHost s (s.setSupervisorState b) := by
  simp [SameHost]

/-- Settles O18: the lemmas on each part of the context. -/
theorem modeChangeKeepsStackPointers : Obligations.ModeChangeKeepsStackPointers := by
  intro b s
  exact ⟨setSupervisorState_sup b s, setSupervisorState_usp b s, setSupervisorState_ssp b s,
    fun _ hn => setSupervisorState_areg b s hn, setSupervisorState_dreg b s, setSupervisorState_pc b s,
    ⟨setSupervisorState_cc b s, setSupervisorState_xsrc b s⟩, setSupervisorState_mem b s, setSupervisorState_sameHost b s,
    setSupervisorState_draws b s, setSupervisorState_bus b s⟩

/-! ### `set_sr` -/

theorem setBoth_eq (r : CcRecord) (s : State) : setBoth r s = (s.withCc r).withXsrc r := (rfl)

/-- The five flags of a literal record are its bits (R142). -/
theorem setBoth_literalRecord_flags (b : BitVec 5) (s : State) :
    (setBoth (literalRecord b) s).flags =
      ⟨b.getLsbD 4, b.getLsbD 3, b.getLsbD 2, b.getLsbD 1, b.getLsbD 0⟩ := by
  simp [setBoth, State.flags, literalRecord, flagX, flagN, flagZ, flagV, flagC]

theorem packFlags_bits (b : BitVec 5) :
    packFlags ⟨b.getLsbD 4, b.getLsbD 3, b.getLsbD 2, b.getLsbD 1, b.getLsbD 0⟩ = b.toNat := by
  revert b
  decide

theorem setSr_flags (v : Half) (s : State) : (setSr v s).flags = (setBoth (literalRecord (v.setWidth 5)) s).flags :=
  setSupervisorState_flags _ _

theorem and_2000 (v : Half) : v &&& 0x2000#16 = BitVec.ofNat 16 ((v.getLsbD 13).toNat * 8192) := by
  cases h : v.getLsbD 13
  · ext i hi
    interval_cases i <;> simp_all
  · ext i hi
    interval_cases i <;> simp_all

theorem and_001F (v : Half) : v &&& 0x001F#16 = BitVec.ofNat 16 (v.setWidth 5).toNat := by
  apply BitVec.eq_of_toNat_eq
  rw [BitVec.toNat_and, show (0x001F#16).toNat = 2 ^ 5 - 1 from rfl, Nat.and_two_pow_sub_one_eq_mod,
    BitVec.toNat_setWidth, BitVec.toNat_ofNat]
  omega

/-- Bit 13 and bits 4 to 0 of a status word, put together (R145). -/
theorem statusBits (v : Half) :
    BitVec.ofNat 16 ((v.getLsbD 13).toNat * 8192 + (v.setWidth 5).toNat) = v &&& 0x201F#16 := by
  have hdisjoint : (v &&& 0x2000#16) &&& (v &&& 0x001F#16) = 0#16 := by
    rw [BitVec.and_assoc, ← BitVec.and_assoc 0x2000#16, BitVec.and_comm 0x2000#16, BitVec.and_assoc v]
    simp
  rw [BitVec.ofNat_add, ← and_2000, ← and_001F, BitVec.add_eq_or_of_and_eq_zero _ _ hdisjoint,
    ← BitVec.and_or_distrib_left]
  rfl

/-- The status word read after `set_sr` (R145, R146). -/
theorem setSr_sr (v : Half) (s : State) : (setSr v s).sr = v &&& 0x201F#16 := by
  rw [State.sr, setSr_flags, setBoth_literalRecord_flags, packFlags_bits]
  rw [setSr, setSupervisorState_sup, statusBits]

/-- Settles O17: `set_sr` writes both records, then changes the mode. -/
theorem statusWordReadsBack : Obligations.StatusWordReadsBack := by
  intro v s
  have hm := modeChangeKeepsStackPointers (v.getLsbD 13) (setBoth (literalRecord (v.setWidth 5)) s)
  obtain ⟨hsup, husp, hssp, ha, hd, hpc, ⟨hcc, hx⟩, hmem, hhost, hdr, hbus⟩ := hm
  exact ⟨setSr_sr v s, hcc, hx, hsup, husp, hssp, ha, hd, hpc, hmem, hhost, hdr, hbus⟩

end Sys2Proof.Machine
end

section
/-! Effective addresses and the requests to the address space (41_addressing_modes.md R166 to R177, 20_memory.md R50 to R65). -/

namespace Sys2Proof.Machine

/-! ### The index word (R92, R106, R172) -/

/-- Registers 0 to 7 of `R[k]` are the data registers, 8 to 15 the address registers (00_scope.md R12). -/
theorem State.rreg_append (s : State) (b : BitVec 1) (k : BitVec 3) :
    s.rreg (b ++ k) = if b = 1#1 then s.areg k else s.dreg k := by
  have hb : (b ++ k).getLsbD 3 = decide (b = 1#1) := by
    rw [BitVec.getLsbD_append, if_neg (by decide)]
    revert b
    decide
  have hk : (b ++ k).setWidth 3 = k := by
    ext i hi
    rw [BitVec.getElem_setWidth, BitVec.getLsbD_append, if_pos hi, BitVec.getLsbD_eq_getElem]
  rw [State.rreg, hk, hb]
  simp

theorem indexValue_long {ext : Word} (h : ext.getLsbD 11 = true) (s : State) :
    indexValue ext s = s.rreg (ext.extractLsb' 12 4) := if_pos h

theorem indexValue_word {ext : Word} (h : ext.getLsbD 11 = false) (s : State) :
    indexValue ext s = ((s.rreg (ext.extractLsb' 12 4)).setWidth 16).signExtend 32 := by
  rw [indexValue, if_neg (by rw [h]; decide), sext16_eq]

/-- Bits 10:8 of an index word are in none of its fields. -/
theorem indexWord_ignored (ext : Word) (s : State) :
    sext8 (ext &&& 0xF8FF#32) = sext8 ext ∧ indexValue (ext &&& 0xF8FF#32) s = indexValue ext s := by
  have h8 : (ext &&& 0xF8FF#32).setWidth 8 = ext.setWidth 8 := by
    ext i hi
    interval_cases i <;> simp
  have h4 : (ext &&& 0xF8FF#32).extractLsb' 12 4 = ext.extractLsb' 12 4 := by
    ext i hi
    interval_cases i <;> simp
  have h11 : (ext &&& 0xF8FF#32).getLsbD 11 = ext.getLsbD 11 := by simp
  exact ⟨by rw [sext8, h8, sext8], by rw [indexValue, indexValue, h4, h11]⟩

theorem memAddress_ignored (m : MemMode) (hm : m = .pcIndex ∨ ∃ n, m = .index n) (sz : Size) (off : Nat) (ext : Word)
    (s : State) : memAddress m sz off ext s = memAddress m sz off (ext &&& 0xF8FF#32) s := by
  obtain ⟨h8, hx⟩ := indexWord_ignored ext s
  rcases hm with rfl | ⟨n, rfl⟩ <;> simp only [memAddress, h8, hx]

/-- PC-relative operand reads are program accesses, all others data accesses (R52). -/
theorem memReadFc_eq (m : MemMode) (s : State) :
    memReadFc m s = if m = .pcDisp ∨ m = .pcIndex then s.programFc else s.dataFc := by
  cases m <;> simp [memReadFc, State.pcrelFc, Config.pcrelProgram]

theorem eaExtensionSize_imm (sz : Size) : eaExtensionSize .imm sz = if sz = .l then 4 else 2 := by cases sz <;> rfl

/-- Settles O20: each address and each extension size is a branch of its definition. -/
theorem indexWord : Obligations.IndexWord := by
  intro ext s sz off d8 d16 here
  refine ⟨fun n => ⟨rfl, rfl, rfl, rfl, rfl⟩, rfl, rfl, rfl, rfl, fun h => indexValue_long h s,
    fun h => indexValue_word h s, fun k => ⟨s.rreg_append 0#1 k, s.rreg_append 1#1 k⟩,
    fun m hm => memAddress_ignored m hm sz off ext s, fun m => memReadFc_eq m s, rfl, rfl,
    fun n => ⟨rfl, rfl, rfl, rfl, rfl, rfl, rfl⟩, fun m hm => ?_, rfl, eaExtensionSize_imm sz⟩
  simp only [List.mem_cons, List.not_mem_nil, or_false] at hm
  rcases hm with rfl | rfl | rfl <;> rfl

/-! ### Requests -/

theorem fetchSize_eq (sz : Size) : fetchSize sz = if sz = .l then .l else .w := by cases sz <;> rfl

/-- Byte `k` of a value in memory order, cut out by a shift (R53). -/
theorem beByte_eq_shift (sz : Size) (v : Word) (k : Nat) : beByte sz v k = (v >>> (8 * (bytes sz - 1 - k))).setWidth 8 := by
  apply BitVec.eq_of_toNat_eq
  rw [beByte, BitVec.extractLsb'_toNat, BitVec.toNat_setWidth, BitVec.toNat_ushiftRight]

/-- A loaded value holds each byte at its big-endian place (R53). -/
theorem State.peek_eq_beByte_load (s : State) (a : Word) (sz : Size) {k : Nat} (hk : k < bytes sz) :
    s.peek (byteAddr a k) = beByte sz (s.load a sz) k := by
  apply BitVec.eq_of_toNat_eq
  rw [beByte_toNat]
  have h0 := (s.peek (byteAddr a 0)).isLt
  have h1 := (s.peek (byteAddr a 1)).isLt
  have h2 := (s.peek (byteAddr a 2)).isLt
  have h3 := (s.peek (byteAddr a 3)).isLt
  cases sz with
  | b =>
    rw [State.load_b, beValue_b, BitVec.toNat_ofNat]
    simp only [bytes] at hk ⊢
    interval_cases k
    · simp; omega
  | w =>
    rw [State.load_w, beValue_w, BitVec.toNat_ofNat]
    simp only [bytes] at hk ⊢
    interval_cases k <;> simp <;> omega
  | l =>
    rw [State.load_l, beValue_l, BitVec.toNat_ofNat]
    simp only [bytes] at hk ⊢
    interval_cases k <;> simp <;> omega

/-- Settles O21: the laws of memory, with each byte cut out by a shift. -/
theorem storeThenLoad : Obligations.StoreThenLoad := by
  intro s a sz v
  refine ⟨fun fc h => memRead_ok h, fun off h => ?_, fun fc h => memWrite_ok h, getSized_load s a sz, fun k hk => ?_,
    fun ho => ?_⟩
  · rw [← fetchSize_eq] at h ⊢
    exact fetch_run h
  · rw [← beByte_eq_shift]
    exact s.peek_eq_beByte_load a sz hk
  · obtain ⟨hw, hb⟩ := ho
    refine ⟨s.load_store a sz v hw hb, fun k hk => ?_, fun x hx => s.store_peek_ne v hx⟩
    rw [← beByte_eq_shift]
    exact s.store_peek_byte a sz v hw hb hk

/-- Settles O22: the free value is masked to the size of the request. -/
theorem oracleReadGoesOn : Obligations.OracleReadGoesOn := by
  intro s fc a sz hg ho
  refine ⟨getSized sz (Config.freeRead s.draws), getSized_getSized sz _, ?_⟩
  simp [memRead, hg, ho, State.logRequest]

/-- Settles O23: `memRead` and `memWrite` where the request is not granted. -/
theorem rejectedRequestHasNoEffect : Obligations.RejectedRequestHasNoEffect := by
  intro s fc a v sz
  exact ⟨memRead_rejected, memWrite_rejected⟩

end Sys2Proof.Machine
end

section
/-! One step (30_encoding.md R86): its opcode fetch, the slots no collaborator holds, the Illegal slots, and the calls of
collaborators' handlers (47_system_control.md R262, R263). -/

namespace Sys2Proof.Machine

/-- Settles O3: each word is decoded. -/
theorem knownWordsDecode : Obligations.KnownWordsDecode :=
  ⟨by decide, by decide, by decide, by decide, by decide, by decide, by decide, by decide, by decide⟩

/-! ### What a step does after its opcode fetch -/

/-- The opcode word a step fetches where memory answers. -/
def State.opcode (s : State) : Half := (s.load s.pc .w).setWidth 16

/-- The state after that fetch: its request alone is recorded. -/
def State.fetched (s : State) : State := s.withBus [.get s.programFc s.pc .w]

theorem step_of_readable {s : State} (h : s.readable s.programFc s.pc .w = true) :
    step s = dispatchOpcode exec s.opcode s.fetched := by
  rw [step, fetchOpcode_ok h]
  rfl

theorem step_of_rejected {s : State} (h : s.granted s.programFc .read s.pc .w = false) :
    step s = .fault (.busError s.pc s.programFc .read none s.pc s.fetched) := by
  rw [step, fetchOpcode_rejected h]
  rfl

theorem dispatchOpcode_installed {run : Instr → State → Host.Outcome State Fault Refusal} {op : Half} {s : State}
    {p : Installation} (h : findInstallation s.installed op = some p) : dispatchOpcode run op s = runCollab p op s := by
  rw [dispatchOpcode, h]

theorem dispatchOpcode_decoded {run : Instr → State → Host.Outcome State Fault Refusal} {op : Half} {s : State}
    {i : Instr} (h : findInstallation s.installed op = none) (hd : decodeOp op = some i) :
    dispatchOpcode run op s = run i s := by
  rw [dispatchOpcode, h]
  simp only [hd]

theorem dispatchOpcode_undecoded {run : Instr → State → Host.Outcome State Fault Refusal} {op : Half} {s : State}
    (h : findInstallation s.installed op = none) (hd : decodeOp op = none) :
    dispatchOpcode run op s = runIllegal op s := by
  rw [dispatchOpcode, h]
  simp only [hd]

/-- Settles O5: nothing is done around `exec`. -/
theorem stepRunsDecoded : Obligations.StepRunsDecoded := by
  intro s i hr hi hd
  rw [step_of_readable hr]
  exact dispatchOpcode_decoded hi hd

/-- Settles O7: the step ends at its one request. -/
theorem opcodeFetchBusError : Obligations.OpcodeFetchBusError := by
  intro s h
  exact step_of_rejected h

/-! ### Illegal slots (R105, R107, R263) -/

/-- A slot is Illegal where no collaborator holds it and the word is that of no row but the TRAP slot's. -/
theorem tableEntry_illegal {s : State} {op : Half} (h : (s.tableEntry op).1 = .illegal) :
    findInstallation s.installed op = none ∧ (decodeOp op = none ∨ ∃ n, decodeOp op = some (.trap n)) := by
  unfold State.tableEntry at h
  split at h
  · cases h
  · next hi =>
    refine ⟨hi, ?_⟩
    change baseHandler op = .illegal at h
    unfold baseHandler at h
    split at h
    · next hd => exact .inl hd
    · next n hd => exact .inr ⟨n, hd⟩
    · cases h

/-- The meaning of an uninstalled TRAP slot is the Illegal handler. -/
theorem execTrap_of_none {vector : BitVec 4} {s : State} (h : findInstallation s.installed (encode (.trap vector)) = none) :
    execTrap vector s = runIllegal (encode (.trap vector)) s := by
  rw [execTrap, h]

theorem dispatchOpcode_illegal {op : Half} {s : State} (h : (s.tableEntry op).1 = .illegal) :
    dispatchOpcode exec op s = runIllegal op s := by
  obtain ⟨hi, hd | ⟨n, hd⟩⟩ := tableEntry_illegal h
  · exact dispatchOpcode_undecoded hi hd
  · obtain ⟨-, rfl⟩ := encodeOfDecode op _ hd
    rw [dispatchOpcode_decoded hi hd]
    exact execTrap_of_none hi

/-- Settles O6: the Illegal handler raises and changes nothing. -/
theorem illegalSlotFaults : Obligations.IllegalSlotFaults := by
  intro s hr h
  rw [step_of_readable hr]
  exact dispatchOpcode_illegal (s := s.fetched) h

/-! ### Collaborators' handlers (R262; log entry 15) -/

/-- Running a scripted record is its accesses in order, then its outcome. -/
theorem runProgram_scriptProgram (as : List HostAction) (outcome : Option Stop) (s : State) :
    runProgram (scriptProgram as outcome) s = returnFrom outcome (applyActions as s) := by
  induction as generalizing s with
  | nil => rfl
  | cons a as ih => exact ih (applyAction a s)

theorem callCollab_scripted {k : Nat} {op : Half} {aux : BitVec 64} {s : State} {r : CollabResponse}
    {rest : List CollabResponse} (h : s.collabIn = r :: rest) :
    callCollab k op aux s = returnFrom r.outcome (applyActions r.actions (s.withCollabIn rest)) := by
  rw [callCollab, nextProgram, h]
  exact runProgram_scriptProgram r.actions r.outcome (s.withCollabIn rest)

theorem callCollab_free {k : Nat} {op : Half} {aux : BitVec 64} {s : State} (h : s.collabIn = []) :
    callCollab k op aux s = runProgram (Config.collab k op aux s.draws) (s.withDraws (s.draws + 1)) := by
  rw [callCollab, nextProgram, h]

/-- A step at a collaborator's slot whose record is scripted. -/
theorem runCollab_scripted {p : Installation} {op : Half} {s : State} {r : CollabResponse} {rest : List CollabResponse}
    (h : s.collabIn = r :: rest) :
    runCollab p op s =
      outcomeOf (some op) s.pc (returnFrom r.outcome (applyActions r.actions (s.withCollabIn rest))) := by
  rw [runCollab, callCollab_scripted h]

/-- One read by a handler: it goes on with the value, or with none where the request was rejected. -/
theorem runProgram_get (next : Option Word → CollabProgram) (fc : FunctionCode) (a : Word) (sz : Size) (t : State) :
    runProgram (.act (.get fc a sz) next) t =
      runProgram (next (answer (memRead fc a sz) t)) (attempt (memRead fc a sz) t) := (rfl)

theorem step_installed {s : State} {p : Installation} (hr : s.readable s.programFc s.pc .w = true)
    (hp : findInstallation s.installed s.opcode = some p) : step s = runCollab p s.opcode s.fetched := by
  rw [step_of_readable hr, dispatchOpcode_installed (s := s.fetched) hp]

/-- Settles O8: the next scripted record, else the free program; and a program's reads, one at a time. -/
theorem stepCallsCollaborator : Obligations.StepCallsCollaborator := by
  refine ⟨?_, fun next t => rfl, ?_⟩
  · intro s p op u hr hp
    constructor
    · intro r rest hin
      rw [step_installed hr hp, runCollab_scripted (s := s.fetched) hin]
      cases r.outcome with
      | none => rfl
      | some e => cases e <;> rfl
    · intro hin
      rw [step_installed hr hp, runCollab, callCollab_free (s := s.fetched) hin]
      rfl
  · intro next fc a sz t u
    constructor
    · intro h
      rw [runProgram_get, answer, attempt, memRead_ok h]
    · intro h
      rw [runProgram_get, answer, attempt, memRead_rejected h]

/-! ### Reset -/

theorem reset_dreg (n : RegNum) : State.reset.dreg n = 0#32 := by simp [State.dreg, State.reset]

theorem reset_areg (n : RegNum) : State.reset.areg n = 0#32 := by simp [State.areg, State.reset]

/-- Settles O27: with no installation every slot is the base table's. -/
theorem resetContext : Obligations.ResetContext :=
  ⟨reset_dreg, reset_areg, rfl, rfl, by decide, fun _ => rfl⟩

end Sys2Proof.Machine
end

section
/-! Data movement (42_data_movement.md R190 to R193) and Scc (46_program_control.md R245): the result, the flags, the requests
and the frame of each meaning whose requests are granted and answered from memory. -/

namespace Sys2Proof.Machine

/-! ### MOVE (R190) -/

theorem exec_moveInstr (sz : Size) (src dst : Ea) (s : State) :
    exec (moveInstr sz src dst) s = runBase (moveInstr sz src dst) (move sz src dst) s := by cases sz <;> rfl

theorem instrLength_moveInstr (sz : Size) (src dst : Ea) :
    instrLength (moveInstr sz src dst) = 2 + eaExtensionSize src sz + eaExtensionSize dst sz := by cases sz <;> rfl

theorem isDataAlterable_of_moveInstr_wf {sz : Size} {src dst : Ea} (h : (moveInstr sz src dst).wf = true) :
    isDataAlterable dst = true := by
  cases sz
  · simp only [moveInstr, Instr.wf, Bool.and_eq_true] at h
    exact h.2
  · exact h
  · exact h

/-- The requests of MOVE up to its write. -/
def moveReads (s : State) (sz : Size) (src dst : Ea) : List Request :=
  s.bus ++ extRequests s src sz 2 ++ extRequests s dst sz (2 + eaExtensionSize src sz) ++ readRequests s src sz 2

/-- MOVE up to its write: both operands constructed, the source read, the flags set (R190). -/
theorem move_run {sz : Size} {src dst : Ea} {s : State} (h1 : extReadable s src sz 2 = true)
    (h2 : extReadable s dst sz (2 + eaExtensionSize src sz) = true) (h3 : operandReadable s src sz 2 = true) :
    let off := 2 + eaExtensionSize src sz
    let rs : Resolver := ⟨src, sz, 2, extValue s src sz 2⟩
    let rd : Resolver := ⟨dst, sz, off, extValue s dst sz off⟩
    move sz src dst s =
      (do rd.put (operandValue s src sz 2); rs.finish; rd.finish; advance (off + eaExtensionSize dst sz))
        ((setCc sz (operandValue s src sz 2) s).withBus (moveReads s sz src dst)) := by
  intro off rs rd
  rw [move, bind_ok (construct_ok h1)]
  simp only [Resolver.extensionSize_mk]
  rw [bind_ok (construct_withBus_ok h2 _), bind_ok (Resolver.get_withBus_ok h3 _), bind_ok (modifies_run _ _)]
  rfl

/-- The flags of a state that has the records `set_cc` leaves. -/
theorem flags_of_setCc {sz : Size} {v : Word} {s t : State} (hv : getSized sz v = v) (hc : t.cc = (setCc sz v s).cc)
    (hx : t.xsrc = s.xsrc) : t.flags = moveFlags s sz v := by
  rw [← setCc_flags sz v s hv]
  exact State.flags_congr hc hx

/-- The end of MOVE: the write, then `finish` of both operands (R190). -/
theorem put_finish_finish_advance {src dst : Ea} {sz : Size} {off : Nat} {v : Word} {s : State} (ext : Word)
    (c : CcRecord) (b : List Request) (n : Nat) (hea : isDataAlterable dst = true)
    (hw : operandWritable s dst sz off = true) :
    let rd : Resolver := ⟨dst, sz, off, extValue s dst sz off⟩
    ∃ t, (do rd.put v; (Resolver.mk src sz 2 ext).finish; rd.finish; advance n) ((s.withCc c).withBus b) = .ok () t ∧
      Wrote dst sz off v s t ∧ t.cc = c ∧ t.xsrc = s.xsrc ∧
      (∀ i, t.areg i = s.areg i + finishDelta src sz i + finishDelta dst sz i) ∧ t.pc = s.pc + BitVec.ofNat 32 n ∧
      t.bus = b ++ writeRequests s dst sz off v ∧ SameSystem s t ∧ t.draws = s.draws := by
  intro rd
  generalize hu : (s.withCc c).withBus b = u
  have ha : ∀ m, memAddress m sz off (extValue s dst sz off) u = memAddress m sz off (extValue s dst sz off) s := by
    subst hu; simp
  have hb : (afterPut dst sz off (extValue s dst sz off) v u).bus = b ++ writeRequests s dst sz off v := by
    subst hu
    cases dst <;> simp [afterPut, writeRequests, operandAddr]
  refine ⟨(afterFinish dst sz (afterFinish src sz (afterPut dst sz off (extValue s dst sz off) v u))).withPc
    (s.pc + BitVec.ofNat 32 n), ?_, ?_, ?_, ?_, ?_, ?_, ?_, ?_, ?_⟩
  · rw [bind_ok (Resolver.put_run hw (by subst hu; intro a; rfl) ha), bind_ok (Resolver.finish_run _ _ _ _ _),
      bind_ok (Resolver.finish_run _ _ _ _ _), advance_run]
    simp [← hu]
  · exact (wrote_afterPut (u := u) hea (by subst hu; rfl) (by subst hu; rfl) (by subst hu; rfl) ha).congr (by simp)
      (by simp) (by simp)
  · simp [← hu]
  · simp [← hu]
  · intro i
    simp [afterFinish_areg, afterPut_areg hea, ← hu]
  · simp
  · simpa using hb
  · simp [SameSystem, SameHost, ← hu]
  · simp [← hu]

/-- Settles O28: the meaning up to its write, then its end. -/
theorem moveResult : Obligations.MoveResult := by
  intro sz src dst s i off v hw h1 h2 h3 h4
  have hea := isDataAlterable_of_moveInstr_wf hw
  obtain ⟨t, hrun, hwrote, hc, hx, ha, hpc, hbus, hsys, hdr⟩ := put_finish_finish_advance (src := src) (v := v)
    (extValue s src sz 2) (setCc sz v s).cc (moveReads s sz src dst) (off + eaExtensionSize dst sz) hea h4
  refine ⟨t, ?_, hwrote, flags_of_setCc (operandValue_masked s src sz 2) hc hx, hx, ha, ?_, hbus, hsys, hdr⟩
  · rw [exec_moveInstr]
    exact runBase_ok hw ((move_run h1 h2 h3).trans hrun)
  · rw [hpc, instrLength_moveInstr]

/-- A memory write that is rejected, at the address and with the function code of `s`. -/
theorem Resolver.put_rejected {m : MemMode} {sz : Size} {off : Nat} {ext v : Word} {s : State}
    (h : s.granted s.dataFc .write (memAddress m sz off ext s) sz = false) :
    (Resolver.mk (.mem m) sz off ext).put v s =
      .error (.busError (memAddress m sz off ext s) s.dataFc .write)
        (s.withBus (s.bus ++ [.put s.dataFc (memAddress m sz off ext s) sz (getSized sz v)])) := memWrite_rejected h

/-- Settles O29: the write is the first step of what is left to do. -/
theorem moveWriteBusError : Obligations.MoveWriteBusError := by
  intro sz src m s i off v a hw h1 h2 h3 h4
  have ha : memAddress m sz off (extValue s (.mem m) sz off) ((setCc sz v s).withBus (moveReads s sz src (.mem m))) = a := by
    simp [a, operandAddr, setCc]
  have hput := Resolver.put_rejected (m := m) (sz := sz) (off := off) (ext := extValue s (.mem m) sz off) (v := v)
    (s := (setCc sz v s).withBus (moveReads s sz src (.mem m))) (by rw [ha]; exact h4)
  rw [ha] at hput
  have hexec := runBase_error (i := i) hw ((move_run h1 h2 h3).trans (bind_error hput))
  rw [← exec_moveInstr] at hexec
  exact ⟨_, hexec, flags_of_setCc (operandValue_masked s src sz 2) rfl rfl, rfl⟩

/-! ### Meanings that write a register and end with `finish` -/

/-- The end of every meaning that writes no operand: `finish`, and the pc past the instruction. -/
theorem finish_advance_run (ea : Ea) (sz : Size) (off : Nat) (ext : Word) (n : Nat) (s : State) :
    (do (Resolver.mk ea sz off ext).finish; advance n) s =
      .ok () ((afterFinish ea sz s).withPc (s.pc + BitVec.ofNat 32 n)) := by
  rw [bind_ok (Resolver.finish_run _ _ _ _ _), advance_run, afterFinish_pc]

/-- MOVEA (R191): the register is written before `finish`. -/
theorem movea_run (sz : Size) {src : Ea} (an : RegNum) {s : State} (h1 : extReadable s src sz 2 = true)
    (h2 : operandReadable s src sz 2 = true) :
    let b := s.bus ++ extRequests s src sz 2 ++ readRequests s src sz 2
    movea sz src an s =
      .ok () ((afterFinish src sz ((s.withBus b).writeA an (addressValue sz (operandValue s src sz 2)))).withPc
        (s.pc + BitVec.ofNat 32 (2 + eaExtensionSize src sz))) := by
  intro b
  rw [movea, bind_ok (construct_ok h1), bind_ok (Resolver.get_withBus_ok h2 _), bind_ok (modifies_run _ _)]
  exact finish_advance_run _ _ _ _ _ _

theorem movea_result (sz : Size) {src : Ea} (an : RegNum) {s : State} (h1 : extReadable s src sz 2 = true)
    (h2 : operandReadable s src sz 2 = true) :
    ∃ t, movea sz src an s = .ok () t ∧
      t.areg an = addressValue sz (operandValue s src sz 2) + finishDelta src sz an ∧
      (∀ n, n ≠ an → t.areg n = s.areg n + finishDelta src sz n) ∧ SameD s t ∧ SameMemory s t ∧ SameCc s t ∧
      t.pc = s.pc + BitVec.ofNat 32 (2 + eaExtensionSize src sz) ∧
      t.bus = s.bus ++ extRequests s src sz 2 ++ readRequests s src sz 2 ∧ SameSystem s t ∧ t.draws = s.draws := by
  refine ⟨_, movea_run sz an h1 h2, ?_⟩
  simp +contextual [afterFinish_areg, State.writeA_areg, SameD, SameMemory, SameCc, SameSystem, SameHost]

/-- Settles O30: both sizes are `movea_result`. -/
theorem moveaResult : Obligations.MoveaResult := by
  intro src an s p hp h1 h2
  simp only [List.mem_cons, List.not_mem_nil, or_false] at hp
  rcases hp with rfl | rfl
  · obtain ⟨t, hrun, hrest⟩ := movea_result .w an h1 h2
    exact ⟨t, runBase_ok (i := .moveaW src an) rfl hrun, hrest⟩
  · obtain ⟨t, hrun, hrest⟩ := movea_result .l an h1 h2
    exact ⟨t, runBase_ok (i := .moveaL src an) rfl hrun, hrest⟩

/-- Settles O31: the register, the record and the pc are all it writes. -/
theorem moveqResult : Obligations.MoveqResult := by
  intro dn data s
  have hm : getSized .l (data.signExtend 32) = data.signExtend 32 := getSized_of_lt (BitVec.isLt _)
  have hrun : moveqBody dn data s = .ok () ((setCc .l (data.signExtend 32) (s.writeD dn (data.signExtend 32))).withPc
    (s.pc + 2#32)) := rfl
  refine ⟨_, runBase_ok (i := .moveq dn data) rfl hrun, ?_, ?_, flags_of_setCc hm rfl rfl, rfl, rfl, fun _ => rfl,
    fun _ => rfl, ⟨rfl, rfl, rfl, rfl, rfl, rfl, rfl, rfl⟩, rfl, rfl⟩
  · exact State.writeD_dreg_self dn _ s
  · exact fun n hn => State.writeD_dreg_ne _ s hn

/-! ### Meanings that write an operand without reading it -/

/-- Settles O32: the destination is constructed and written. -/
theorem moveFromSrResult : Obligations.MoveFromSrResult := by
  intro dst s hw h1 h2
  obtain ⟨t, hrun, hwrote, hc, hx, ha, hpc, hbus, hsys, hdr⟩ := put_finish_advance (v := s.sr.setWidth 32) s.cc s.xsrc s.draws
    (s.bus ++ extRequests s dst .w 2) (2 + eaExtensionSize dst .w) hw h2
  refine ⟨t, runBase_ok (i := .moveFromSr dst) hw ?_, hwrote, ⟨hc, hx⟩, ha, hpc, hbus, hsys, hdr⟩
  rw [moveFromSrBody, bind_ok (construct_ok h1), bind_ok (reads_run _ _)]
  exact hrun

/-- Settles O44: the same with the byte the condition chooses. -/
theorem sccResult : Obligations.SccResult := by
  intro cond dst s v hw h1 h2
  obtain ⟨t, hrun, hwrote, hc, hx, ha, hpc, hbus, hsys, hdr⟩ := put_finish_advance (v := v) s.cc s.xsrc s.draws
    (s.bus ++ extRequests s dst .b 2) (2 + eaExtensionSize dst .b) hw h2
  refine ⟨t, runBase_ok (i := .scc cond dst) hw ?_, hwrote, ⟨hc, hx⟩, ha, hpc, hbus, hsys, hdr⟩
  rw [sccBody, bind_ok (construct_ok h1), bind_ok (reads_run _ _)]
  exact hrun

end Sys2Proof.Machine
end

section
/-! Integer arithmetic (43_integer_arithmetic.md R200 to R205): each sequence once, for any micro-op and setter, then ADD, SUB,
CMP and ADDQ at the three sizes. -/

namespace Sys2Proof.Machine

/-! ### The sequences -/

/-- ADD and SUB <ea>,Dn, `c` and `x` being the records the setter leaves (R200, R203). -/
theorem arithToReg_run {f : Size → Word → Word → Word} {setf : Size → Word → Word → Word → State → State} {sz : Size}
    {src : Ea} {dn : RegNum} {s : State} {c x : CcRecord} (h1 : extReadable s src sz 2 = true)
    (h2 : operandReadable s src sz 2 = true)
    (hs : ∀ b, setf sz (f sz (getSized sz (s.dreg dn)) (operandValue s src sz 2)) (getSized sz (s.dreg dn))
      (operandValue s src sz 2) (s.withBus b) = ((s.withCc c).withXsrc x).withBus b) :
    let b := s.bus ++ extRequests s src sz 2 ++ readRequests s src sz 2
    let r := f sz (getSized sz (s.dreg dn)) (operandValue s src sz 2)
    arithToReg f setf sz src dn s =
      .ok () ((afterFinish src sz ((((s.withCc c).withXsrc x).withBus b).writeD dn (putSized sz (s.dreg dn) r))).withPc
        (s.pc + BitVec.ofNat 32 (2 + eaExtensionSize src sz))) := by
  intro b r
  rw [arithToReg, bind_ok (construct_ok h1), bind_ok (Resolver.get_withBus_ok h2 _), bind_ok (reads_run _ _)]
  simp only [State.withBus_dreg]
  rw [bind_ok (modifies_run _ _), hs, bind_ok (modifies_run _ _)]
  exact finish_advance_run _ _ _ _ _ _

theorem arithToReg_result {f : Size → Word → Word → Word} {setf : Size → Word → Word → Word → State → State} {sz : Size}
    {src : Ea} {dn : RegNum} {s : State} (c x : CcRecord) (h1 : extReadable s src sz 2 = true)
    (h2 : operandReadable s src sz 2 = true)
    (hs : ∀ b, setf sz (f sz (getSized sz (s.dreg dn)) (operandValue s src sz 2)) (getSized sz (s.dreg dn))
      (operandValue s src sz 2) (s.withBus b) = ((s.withCc c).withXsrc x).withBus b) :
    ∃ t, arithToReg f setf sz src dn s = .ok () t ∧
      t.dreg dn = putSized sz (s.dreg dn) (f sz (getSized sz (s.dreg dn)) (operandValue s src sz 2)) ∧
      SameDBut dn s t ∧ t.flags = ((s.withCc c).withXsrc x).flags ∧ (∀ n, t.areg n = s.areg n + finishDelta src sz n) ∧
      SameMemory s t ∧ t.pc = s.pc + BitVec.ofNat 32 (2 + eaExtensionSize src sz) ∧
      t.bus = s.bus ++ extRequests s src sz 2 ++ readRequests s src sz 2 ∧ SameSystem s t ∧ t.draws = s.draws := by
  refine ⟨_, arithToReg_run h1 h2 hs, ?_⟩
  simp +contextual [afterFinish_areg, State.writeD_dreg, SameDBut, SameMemory, SameSystem, SameHost]

/-- ADD and SUB Dn,<ea> (R201, R204). -/
theorem arithToMem_result {f : Size → Word → Word → Word} {setf : Size → Word → Word → Word → State → State} {sz : Size}
    {dst : Ea} {dn : RegNum} {s : State} (c x : CcRecord) (h1 : extReadable s dst sz 2 = true)
    (h2 : operandReadable s dst sz 2 = true) (h3 : operandWritable s dst sz 2 = true)
    (hda : isDataAlterable dst = true)
    (hs : ∀ b, setf sz (f sz (operandValue s dst sz 2) (getSized sz (s.dreg dn))) (operandValue s dst sz 2)
      (getSized sz (s.dreg dn)) (s.withBus b) = ((s.withCc c).withXsrc x).withBus b) :
    let r := f sz (operandValue s dst sz 2) (getSized sz (s.dreg dn))
    ∃ t, arithToMem f setf sz dn dst s = .ok () t ∧ Wrote dst sz 2 r s t ∧ t.flags = ((s.withCc c).withXsrc x).flags ∧
      (∀ n, t.areg n = s.areg n + finishDelta dst sz n) ∧ t.pc = s.pc + BitVec.ofNat 32 (2 + eaExtensionSize dst sz) ∧
      t.bus = s.bus ++ extRequests s dst sz 2 ++ readRequests s dst sz 2 ++ writeRequests s dst sz 2 r ∧
      SameSystem s t ∧ t.draws = s.draws := by
  intro r
  obtain ⟨t, hrun, hwrote, hc, hx, hrest⟩ := put_finish_advance (v := r) c x s.draws
    (s.bus ++ extRequests s dst sz 2 ++ readRequests s dst sz 2) (2 + eaExtensionSize dst sz) hda h3
  refine ⟨t, ?_, hwrote, State.flags_congr hc hx, hrest⟩
  rw [arithToMem, bind_ok (construct_ok h1), bind_ok (Resolver.get_withBus_ok h2 _), bind_ok (reads_run _ _)]
  simp only [State.withBus_dreg]
  rw [bind_ok (modifies_run _ _), hs]
  exact hrun

/-- CMP (R205). -/
theorem cmpToReg_result {sz : Size} {src : Ea} (dn : RegNum) {s : State} (h1 : extReadable s src sz 2 = true)
    (h2 : operandReadable s src sz 2 = true) :
    let d := getSized sz (s.dreg dn)
    let v := operandValue s src sz 2
    ∃ t, cmpToReg sz src dn s = .ok () t ∧ t.flags = cmpFlags s sz d v ∧ t.xsrc = s.xsrc ∧ SameD s t ∧
      (∀ n, t.areg n = s.areg n + finishDelta src sz n) ∧ SameMemory s t ∧
      t.pc = s.pc + BitVec.ofNat 32 (2 + eaExtensionSize src sz) ∧
      t.bus = s.bus ++ extRequests s src sz 2 ++ readRequests s src sz 2 ∧ SameSystem s t ∧ t.draws = s.draws := by
  intro d v
  have hrun : cmpToReg sz src dn s = .ok () ((afterFinish src sz (setCcCmp sz (sub sz d v) d v
      (s.withBus (s.bus ++ extRequests s src sz 2 ++ readRequests s src sz 2)))).withPc
      (s.pc + BitVec.ofNat 32 (2 + eaExtensionSize src sz))) := by
    rw [cmpToReg, bind_ok (construct_ok h1), bind_ok (Resolver.get_withBus_ok h2 _), bind_ok (reads_run _ _),
      bind_ok (modifies_run _ _)]
    exact finish_advance_run _ _ _ _ _ _
  refine ⟨_, hrun, ?_, ?_⟩
  · rw [State.withPc_flags, afterFinish_flags, setCcCmp_flags]
    rfl
  · simp [setCcCmp, afterFinish_areg, SameD, SameMemory, SameSystem, SameHost]

/-! ### By size -/

theorem exec_addToRegInstr (sz : Size) (src : Ea) (dn : RegNum) (s : State) :
    exec (addToRegInstr sz src dn) s = runBase (addToRegInstr sz src dn) (arithToReg add setCcAsAdd sz src dn) s := by
  cases sz <;> rfl

theorem exec_subToRegInstr (sz : Size) (src : Ea) (dn : RegNum) (s : State) :
    exec (subToRegInstr sz src dn) s = runBase (subToRegInstr sz src dn) (arithToReg sub setCcSub sz src dn) s := by
  cases sz <;> rfl

theorem exec_addToMemInstr (sz : Size) (dn : RegNum) (dst : Ea) (s : State) :
    exec (addToMemInstr sz dn dst) s = runBase (addToMemInstr sz dn dst) (arithToMem add setCcAsAdd sz dn dst) s := by
  cases sz <;> rfl

theorem exec_subToMemInstr (sz : Size) (dn : RegNum) (dst : Ea) (s : State) :
    exec (subToMemInstr sz dn dst) s = runBase (subToMemInstr sz dn dst) (arithToMem sub setCcSub sz dn dst) s := by
  cases sz <;> rfl

theorem exec_cmpInstr (sz : Size) (src : Ea) (dn : RegNum) (s : State) :
    exec (cmpInstr sz src dn) s = runBase (cmpInstr sz src dn) (cmpToReg sz src dn) s := by cases sz <;> rfl

theorem exec_addqInstr (sz : Size) (q : BitVec 3) (dst : Ea) (s : State) :
    exec (addqInstr sz q dst) s = runBase (addqInstr sz q dst) (addq sz q dst) s := by cases sz <;> rfl

theorem instrLength_addToRegInstr (sz : Size) (src : Ea) (dn : RegNum) :
    instrLength (addToRegInstr sz src dn) = 2 + eaExtensionSize src sz := by cases sz <;> rfl

theorem instrLength_subToRegInstr (sz : Size) (src : Ea) (dn : RegNum) :
    instrLength (subToRegInstr sz src dn) = 2 + eaExtensionSize src sz := by cases sz <;> rfl

theorem instrLength_addToMemInstr (sz : Size) (dn : RegNum) (dst : Ea) :
    instrLength (addToMemInstr sz dn dst) = 2 + eaExtensionSize dst sz := by cases sz <;> rfl

theorem instrLength_subToMemInstr (sz : Size) (dn : RegNum) (dst : Ea) :
    instrLength (subToMemInstr sz dn dst) = 2 + eaExtensionSize dst sz := by cases sz <;> rfl

theorem instrLength_cmpInstr (sz : Size) (src : Ea) (dn : RegNum) :
    instrLength (cmpInstr sz src dn) = 2 + eaExtensionSize src sz := by cases sz <;> rfl

theorem instrLength_addqInstr (sz : Size) (q : BitVec 3) (dst : Ea) :
    instrLength (addqInstr sz q dst) = 2 + eaExtensionSize dst sz := by cases sz <;> rfl

theorem isMemoryAlterable_of_addToMemInstr_wf {sz : Size} {dn : RegNum} {dst : Ea}
    (h : (addToMemInstr sz dn dst).wf = true) : isMemoryAlterable dst = true := by cases sz <;> exact h

theorem isMemoryAlterable_of_subToMemInstr_wf {sz : Size} {dn : RegNum} {dst : Ea}
    (h : (subToMemInstr sz dn dst).wf = true) : isMemoryAlterable dst = true := by cases sz <;> exact h

/-! ### The statements -/

/-- Settles O33: the sequence with each micro-op and its setter. -/
theorem arithToRegister : Obligations.ArithToRegister := by
  intro sz src dn s v d p hp hw h1 h2
  simp only [List.mem_cons, List.not_mem_nil, or_false] at hp
  rcases hp with rfl | rfl
  · obtain ⟨t, hrun, hrest⟩ := arithToReg_result (f := add) (setf := setCcAsAdd) (dn := dn) ⟨.add, sz, add sz d v, d, v⟩
      ⟨.add, sz, add sz d v, d, v⟩ h1 h2 fun _ => rfl
    refine ⟨t, ?_, ?_⟩
    · rw [exec_addToRegInstr]
      exact runBase_ok hw hrun
    · rw [instrLength_addToRegInstr]
      exact hrest
  · obtain ⟨t, hrun, hrest⟩ := arithToReg_result (f := sub) (setf := setCcSub) (dn := dn) ⟨.sub, sz, sub sz d v, d, v⟩
      ⟨.sub, sz, sub sz d v, d, v⟩ h1 h2 fun _ => rfl
    refine ⟨t, ?_, ?_⟩
    · rw [exec_subToRegInstr]
      exact runBase_ok hw hrun
    · rw [instrLength_subToRegInstr]
      exact hrest

/-- Settles O34: the sequence with each micro-op and its setter. -/
theorem arithToMemory : Obligations.ArithToMemory := by
  intro sz dst dn s d v p hp hw h1 h2 h3
  simp only [List.mem_cons, List.not_mem_nil, or_false] at hp
  rcases hp with rfl | rfl
  · have hda := isDataAlterable_of_memory (isMemoryAlterable_of_addToMemInstr_wf hw)
    obtain ⟨t, hrun, hrest⟩ := arithToMem_result (f := add) (setf := setCcAsAdd) (dn := dn) ⟨.add, sz, add sz d v, d, v⟩
      ⟨.add, sz, add sz d v, d, v⟩ h1 h2 h3 hda fun _ => rfl
    refine ⟨t, ?_, ?_⟩
    · rw [exec_addToMemInstr]
      exact runBase_ok hw hrun
    · rw [instrLength_addToMemInstr]
      exact hrest
  · have hda := isDataAlterable_of_memory (isMemoryAlterable_of_subToMemInstr_wf hw)
    obtain ⟨t, hrun, hrest⟩ := arithToMem_result (f := sub) (setf := setCcSub) (dn := dn) ⟨.sub, sz, sub sz d v, d, v⟩
      ⟨.sub, sz, sub sz d v, d, v⟩ h1 h2 h3 hda fun _ => rfl
    refine ⟨t, ?_, ?_⟩
    · rw [exec_subToMemInstr]
      exact runBase_ok hw hrun
    · rw [instrLength_subToMemInstr]
      exact hrest

/-- Settles O35: the sequence of a read and a comparison, at each size. -/
theorem cmpResult : Obligations.CmpResult := by
  intro sz src dn s i hw h1 h2
  obtain ⟨t, hrun, hrest⟩ := cmpToReg_result dn h1 h2
  refine ⟨t, ?_, ?_⟩
  · rw [exec_cmpInstr]
    exact runBase_ok hw hrun
  · rw [instrLength_cmpInstr]
    exact hrest

theorem isDataAlterable_of_addqInstr_wf {sz : Size} {q : BitVec 3} {dst : Ea} (h : (addqInstr sz q dst).wf = true)
    (hn : ∀ n, dst ≠ .an n) : isDataAlterable dst = true := by
  have hd : isData dst = true := by
    cases dst with
    | an n => exact absurd rfl (hn n)
    | _ => rfl
  cases sz with
  | b => exact h
  | w => exact Bool.and_eq_true_iff.mpr ⟨h, hd⟩
  | l => exact Bool.and_eq_true_iff.mpr ⟨h, hd⟩

/-- ADDQ but to an address register is the sequence of a read, a sum and a write (R202). -/
theorem addq_of_ne_an (sz : Size) (q : BitVec 3) {dst : Ea} (hn : ∀ n, dst ≠ .an n) :
    addq sz q dst = (do
      let rd ← construct dst sz 2
      let d ← rd.get
      modifies (setCcAsAdd sz (add sz d (BitVec.ofNat 32 (quickValue q))) d (BitVec.ofNat 32 (quickValue q)))
      rd.put (add sz d (BitVec.ofNat 32 (quickValue q)))
      rd.finish
      advance (2 + rd.extensionSize)) := by
  cases dst with
  | an n => exact absurd rfl (hn n)
  | _ => rfl

/-- Settles O36: a read, a sum and a write, with quick data as the second operand. -/
theorem addqResult : Obligations.AddqResult := by
  intro sz q dst s i d k hw hn h1 h2 h3
  have hda := isDataAlterable_of_addqInstr_wf hw hn
  obtain ⟨t, hrun, hwrote, hc, hx, ha, hpc, hbus, hsys, hdr⟩ := readModifyWrite s.bus
    (fun v => setCcAsAdd sz (add sz v k) v k) (fun v => add sz v k) ⟨.add, sz, add sz d k, d, k⟩
    ⟨.add, sz, add sz d k, d, k⟩ s.draws h1 h2 h3 hda fun _ => rfl
  refine ⟨t, ?_, hwrote, State.flags_congr (s := setCcAsAdd sz (add sz d k) d k s) hc hx, ha, ?_, hbus, hsys, hdr⟩
  · rw [exec_addqInstr, addq_of_ne_an sz q hn]
    exact runBase_ok hw hrun
  · rw [hpc, instrLength_addqInstr]

/-- ADDQ to an address register (R202). -/
theorem addq_an_result (sz : Size) (q : BitVec 3) (n : RegNum) (s : State) :
    ∃ t, addq sz q (.an n) s = .ok () t ∧ t.areg n = s.areg n + BitVec.ofNat 32 (quickValue q) ∧
      SameABut n s t ∧ SameD s t ∧ SameCc s t ∧ SameMemory s t ∧ t.pc = s.pc + 2#32 ∧ t.bus = s.bus ∧
      SameSystem s t ∧ t.draws = s.draws := by
  have hrun : addq sz q (.an n) s =
      .ok () ((s.writeA n (s.areg n + BitVec.ofNat 32 (quickValue q))).withPc (s.pc + 2#32)) := rfl
  refine ⟨_, hrun, ?_⟩
  simp +contextual [State.writeA_areg, SameABut, SameD, SameCc, SameMemory, SameSystem, SameHost]

/-- Settles O37: both sizes are the same addition. -/
theorem addqAddress : Obligations.AddqAddress := by
  intro q n s i hi
  simp only [List.mem_cons, List.not_mem_nil, or_false] at hi
  rcases hi with rfl | rfl
  · obtain ⟨t, hrun, hrest⟩ := addq_an_result .w q n s
    exact ⟨t, runBase_ok (i := .addqW q (.an n)) rfl hrun, hrest⟩
  · obtain ⟨t, hrun, hrest⟩ := addq_an_result .l q n s
    exact ⟨t, runBase_ok (i := .addqL q (.an n)) rfl hrun, hrest⟩

end Sys2Proof.Machine
end

section
/-! Shifts and rotates (44_shift_rotate.md R210 to R220) and bit manipulation (45_bit_manipulation.md R230 to R234): the
register form, then the forms that are one `readModifyWrite`. -/

namespace Sys2Proof.Machine

/-! ### The setters -/

/-- `set_cc_unspecified` leaves one fresh literal record in both places (R137). -/
theorem setCcUnspecified_withBus (s : State) (b : List Request) :
    setCcUnspecified (s.withBus b) =
      (((s.withCc (literalRecord (Config.freeFlags s.draws))).withXsrc (literalRecord (Config.freeFlags s.draws))).withDraws
        (s.draws + 1)).withBus b := (rfl)

theorem setCcShift_withBus (tag : Strategy) (sz : Size) (r v : Word) (c : Nat) (s : State) (b : List Request) :
    setCcShift tag sz r v c (s.withBus b) =
      (((s.withCc (setCcShift tag sz r v c s).cc).withXsrc (setCcShift tag sz r v c s).xsrc).withDraws s.draws).withBus b := by
  unfold setCcShift
  split <;> rfl

/-! ### On a data register -/

/-- The register form (R210), `c`, `x` and `k` being what the setter leaves of the records and the count of free values. -/
theorem shiftReg_result {f : Size → Word → Nat → Word} {setf : Size → Word → Word → Nat → State → State} {sz : Size}
    {count : ShiftCount} {dn : RegNum} {s : State} (c x : CcRecord) (k : Nat)
    (hs : setf sz (f sz (getSized sz (s.dreg dn)) (countValue count s)) (getSized sz (s.dreg dn)) (countValue count s) s =
      ((s.withCc c).withXsrc x).withDraws k) :
    ∃ t, shiftReg f setf sz count dn s = .ok () t ∧
      t.dreg dn = putSized sz (s.dreg dn) (f sz (getSized sz (s.dreg dn)) (countValue count s)) ∧ SameDBut dn s t ∧
      t.cc = c ∧ t.xsrc = x ∧ t.draws = k ∧ SameA s t ∧ SameMemory s t ∧ t.pc = s.pc + 2#32 ∧ t.bus = s.bus ∧
      SameSystem s t := by
  have hrun : shiftReg f setf sz count dn s =
      .ok () (((((s.withCc c).withXsrc x).withDraws k).writeD dn
        (putSized sz (s.dreg dn) (f sz (getSized sz (s.dreg dn)) (countValue count s)))).withPc (s.pc + 2#32)) := by
    rw [shiftReg, bind_ok (reads_run _ _), bind_ok (reads_run _ _), shiftCount_eq, bind_ok (modifies_run _ _), hs]
    rfl
  refine ⟨_, hrun, ?_⟩
  simp +contextual [State.writeD_dreg, SameDBut, SameA, SameMemory, SameSystem, SameHost]

/-- A shift of a register: the flags are those of the record (R136, R141). -/
theorem shiftReg_shift {f : Size → Word → Nat → Word} {tag : Strategy}
    (htag : tag = .shiftAsr ∨ tag = .shiftLsr ∨ tag = .shiftLsl) (sz : Size) (count : ShiftCount) (dn : RegNum) (s : State) :
    let c := countValue count s
    let v := getSized sz (s.dreg dn)
    ∃ t, shiftReg f (setCcShift tag) sz count dn s = .ok () t ∧ t.dreg dn = putSized sz (s.dreg dn) (f sz v c) ∧
      SameDBut dn s t ∧ t.flags = shiftFlags s sz (f sz v c) c (shiftCarry tag (bits sz) v c) ∧ SameA s t ∧ SameMemory s t ∧
      t.pc = s.pc + 2#32 ∧ t.bus = s.bus ∧ SameSystem s t ∧ t.draws = s.draws := by
  intro c v
  have hlt : c < 2 ^ 32 := by
    have := shiftCount_eq count s ▸ shiftCount_lt count s
    omega
  obtain ⟨t, hrun, hd, hbut, hc, hx, hdr, ha, hm, hpc, hbus, hsys⟩ := shiftReg_result (f := f) (setf := setCcShift tag)
    (dn := dn) _ _ s.draws (setCcShift_withBus tag sz (f sz v c) v c s s.bus)
  refine ⟨t, hrun, hd, hbut, ?_, ha, hm, hpc, hbus, hsys, hdr⟩
  rw [← setCcShift_flags tag htag sz (f sz v c) v c hlt s]
  exact State.flags_congr hc hx

/-- A rotate of a register: the flags are one fresh draw (R137). -/
theorem shiftReg_rotate (f : Size → Word → Nat → Word) (sz : Size) (count : ShiftCount) (dn : RegNum) (s : State) :
    ∃ t, shiftReg f setUnspecified sz count dn s = .ok () t ∧
      t.dreg dn = putSized sz (s.dreg dn) (f sz (getSized sz (s.dreg dn)) (countValue count s)) ∧ SameDBut dn s t ∧
      (∃ b, t.cc = literalRecord b ∧ t.xsrc = literalRecord b) ∧ t.draws = s.draws + 1 ∧
      SameA s t ∧ SameMemory s t ∧ t.pc = s.pc + 2#32 ∧ t.bus = s.bus ∧ SameSystem s t := by
  obtain ⟨t, hrun, hd, hbut, hc, hx, hrest⟩ := shiftReg_result (f := f) (setf := setUnspecified) (sz := sz) (count := count)
    (dn := dn) _ _ (s.draws + 1) (setCcUnspecified_withBus s s.bus)
  exact ⟨t, hrun, hd, hbut, ⟨_, hc, hx⟩, hrest⟩

theorem exec_asrInstr (sz : Size) (c : ShiftCount) (dn : RegNum) (s : State) :
    exec (asrInstr sz c dn) s = runBase (asrInstr sz c dn) (shiftReg asr (setCcShift .shiftAsr) sz c dn) s := by
  cases sz <;> rfl

theorem exec_lsrInstr (sz : Size) (c : ShiftCount) (dn : RegNum) (s : State) :
    exec (lsrInstr sz c dn) s = runBase (lsrInstr sz c dn) (shiftReg lsr (setCcShift .shiftLsr) sz c dn) s := by
  cases sz <;> rfl

theorem exec_lslInstr (sz : Size) (c : ShiftCount) (dn : RegNum) (s : State) :
    exec (lslInstr sz c dn) s = runBase (lslInstr sz c dn) (shiftReg lsl (setCcShift .shiftLsl) sz c dn) s := by
  cases sz <;> rfl

theorem exec_rorInstr (sz : Size) (c : ShiftCount) (dn : RegNum) (s : State) :
    exec (rorInstr sz c dn) s = runBase (rorInstr sz c dn) (shiftReg ror setUnspecified sz c dn) s := by cases sz <;> rfl

theorem exec_rolInstr (sz : Size) (c : ShiftCount) (dn : RegNum) (s : State) :
    exec (rolInstr sz c dn) s = runBase (rolInstr sz c dn) (shiftReg rol setUnspecified sz c dn) s := by cases sz <;> rfl

/-- Settles O38: the register form with each shift and its tag. -/
theorem shiftRegister : Obligations.ShiftRegister := by
  intro sz count dn s c v p hp
  simp only [List.mem_cons, List.not_mem_nil, or_false] at hp
  rcases hp with rfl | rfl | rfl
  · obtain ⟨t, hrun, hrest⟩ := shiftReg_shift (f := asr) (tag := .shiftAsr) (by simp) sz count dn s
    exact ⟨t, (exec_asrInstr sz count dn s).trans (runBase_ok (by cases sz <;> rfl) hrun), hrest⟩
  · obtain ⟨t, hrun, hrest⟩ := shiftReg_shift (f := lsr) (tag := .shiftLsr) (by simp) sz count dn s
    exact ⟨t, (exec_lsrInstr sz count dn s).trans (runBase_ok (by cases sz <;> rfl) hrun), hrest⟩
  · obtain ⟨t, hrun, hrest⟩ := shiftReg_shift (f := lsl) (tag := .shiftLsl) (by simp) sz count dn s
    exact ⟨t, (exec_lslInstr sz count dn s).trans (runBase_ok (by cases sz <;> rfl) hrun), hrest⟩

/-- Settles O39: the register form with each rotate. -/
theorem rotateRegister : Obligations.RotateRegister := by
  intro sz count dn s c v p hp
  simp only [List.mem_cons, List.not_mem_nil, or_false] at hp
  rcases hp with rfl | rfl
  · obtain ⟨t, hrun, hrest⟩ := shiftReg_rotate ror sz count dn s
    exact ⟨t, (exec_rorInstr sz count dn s).trans (runBase_ok (by cases sz <;> rfl) hrun), hrest⟩
  · obtain ⟨t, hrun, hrest⟩ := shiftReg_rotate rol sz count dn s
    exact ⟨t, (exec_rolInstr sz count dn s).trans (runBase_ok (by cases sz <;> rfl) hrun), hrest⟩

/-! ### On a memory word -/

/-- A shift of a memory word by one (R210). -/
theorem shiftMem_shift {f : Size → Word → Nat → Word} {tag : Strategy}
    (htag : tag = .shiftAsr ∨ tag = .shiftLsr ∨ tag = .shiftLsl) {dst : Ea} {s : State} (hda : isDataAlterable dst = true)
    (h1 : extReadable s dst .w 2 = true) (h2 : operandReadable s dst .w 2 = true)
    (h3 : operandWritable s dst .w 2 = true) :
    let v := operandValue s dst .w 2
    ∃ t, shiftMem f (setCcShift tag) dst s = .ok () t ∧ Wrote dst .w 2 (f .w v 1) s t ∧
      t.flags = shiftFlags s .w (f .w v 1) 1 (shiftCarry tag 16 v 1) ∧
      (∀ n, t.areg n = s.areg n + finishDelta dst .w n) ∧ t.pc = s.pc + BitVec.ofNat 32 (2 + eaExtensionSize dst .w) ∧
      t.bus = s.bus ++ extRequests s dst .w 2 ++ readRequests s dst .w 2 ++ writeRequests s dst .w 2 (f .w v 1) ∧
      SameSystem s t ∧ t.draws = s.draws := by
  intro v
  obtain ⟨t, hrun, hwrote, hc, hx, hrest⟩ := readModifyWrite s.bus (fun v => setCcShift tag .w (f .w v 1) v 1)
    (fun v => f .w v 1) _ _ s.draws h1 h2 h3 hda (setCcShift_withBus tag .w (f .w v 1) v 1 s)
  refine ⟨t, hrun, hwrote, ?_, hrest⟩
  rw [show (16 : Nat) = bits .w from rfl, ← setCcShift_flags tag htag .w (f .w v 1) v 1 (by decide) s]
  exact State.flags_congr hc hx

/-- A rotate of a memory word by one (R210). -/
theorem shiftMem_rotate (f : Size → Word → Nat → Word) {dst : Ea} {s : State} (hda : isDataAlterable dst = true)
    (h1 : extReadable s dst .w 2 = true) (h2 : operandReadable s dst .w 2 = true)
    (h3 : operandWritable s dst .w 2 = true) :
    let r := f .w (operandValue s dst .w 2) 1
    ∃ t, shiftMem f setUnspecified dst s = .ok () t ∧ Wrote dst .w 2 r s t ∧
      (∃ b, t.cc = literalRecord b ∧ t.xsrc = literalRecord b) ∧ t.draws = s.draws + 1 ∧
      (∀ n, t.areg n = s.areg n + finishDelta dst .w n) ∧ t.pc = s.pc + BitVec.ofNat 32 (2 + eaExtensionSize dst .w) ∧
      t.bus = s.bus ++ extRequests s dst .w 2 ++ readRequests s dst .w 2 ++ writeRequests s dst .w 2 r ∧
      SameSystem s t := by
  intro r
  obtain ⟨t, hrun, hwrote, hc, hx, ha, hpc, hbus, hsys, hdr⟩ := readModifyWrite s.bus
    (fun v => setUnspecified .w (f .w v 1) v 1) (fun v => f .w v 1) _ _ (s.draws + 1) h1 h2 h3 hda
    (setCcUnspecified_withBus s)
  exact ⟨t, hrun, hwrote, ⟨_, hc, hx⟩, hdr, ha, hpc, hbus, hsys⟩

/-- Settles O40: a shift by one moves out bit 0, or bit 15 to the left. -/
theorem shiftMemory : Obligations.ShiftMemory := by
  intro dst s v p hp hw h1 h2 h3
  simp only [List.mem_cons, List.not_mem_nil, or_false] at hp
  rcases hp with rfl | rfl | rfl
  · obtain ⟨t, hrun, hrest⟩ := shiftMem_shift (f := asr) (tag := .shiftAsr) (by simp) (isDataAlterable_of_memory hw) h1 h2 h3
    exact ⟨t, runBase_ok (i := .asrMem dst) hw hrun, hrest⟩
  · obtain ⟨t, hrun, hrest⟩ := shiftMem_shift (f := lsr) (tag := .shiftLsr) (by simp) (isDataAlterable_of_memory hw) h1 h2 h3
    exact ⟨t, runBase_ok (i := .lsrMem dst) hw hrun, hrest⟩
  · obtain ⟨t, hrun, hrest⟩ := shiftMem_shift (f := lsl) (tag := .shiftLsl) (by simp) (isDataAlterable_of_memory hw) h1 h2 h3
    exact ⟨t, runBase_ok (i := .lslMem dst) hw hrun, hrest⟩

/-- Settles O41: the memory form with each rotate. -/
theorem rotateMemory : Obligations.RotateMemory := by
  intro dst s v p hp hw h1 h2 h3
  simp only [List.mem_cons, List.not_mem_nil, or_false] at hp
  rcases hp with rfl | rfl
  · obtain ⟨t, hrun, hrest⟩ := shiftMem_rotate ror (isDataAlterable_of_memory hw) h1 h2 h3
    exact ⟨t, runBase_ok (i := .rorMem dst) hw hrun, hrest⟩
  · obtain ⟨t, hrun, hrest⟩ := shiftMem_rotate rol (isDataAlterable_of_memory hw) h1 h2 h3
    exact ⟨t, runBase_ok (i := .rolMem dst) hw hrun, hrest⟩

/-! ### Bits -/

/-- The bit number modulo the bits of the operand (R230). -/
theorem bitIndex_eq (ea : Ea) (bn : Nat) : bitIndex ea bn = bn % bits (bitOperandSize ea) := by cases ea <;> rfl

/-- The common sequence of BSET and BCLR, after the requests `b` (R230). -/
theorem bitOp_result (g : Word → Nat → Word) (bn : Nat) {dst : Ea} {off : Nat} {s : State} (b : List Request)
    (hda : isDataAlterable dst = true) (h1 : extReadable s dst (bitOperandSize dst) off = true)
    (h2 : operandReadable s dst (bitOperandSize dst) off = true)
    (h3 : operandWritable s dst (bitOperandSize dst) off = true) :
    let sz := bitOperandSize dst
    let r := g (operandValue s dst sz off) (bn % bits sz)
    ∃ t, bitOp g bn dst off (s.withBus b) = .ok () t ∧ Wrote dst sz off r s t ∧
      (∃ b, t.cc = literalRecord b ∧ t.xsrc = literalRecord b) ∧ t.draws = s.draws + 1 ∧
      (∀ n, t.areg n = s.areg n + finishDelta dst sz n) ∧ t.pc = s.pc + BitVec.ofNat 32 (off + eaExtensionSize dst (bitSize dst)) ∧
      t.bus = b ++ extRequests s dst sz off ++ readRequests s dst sz off ++ writeRequests s dst sz off r ∧
      SameSystem s t := by
  intro sz r
  obtain ⟨t, hrun, hwrote, hc, hx, ha, hpc, hbus, hsys, hdr⟩ := readModifyWrite b (fun _ => setCcUnspecified)
    (fun v => g v (bn % bits sz)) _ _ (s.draws + 1) h1 h2 h3 hda (setCcUnspecified_withBus s)
  rw [bitSize_eq]
  refine ⟨t, ?_, hwrote, ⟨_, hc, hx⟩, hdr, ha, hpc, hbus, hsys⟩
  rw [bitOp, bitSize_eq, bitIndex_eq]
  exact hrun

/-- Settles O42 (the model has a `bitDynamic`, so the name has a suffix): the bit number is read from the register, then the common sequence. -/
theorem bitDynamic_result : Obligations.BitDynamic := by
  intro dn dst s sz v k p hp hw h1 h2 h3
  simp only [List.mem_cons, List.not_mem_nil, or_false] at hp
  rcases hp with rfl | rfl
  · obtain ⟨t, hrun, hrest⟩ := bitOp_result bset (s.dreg dn).toNat s.bus hw h1 h2 h3
    exact ⟨t, runBase_ok (i := .bsetDyn dn dst) (body := bitDynamic bset dn dst) hw hrun, hrest⟩
  · obtain ⟨t, hrun, hrest⟩ := bitOp_result bclr (s.dreg dn).toNat s.bus hw h1 h2 h3
    exact ⟨t, runBase_ok (i := .bclrDyn dn dst) (body := bitDynamic bclr dn dst) hw hrun, hrest⟩

/-- The static form fetches its word first (R230). -/
theorem bitStatic_run (g : Word → Nat → Word) (dst : Ea) {s : State}
    (h : s.readable s.programFc (s.codeAddr 2) .w = true) :
    bitStatic g dst s = bitOp g ((s.load (s.codeAddr 2) .w).toNat % 256) dst 4
      (s.withBus (s.bus ++ [.get s.programFc (s.codeAddr 2) .w])) := by
  rw [bitStatic, bind_ok (fetch_ok h)]

/-- Settles O43 (named as O42 is): the bit number is fetched, then the common sequence. -/
theorem bitStatic_result : Obligations.BitStatic := by
  intro dst s sz v k p hp hw h h1 h2 h3
  simp only [List.mem_cons, List.not_mem_nil, or_false] at hp
  rcases hp with rfl | rfl
  · obtain ⟨t, hrun, hrest⟩ := bitOp_result bset ((s.load (s.codeAddr 2) .w).toNat % 256)
      (s.bus ++ [.get s.programFc (s.codeAddr 2) .w]) hw h1 h2 h3
    exact ⟨t, runBase_ok (i := .bsetStatic dst) hw ((bitStatic_run bset dst h).trans hrun), hrest⟩
  · obtain ⟨t, hrun, hrest⟩ := bitOp_result bclr ((s.load (s.codeAddr 2) .w).toNat % 256)
      (s.bus ++ [.get s.programFc (s.codeAddr 2) .w]) hw h1 h2 h3
    exact ⟨t, runBase_ok (i := .bclrStatic dst) hw ((bitStatic_run bclr dst h).trans hrun), hrest⟩

end Sys2Proof.Machine
end

section
/-! Program control (46_program_control.md R240 to R248): branches, pushes, pops and jumps. -/

namespace Sys2Proof.Machine

/-! ### DBcc (R244) -/

/-- The count of DBcc, in the statement's terms: the low word less one. -/
theorem sub_w_one (d : Word) : sub .w d 1#32 = (d.setWidth 16 - 1#16).setWidth 32 := by
  apply BitVec.eq_of_toNat_eq
  rw [sub, mask, BitVec.toNat_and, show (0xFFFF#32).toNat = 2 ^ 16 - 1 from rfl, Nat.and_two_pow_sub_one_eq_mod]
  simp only [BitVec.toNat_sub, BitVec.toNat_setWidth, BitVec.toNat_ofNat]
  omega

theorem setWidth_eq_FFFF {c : BitVec 16} : c.setWidth 32 = 0xFFFF#32 ↔ c = 0xFFFF#16 := by bv_omega

/-- Settles O45: the condition, then the count, decide which of three ends the meaning has. -/
theorem dbccResult : Obligations.DbccResult := by
  intro cond dn s cnt h
  have hstart : dbccBody cond dn s = (if s.test cond then advance 4 else do
      let cnt ← reads fun s => sub .w (s.dreg dn) 1#32
      modifies fun s => s.writeD dn (putSized .w (s.dreg dn) cnt)
      if cnt = 0xFFFF#32 then advance 4
      else modifies fun u => u.withPc (branchTarget (sext16 (s.load (s.codeAddr 2) .w)) u))
      (s.withBus (s.bus ++ [.get s.programFc (s.codeAddr 2) .w])) := by
    rw [dbccBody, bind_ok (fetch_ok h), bind_ok (reads_run _ _), withBus_test]
  by_cases ht : s.test cond = true
  · rw [if_pos ht] at hstart
    refine ⟨_, runBase_ok (i := .dbcc cond dn) rfl hstart, ?_⟩
    simp [ht, SameDBut, SameA, SameCc, SameMemory, SameSystem, SameHost]
  · rw [if_neg ht, bind_ok (reads_run _ _), bind_ok (modifies_run _ _), State.withBus_dreg, sub_w_one] at hstart
    by_cases hc : cnt = 0xFFFF#16
    · rw [if_pos (setWidth_eq_FFFF.mpr hc)] at hstart
      refine ⟨_, runBase_ok (i := .dbcc cond dn) rfl hstart, ?_⟩
      simp +contextual [ht, hc, cnt, State.writeD_dreg, SameDBut, SameA, SameCc, SameMemory, SameSystem, SameHost]
    · rw [if_neg (mt setWidth_eq_FFFF.mp hc)] at hstart
      refine ⟨_, runBase_ok (i := .dbcc cond dn) rfl hstart, ?_⟩
      simp +contextual [ht, hc, cnt, State.writeD_dreg, SameDBut, SameA, SameCc, SameMemory, SameSystem, SameHost,
        branchTarget, sext16_eq]

/-! ### BRA and Bcc (R241, R243) -/

theorem braBody_run {disp8 : BitVec 8} {s : State} (h : branchReadable s disp8 = true) :
    braBody disp8 s = .ok () ((s.withBus (s.bus ++ branchRequests s disp8)).withPc
      (s.pc + 2#32 + branchValue s disp8)) := by
  rw [braBody, bind_ok (branchDisp_ok h), modifies_run]
  rfl

theorem bccBody_run (cond : Cond) {disp8 : BitVec 8} {s : State} (h : branchReadable s disp8 = true) :
    bccBody cond disp8 s = .ok () ((s.withBus (s.bus ++ branchRequests s disp8)).withPc
      (if s.test cond then s.pc + 2#32 + branchValue s disp8
        else s.pc + BitVec.ofNat 32 (2 + branchExtensionSize disp8))) := by
  rw [bccBody, bind_ok (branchDisp_ok h), bind_ok (reads_run _ _), withBus_test]
  cases s.test cond <;> rfl

/-- Settles O46: both write the pc and the record of requests alone. -/
theorem branchResult : Obligations.BranchResult := by
  intro cond disp8 s p hp hw h
  simp only [List.mem_cons, List.not_mem_nil, or_false] at hp
  rcases hp with rfl | rfl
  · refine ⟨_, runBase_ok (i := .bra disp8) hw (braBody_run h), rfl, ?_⟩
    simp [SameD, SameA, SameCc, SameMemory, SameSystem, SameHost]
  · refine ⟨_, runBase_ok (i := .bcc cond disp8) hw (bccBody_run cond h), rfl, ?_⟩
    simp [SameD, SameA, SameCc, SameMemory, SameSystem, SameHost]

/-! ### Calls: a push, then the pc (R242, R247) -/

/-- The end of BSR and JSR, after the requests `b`; the new pc is `f` of the old one. -/
theorem push_withPc_result {s : State} (b : List Request) (ret : Word) (f : Word → Word)
    (h : s.writable s.dataFc (s.sp - 4#32) .l = true) :
    ∃ t, (do pushLong ret; modifies fun u => u.withPc (f u.pc)) (s.withBus b) = .ok () t ∧ t.pc = f s.pc ∧
      t.sp = s.sp - 4#32 ∧ (SpaceOk s → t.load (s.sp - 4#32) .l = ret) ∧ SameMemoryBut (s.sp - 4#32) .l s t ∧
      SameABut spReg s t ∧ SameD s t ∧ SameCc s t ∧ t.bus = b ++ [.put s.dataFc (s.sp - 4#32) .l ret] ∧
      SameSystem s t ∧ t.draws = s.draws := by
  have hrun := pushLong_ok (v := ret) (s := s.withBus b) h
  refine ⟨_, (bind_ok hrun).trans (modifies_run _ _), ?_, ?_, ?_, ?_, ?_⟩
  · simp
  · simp [State.sp]
  · intro ho
    have hload := push_load s (b ++ [.put s.dataFc (s.sp - 4#32) .l ret]) (s.sp - 4#32) ret ho
    simpa using hload
  · intro x hx
    have hpeek := State.store_peek_ne (s.withBus (b ++ [.put s.dataFc (s.sp - 4#32) .l ret])) (a := s.sp - 4#32) (sz := .l)
      ret hx
    simpa using hpeek
  · simp +contextual [State.writeA_areg, SameABut, SameD, SameCc, SameSystem, SameHost]

/-- BSR up to its push (R242). -/
theorem bsrBody_run {disp8 : BitVec 8} {s : State} (h : branchReadable s disp8 = true) :
    bsrBody disp8 s = (do
        pushLong (s.pc + BitVec.ofNat 32 (2 + branchExtensionSize disp8))
        modifies fun u => u.withPc (u.pc + 2#32 + branchValue s disp8))
      (s.withBus (s.bus ++ branchRequests s disp8)) := by
  rw [bsrBody, bind_ok (branchDisp_ok h), bind_ok (reads_run _ _), State.withBus_pc]
  simp only [branchTarget]

/-- JSR up to its push (R247). -/
theorem jsrBody_run {m : MemMode} {s : State} (h : extReadable s (.mem m) .l 2 = true) :
    jsrBody (.mem m) s = (do
        pushLong (s.pc + BitVec.ofNat 32 (2 + eaExtensionSize (.mem m) .l))
        modifies (State.withPc (operandAddr s m .l 2)))
      (s.withBus (s.bus ++ extRequests s (.mem m) .l 2)) := by
  rw [jsrBody, bind_ok (construct_ok h), bind_ok (Resolver.address_run _ _ _ _ _), bind_ok (reads_run _ _),
    State.withBus_memAddress, State.withBus_pc]
  rfl

/-- Settles O47: the return address is that of the next instruction, computed before the push. -/
theorem bsrResult : Obligations.BsrResult := by
  intro disp8 s ret h1 h2
  obtain ⟨t, hrun, hrest⟩ := push_withPc_result (s.bus ++ branchRequests s disp8) ret
    (fun pc => pc + 2#32 + branchValue s disp8) h2
  exact ⟨t, runBase_ok (i := .bsr disp8) rfl ((bsrBody_run h1).trans hrun), hrest⟩

/-- Settles O49: the target is computed before the push. -/
theorem jsrResult : Obligations.JsrResult := by
  intro m s ret hw h1 h2
  obtain ⟨t, hrun, hrest⟩ := push_withPc_result (s.bus ++ extRequests s (.mem m) .l 2) ret (fun _ => operandAddr s m .l 2) h2
  exact ⟨t, runBase_ok (i := .jsr (.mem m)) hw ((jsrBody_run h1).trans hrun), hrest⟩

/-- What a rejected push after the requests `b` leaves is the state before it but for the record of requests. -/
theorem pushLong_withBus_rejected (b : List Request) (ret : Word) {f : Unit → Exec Unit} {s : State}
    (h : s.granted s.dataFc .write (s.sp - 4#32) .l = false) :
    ∃ b', (pushLong ret >>= f) (s.withBus b) = .error (.busError (s.sp - 4#32) s.dataFc .write) (s.withBus b') := by
  have hrun := pushLong_rejected (v := ret) (s := s.withBus b) h
  exact ⟨_, bind_error hrun⟩

/-- Settles O50: both meanings push before they write anything. -/
theorem pushBusError : Obligations.PushBusError := by
  intro m disp8 s h p hp hw hr
  simp only [List.mem_cons, List.not_mem_nil, or_false] at hp
  rcases hp with rfl | rfl
  · obtain ⟨b', hrun⟩ := pushLong_withBus_rejected (s.bus ++ extRequests s (.mem m) .l 2) _ h
    exact ⟨s.withBus b', runBase_error (i := .jsr (.mem m)) hw ((jsrBody_run hr).trans hrun), rfl⟩
  · obtain ⟨b', hrun⟩ := pushLong_withBus_rejected (s.bus ++ branchRequests s disp8) _ h
    exact ⟨s.withBus b', runBase_error (i := .bsr disp8) hw ((bsrBody_run hr).trans hrun), rfl⟩

/-! ### JMP and RTS (R246, R248) -/

theorem jmpBody_run {m : MemMode} {s : State} (h : extReadable s (.mem m) .l 2 = true) :
    jmpBody (.mem m) s = .ok () ((s.withBus (s.bus ++ extRequests s (.mem m) .l 2)).withPc (operandAddr s m .l 2)) := by
  rw [jmpBody, bind_ok (construct_ok h), bind_ok (Resolver.address_run _ _ _ _ _), State.withBus_memAddress,
    modifies_run, operandAddr]

/-- Settles O48: the pc and the record of requests are all it writes. -/
theorem jmpResult : Obligations.JmpResult := by
  intro m s hw h
  refine ⟨_, runBase_ok (i := .jmp (.mem m)) hw (jmpBody_run h), rfl, ?_⟩
  simp [SameD, SameA, SameCc, SameMemory, SameSystem, SameHost]

theorem rtsBody_run {s : State} (h : s.readable s.dataFc s.sp .l = true) :
    rtsBody s = .ok () (((s.withBus (s.bus ++ [.get s.dataFc s.sp .l])).writeA spReg (s.sp + 4#32)).withPc
      (s.load s.sp .l)) := by
  rw [rtsBody, bind_ok (popLong_ok h), modifies_run]

theorem rtsBody_rejected {s : State} (h : s.granted s.dataFc .read s.sp .l = false) :
    rtsBody s = .error (.busError s.sp s.dataFc .read) (s.withBus (s.bus ++ [.get s.dataFc s.sp .l])) := by
  have hpop : popLong s = .error (.busError s.sp s.dataFc .read) (s.withBus (s.bus ++ [.get s.dataFc s.sp .l])) := by
    rw [popLong, bind_ok (reads_run _ _), bind_ok (reads_run _ _)]
    exact bind_error (memRead_rejected h)
  exact bind_error hpop

/-- Settles O51: the word by evaluation, then the pop, granted and rejected. -/
theorem rtsResult : Obligations.RtsResult := by
  refine ⟨by decide, fun s => ⟨fun h => ?_, fun h => runBase_error (i := .rts) rfl (rtsBody_rejected h)⟩⟩
  refine ⟨_, runBase_ok (i := .rts) rfl (rtsBody_run h), rfl, ?_⟩
  simp +contextual [State.sp, State.writeA_areg, SameABut, SameD, SameCc, SameMemory, SameSystem, SameHost]

end Sys2Proof.Machine
end

section
/-! System control: MOVE to SR, RTE and the TRAP slot (47_system_control.md R260 to R262). -/

namespace Sys2Proof.Machine

theorem requireSupervisor_supervisor {op : Half} {s : State} (h : s.sup = true) : requireSupervisor op s = .ok () s := by
  simp [requireSupervisor, h]

theorem ssp_of_supervisor {s : State} (h : s.sup = true) : s.ssp = s.sp := by simp [State.ssp, State.sp, h]

/-! ### What `set_sr` leaves unchanged (40_datapath.md R146) -/

theorem setSr_usp (v : Half) (s : State) : (setSr v s).usp = s.usp := setSupervisorState_usp _ _

theorem setSr_ssp (v : Half) (s : State) : (setSr v s).ssp = s.ssp := setSupervisorState_ssp _ _

theorem setSr_sup (v : Half) (s : State) : (setSr v s).sup = v.getLsbD 13 := setSupervisorState_sup _ _

theorem setSr_areg (v : Half) (s : State) {n : RegNum} (h : n ≠ spReg) : (setSr v s).areg n = s.areg n :=
  setSupervisorState_areg _ _ h

theorem setSr_sameD (v : Half) (s : State) : SameD s (setSr v s) := fun n => setSupervisorState_dreg _ _ n

theorem setSr_sameMemory (v : Half) (s : State) : SameMemory s (setSr v s) := fun x => setSupervisorState_peek _ _ x

theorem setSr_sameHost (v : Half) (s : State) : SameHost s (setSr v s) := setSupervisorState_sameHost _ _

theorem setSr_pc (v : Half) (s : State) : (setSr v s).pc = s.pc := setSupervisorState_pc _ _

theorem setSr_bus (v : Half) (s : State) : (setSr v s).bus = s.bus := setSupervisorState_bus _ _

theorem setSr_draws (v : Half) (s : State) : (setSr v s).draws = s.draws := setSupervisorState_draws _ _

/-- The end of both privileged meanings, from a state `u` in supervisor state: `set_sr`, then the pc. -/
theorem setSr_withPc_result (v : Half) (pc : Word) {u : State} (hu : u.sup = true) :
    let t := (setSr v u).withPc pc
    t.sr = v &&& 0x201F#16 ∧ t.sup = v.getLsbD 13 ∧ t.pc = pc ∧ t.ssp = u.sp ∧ t.usp = u.usp ∧ SameABut spReg u t ∧
      SameD u t ∧ SameMemory u t ∧ t.bus = u.bus ∧ SameHost u t ∧ t.draws = u.draws :=
  ⟨setSr_sr v u, setSr_sup v u, rfl, (setSr_ssp v u).trans (ssp_of_supervisor hu), setSr_usp v u,
    fun _ hn => setSr_areg v u hn, setSr_sameD v u, setSr_sameMemory v u, setSr_bus v u, setSr_sameHost v u,
    setSr_draws v u⟩

/-! ### MOVE to SR (R260) -/

theorem moveToSrBody_run {src : Ea} {s : State} (hs : s.sup = true) (h1 : extReadable s src .w 2 = true)
    (h2 : operandReadable s src .w 2 = true) :
    moveToSrBody src s =
      .ok () ((setSr ((operandValue s src .w 2).setWidth 16)
        (afterFinish src .w (s.withBus (s.bus ++ extRequests s src .w 2 ++ readRequests s src .w 2)))).withPc
        (s.pc + BitVec.ofNat 32 (2 + eaExtensionSize src .w))) := by
  rw [moveToSrBody, bind_ok (requireSupervisor_supervisor hs), bind_ok (construct_ok h1),
    bind_ok (Resolver.get_withBus_ok h2 _), bind_ok (Resolver.finish_run _ _ _ _ _), bind_ok (modifies_run _ _), advance_run,
    setSr_pc, afterFinish_pc, State.withBus_pc, Resolver.extensionSize_mk]

/-- `finish` in supervisor state changes the live stack pointer, never USP. -/
theorem afterFinish_usp {ea : Ea} {sz : Size} {s : State} (h : s.sup = true) : (afterFinish ea sz s).usp = s.usp := by
  simp [State.usp, h]

/-- Settles O52: `finish` on the old stack, then `set_sr` and the pc. -/
theorem moveToSrResult : Obligations.MoveToSrResult := by
  intro src s v hw hs h1 h2
  generalize hb : s.bus ++ extRequests s src .w 2 ++ readRequests s src .w 2 = b
  have hrun := moveToSrBody_run hs h1 h2
  rw [hb] at hrun
  obtain ⟨hsr, hsup, hpc, hssp, husp, ha, hd, hm, hbus, hhost, hdr⟩ := setSr_withPc_result v
    (s.pc + BitVec.ofNat 32 (2 + eaExtensionSize src .w)) (u := afterFinish src .w (s.withBus b)) (by simpa using hs)
  refine ⟨_, runBase_ok (i := .moveToSr src) hw hrun, hsr, hsup, ?_, ?_, ?_, ?_, ?_, hpc, ?_, ?_, ?_⟩
  · rw [hssp]
    simp [State.sp, afterFinish_areg]
  · rw [husp, afterFinish_usp (s := s.withBus b) hs]
    rfl
  · intro n hn
    rw [ha n hn]
    simp [afterFinish_areg]
  · exact fun n => (hd n).trans (by simp)
  · exact fun x => (hm x).trans (by simp)
  · rw [hbus]
    simp
  · simpa [SameHost] using hhost
  · rw [hdr]
    simp

/-! ### RTE (R261) -/

theorem rteBody_run {s : State} (hs : s.sup = true) (h1 : s.readable s.dataFc s.sp .w = true)
    (h2 : s.readable s.dataFc (s.sp + 2#32) .l = true) :
    rteBody s = .ok () ((setSr ((s.load s.sp .w).setWidth 16)
      ((s.withBus (s.bus ++ [.get s.dataFc s.sp .w, .get s.dataFc (s.sp + 2#32) .l])).writeA spReg (s.sp + 6#32))).withPc
      (s.load (s.sp + 2#32) .l)) := by
  rw [rteBody, bind_ok (requireSupervisor_supervisor hs), bind_ok (popFrame_ok h1 h2)]
  rfl

/-- Settles O53: the frame is popped from the supervisor stack, then `set_sr` and the pc. -/
theorem rteResult : Obligations.RteResult := by
  intro s v hs h1 h2
  generalize hb : s.bus ++ [.get s.dataFc s.sp .w, .get s.dataFc (s.sp + 2#32) .l] = b
  have hrun := rteBody_run hs h1 h2
  rw [hb] at hrun
  obtain ⟨hsr, hsup, hpc, hssp, husp, ha, hd, hm, hbus, hhost, hdr⟩ := setSr_withPc_result v (s.load (s.sp + 2#32) .l)
    (u := (s.withBus b).writeA spReg (s.sp + 6#32)) hs
  refine ⟨_, runBase_ok (i := .rte) rfl hrun, hsr, hsup, hpc, ?_, ?_, ?_, hd, hm, hbus, hhost, hdr⟩
  · rw [hssp, State.sp, State.writeA_areg_self]
  · rw [husp, State.usp, State.usp]
    simp [hs]
  · intro n hn
    rw [ha n hn, State.writeA_areg_ne _ _ hn]
    rfl

/-! ### The TRAP slot (R262) -/

/-- TRAP's opcode word is the line with the vector in its low four bits (30_encoding.md R81). -/
theorem encode_trap (vector : BitVec 4) : encode (.trap vector) = 0x4E40#16 ||| vector.setWidth 16 := by
  revert vector
  decide

/-- Settles O56: the installed handler's scripted record, which returns `Continue`. -/
theorem trapSlotResult : Obligations.TrapSlotResult := by
  intro vector s p r rest hp hin hout
  rw [← encode_trap] at hp
  change execTrap vector s = _
  rw [execTrap, hp]
  simp only
  rw [runCollab_scripted hin, hout]
  rfl

end Sys2Proof.Machine
end

section
/-! Who raises PrivilegeViolation (60_exceptions.md R272, R284): the meanings of the other instructions end, where they do not
go on, with BusError alone. -/

namespace Sys2Proof.Machine

/-- Where the meaning ends the step, it raises BusError. -/
def OnlyBusErrors {α : Type} (x : Exec α) : Prop := ∀ s e t, x s = .error e t → ∃ a fc k, e = .busError a fc k

namespace OnlyBusErrors

variable {α β : Type}

/-! ### The shared operations -/

theorem of_neverFaults {x : Exec α} (h : NeverFaults x) : OnlyBusErrors x := fun s e t hs => absurd hs (h s e t)

theorem pure (a : α) : OnlyBusErrors (pure a : Exec α) := of_neverFaults (.pure a)

theorem reads (f : State → α) : OnlyBusErrors (reads f) := of_neverFaults (.reads f)

theorem modifies (f : State → State) : OnlyBusErrors (modifies f) := of_neverFaults (.modifies f)

theorem advance (n : Nat) : OnlyBusErrors (advance n) := of_neverFaults (.advance n)

theorem finish (r : Resolver) : OnlyBusErrors r.finish := of_neverFaults (.finish r)

theorem bind {x : Exec α} {f : α → Exec β} (hx : OnlyBusErrors x) (hf : ∀ a, OnlyBusErrors (f a)) :
    OnlyBusErrors (x >>= f) := by
  intro s e t h
  rw [bind_run] at h
  cases hs : x s with
  | ok a u =>
    rw [hs] at h
    exact hf a u e t h
  | error e' u =>
    rw [hs] at h
    cases h
    exact hx s e t hs

theorem ite {p : Prop} [Decidable p] {x y : Exec α} (hx : OnlyBusErrors x) (hy : OnlyBusErrors y) :
    OnlyBusErrors (if p then x else y) := by split <;> assumption

theorem memRead (fc : FunctionCode) (a : Word) (sz : Size) : OnlyBusErrors (memRead fc a sz) := by
  intro s e t h
  cases hg : s.granted fc .read a sz with
  | true =>
    simp only [Machine.memRead, hg, if_true] at h
    split at h <;> cases h
  | false =>
    rw [memRead_rejected hg] at h
    cases h
    exact ⟨a, fc, .read, rfl⟩

theorem memWrite (fc : FunctionCode) (a : Word) (sz : Size) (v : Word) : OnlyBusErrors (memWrite fc a sz v) := by
  intro s e t h
  cases hg : s.granted fc .write a sz with
  | true =>
    rw [memWrite_ok hg] at h
    cases h
  | false =>
    rw [memWrite_rejected hg] at h
    cases h
    exact ⟨a, fc, .write, rfl⟩

theorem fetch (off : Nat) (sz : Size) : OnlyBusErrors (fetch off sz) := fun s => memRead _ _ _ s

theorem construct (ea : Ea) (sz : Size) (off : Nat) : OnlyBusErrors (construct ea sz off) := by
  unfold Machine.construct
  split
  · exact pure _
  · exact bind (fetch _ _) fun _ => pure _
  · exact bind (fetch _ _) fun _ => pure _

theorem get (r : Resolver) : OnlyBusErrors r.get := by
  unfold Resolver.get
  split
  · exact reads _
  · exact reads _
  · exact pure _
  · exact fun s => memRead _ _ _ s

theorem put (r : Resolver) (v : Word) : OnlyBusErrors (r.put v) := by
  unfold Resolver.put
  split
  · exact modifies _
  · exact modifies _
  · exact pure _
  · exact fun s => memWrite _ _ _ _ s

theorem address (r : Resolver) : OnlyBusErrors r.address := by
  unfold Resolver.address
  split
  · exact reads _
  · exact pure _

theorem finish_advance (r : Resolver) (n : Nat) : OnlyBusErrors (do r.finish; Machine.advance n) :=
  of_neverFaults (.finish_advance r n)

theorem put_finish_advance (r : Resolver) (v : Word) (n : Nat) : OnlyBusErrors (do r.put v; r.finish; Machine.advance n) :=
  bind (put r v) fun _ => finish_advance r n

theorem branchDisp (disp8 : BitVec 8) : OnlyBusErrors (branchDisp disp8) :=
  ite (bind (fetch _ _) fun _ => pure _) (pure _)

theorem pushLong (v : Word) : OnlyBusErrors (pushLong v) :=
  bind (reads _) fun _ => bind (reads _) fun _ => bind (memWrite _ _ _ _) fun _ => modifies _

theorem popLong : OnlyBusErrors popLong :=
  bind (reads _) fun _ => bind (reads _) fun _ => bind (memRead _ _ _) fun _ => bind (modifies _) fun _ => pure _

/-! ### The meanings -/

theorem move (sz : Size) (src dst : Ea) : OnlyBusErrors (move sz src dst) :=
  bind (construct _ _ _) fun _ => bind (construct _ _ _) fun _ => bind (get _) fun _ => bind (modifies _) fun _ =>
    bind (put _ _) fun _ => bind (finish _) fun _ => finish_advance _ _

theorem movea (sz : Size) (src : Ea) (an : RegNum) : OnlyBusErrors (movea sz src an) :=
  bind (construct _ _ _) fun _ => bind (get _) fun _ => bind (modifies _) fun _ => finish_advance _ _

theorem moveqBody (dn : RegNum) (data : BitVec 8) : OnlyBusErrors (moveqBody dn data) :=
  bind (modifies _) fun _ => bind (modifies _) fun _ => advance _

theorem moveFromSrBody (dst : Ea) : OnlyBusErrors (moveFromSrBody dst) :=
  bind (construct _ _ _) fun _ => bind (reads _) fun _ => put_finish_advance _ _ _

theorem arithToReg (f : Size → Word → Word → Word) (setf : Size → Word → Word → Word → State → State) (sz : Size)
    (src : Ea) (dn : RegNum) : OnlyBusErrors (arithToReg f setf sz src dn) :=
  bind (construct _ _ _) fun _ => bind (get _) fun _ => bind (reads _) fun _ => bind (modifies _) fun _ =>
    bind (modifies _) fun _ => finish_advance _ _

theorem arithToMem (f : Size → Word → Word → Word) (setf : Size → Word → Word → Word → State → State) (sz : Size)
    (dn : RegNum) (dst : Ea) : OnlyBusErrors (arithToMem f setf sz dn dst) :=
  bind (construct _ _ _) fun _ => bind (get _) fun _ => bind (reads _) fun _ => bind (modifies _) fun _ =>
    put_finish_advance _ _ _

theorem cmpToReg (sz : Size) (src : Ea) (dn : RegNum) : OnlyBusErrors (cmpToReg sz src dn) :=
  bind (construct _ _ _) fun _ => bind (get _) fun _ => bind (reads _) fun _ => bind (modifies _) fun _ =>
    finish_advance _ _

theorem addq (sz : Size) (q : BitVec 3) (dst : Ea) : OnlyBusErrors (addq sz q dst) := by
  unfold Machine.addq
  simp only
  split
  · exact bind (modifies _) fun _ => advance _
  · exact bind (construct _ _ _) fun _ => bind (get _) fun _ => bind (modifies _) fun _ => put_finish_advance _ _ _

theorem shiftReg (f : Size → Word → Nat → Word) (setf : Size → Word → Word → Nat → State → State) (sz : Size)
    (count : ShiftCount) (dn : RegNum) : OnlyBusErrors (shiftReg f setf sz count dn) :=
  bind (reads _) fun _ => bind (reads _) fun _ => bind (modifies _) fun _ => bind (modifies _) fun _ => advance _

theorem shiftMem (f : Size → Word → Nat → Word) (setf : Size → Word → Word → Nat → State → State) (dst : Ea) :
    OnlyBusErrors (shiftMem f setf dst) :=
  bind (construct _ _ _) fun _ => bind (get _) fun _ => bind (modifies _) fun _ => put_finish_advance _ _ _

theorem bitOp (g : Word → Nat → Word) (bn : Nat) (dst : Ea) (off : Nat) : OnlyBusErrors (bitOp g bn dst off) :=
  bind (construct _ _ _) fun _ => bind (get _) fun _ => bind (modifies _) fun _ => put_finish_advance _ _ _

theorem bitDynamic (g : Word → Nat → Word) (dn : RegNum) (dst : Ea) : OnlyBusErrors (bitDynamic g dn dst) :=
  bind (reads _) fun _ => bitOp _ _ _ _

theorem bitStatic (g : Word → Nat → Word) (dst : Ea) : OnlyBusErrors (bitStatic g dst) :=
  bind (fetch _ _) fun _ => bitOp _ _ _ _

theorem sccBody (cond : Cond) (dst : Ea) : OnlyBusErrors (sccBody cond dst) :=
  bind (construct _ _ _) fun _ => bind (reads _) fun _ => put_finish_advance _ _ _

theorem dbccBody (cond : Cond) (dn : RegNum) : OnlyBusErrors (dbccBody cond dn) :=
  bind (fetch _ _) fun _ => bind (reads _) fun _ => ite (advance _) (bind (reads _) fun _ => bind (modifies _) fun _ =>
    ite (advance _) (modifies _))

theorem braBody (disp8 : BitVec 8) : OnlyBusErrors (braBody disp8) := bind (branchDisp _) fun _ => modifies _

theorem bsrBody (disp8 : BitVec 8) : OnlyBusErrors (bsrBody disp8) :=
  bind (branchDisp _) fun _ => bind (reads _) fun _ => bind (pushLong _) fun _ => modifies _

theorem bccBody (cond : Cond) (disp8 : BitVec 8) : OnlyBusErrors (bccBody cond disp8) :=
  bind (branchDisp _) fun _ => bind (reads _) fun _ => ite (modifies _) (advance _)

theorem jmpBody (dst : Ea) : OnlyBusErrors (jmpBody dst) :=
  bind (construct _ _ _) fun _ => bind (address _) fun _ => modifies _

theorem jsrBody (dst : Ea) : OnlyBusErrors (jsrBody dst) :=
  bind (construct _ _ _) fun _ => bind (address _) fun _ => bind (reads _) fun _ => bind (pushLong _) fun _ => modifies _

theorem rtsBody : OnlyBusErrors rtsBody := bind popLong fun _ => modifies _

end OnlyBusErrors

/-! ### Every instruction -/

/-- The outcome is not a PrivilegeViolation. -/
def NoViolation (x : Host.Outcome State Fault Refusal) : Prop :=
  ∀ op pc left, x ≠ .fault (.privilegeViolation op pc left)

/-- A base handler raises what its meaning raises; an ill-formed term is an illegal instruction. -/
theorem OnlyBusErrors.noViolation {i : Instr} {body : Exec Unit} {s : State} (hb : OnlyBusErrors body) :
    NoViolation (runBase i body s) := by
  intro op pc left h
  unfold runBase at h
  split at h
  · cases hx : body s with
    | ok a t =>
      rw [hx] at h
      cases h
    | error e t =>
      obtain ⟨a, fc, k, rfl⟩ := hb s e t hx
      rw [hx] at h
      cases h
  · cases h

/-- The instructions that may raise PrivilegeViolation: the two privileged ones and the collaborators' slot. -/
def mayViolate : Instr → Bool
  | .rte => true
  | .moveToSr _ => true
  | .trap _ => true
  | _ => false

/-- Each meaning's own lemma; where the instruction is well-formed whatever its operands, the handler is unfolded first, or
unification would unfold `runBase` too. -/
theorem exec_noViolation {i : Instr} (s : State) (hi : mayViolate i = false) : NoViolation (exec i s) := by
  cases i with
  | rte | moveToSr | trap => cases hi
  | moveB | moveL | moveW => exact (OnlyBusErrors.move _ _ _).noViolation
  | moveaL | moveaW =>
    simp only [exec, execMoveaL, execMoveaW]
    exact (OnlyBusErrors.movea _ _ _).noViolation
  | moveq =>
    simp only [exec, execMoveq]
    exact (OnlyBusErrors.moveqBody _ _).noViolation
  | moveFromSr => exact (OnlyBusErrors.moveFromSrBody _).noViolation
  | addBEaDn | addWEaDn | addLEaDn | subBEaDn | subWEaDn | subLEaDn =>
    simp only [exec, execAddBEaDn, execAddWEaDn, execAddLEaDn, execSubBEaDn, execSubWEaDn, execSubLEaDn]
    exact (OnlyBusErrors.arithToReg _ _ _ _ _).noViolation
  | addBDnEa | addWDnEa | addLDnEa | subBDnEa | subWDnEa | subLDnEa =>
    exact (OnlyBusErrors.arithToMem _ _ _ _ _).noViolation
  | cmpB | cmpW | cmpL =>
    simp only [exec, execCmpB, execCmpW, execCmpL]
    exact (OnlyBusErrors.cmpToReg _ _ _).noViolation
  | addqB | addqW | addqL => exact (OnlyBusErrors.addq _ _ _).noViolation
  | scc => exact (OnlyBusErrors.sccBody _ _).noViolation
  | dbcc =>
    simp only [exec, execDbcc]
    exact (OnlyBusErrors.dbccBody _ _).noViolation
  | bra =>
    simp only [exec, execBra]
    exact (OnlyBusErrors.braBody _).noViolation
  | bsr =>
    simp only [exec, execBsr]
    exact (OnlyBusErrors.bsrBody _).noViolation
  | bcc => exact (OnlyBusErrors.bccBody _ _).noViolation
  | jmp => exact (OnlyBusErrors.jmpBody _).noViolation
  | jsr => exact (OnlyBusErrors.jsrBody _).noViolation
  | rts =>
    simp only [exec, execRts]
    exact OnlyBusErrors.rtsBody.noViolation
  | asrB | asrW | asrL | lsrB | lsrW | lsrL | lslB | lslW | lslL | rorB | rorW | rorL | rolB | rolW | rolL =>
    simp only [exec, execAsrB, execAsrW, execAsrL, execLsrB, execLsrW, execLsrL, execLslB, execLslW, execLslL,
      execRorB, execRorW, execRorL, execRolB, execRolW, execRolL]
    exact (OnlyBusErrors.shiftReg _ _ _ _ _).noViolation
  | asrMem | lsrMem | lslMem | rorMem | rolMem => exact (OnlyBusErrors.shiftMem _ _ _).noViolation
  | bsetDyn | bclrDyn => exact (OnlyBusErrors.bitDynamic _ _ _).noViolation
  | bsetStatic | bclrStatic => exact (OnlyBusErrors.bitStatic _ _).noViolation

/-- Settles O55: every other instruction raises BusError alone. -/
theorem onlyPrivilegedViolate : Obligations.OnlyPrivilegedViolate := by
  intro i s left op pc h
  cases hi : mayViolate i with
  | false => exact absurd h (exec_noViolation s hi op pc left)
  | true =>
    unfold mayViolate at hi
    split at hi
    · exact .inl rfl
    · exact .inr (.inl ⟨_, rfl⟩)
    · exact .inr (.inr ⟨_, rfl⟩)
    · cases hi

end Sys2Proof.Machine
end
